-- ==== Sys2Proof/Word.lean ====
section
/-! DEFINITION. The three widths of the BSL frame engine (rule R9): 8-bit data bytes, 16-bit checksums and
frame length fields, 32-bit host registers and command words. Wider or narrower register fields (R42 to R48)
are written as `BitVec` at the place where they stand in the state. -/

namespace Sys2Proof

/-- A data byte (R9). -/
abbrev Byte := BitVec 8

/-- A checksum, the CRC seed or a frame length field (R9). -/
abbrev Half := BitVec 16

/-- A host register or a command word (R9, R80). -/
abbrev Word := BitVec 32

end Sys2Proof
end

