-- ==== Sys2Proof/Syntax.lean ====
section
/-! DEFINITION. The twelve operations of the block (R82), the block's analogue of instructions (R2, R13). A CMD
write carries the opcode and two operand bytes, FCMD and RETRIES (R80); both are part of every operation's word,
because CMD stores them and reads them back, also where the operation does not use them (R81). -/

namespace Sys2Proof

/-- One constructor per row of the opcode table (R82); `fcmd` is CMD[15:8], `retries` is CMD[23:16] (R31). -/
inductive Instr where
  /-- OP 0x01: CRC-16 of a BUF span with a host seed (R119). -/
  | crc16 (fcmd retries : Byte)
  /-- OP 0x02: Internet sum of a BUF span (R120). -/
  | isum (fcmd retries : Byte)
  /-- OP 0x03: the checksum of the current mode of a BUF span (R121). -/
  | cksum (fcmd retries : Byte)
  /-- OP 0x04: stuff a BUF span into another (R137). -/
  | stuff (fcmd retries : Byte)
  /-- OP 0x05: unstuff a BUF span into another (R138). -/
  | unstuff (fcmd retries : Byte)
  /-- OP 0x06: assemble a logical frame in TXF (R156). -/
  | build (fcmd retries : Byte)
  /-- OP 0x07: stuff the frame in TXF and write it to the port (R158). -/
  | send (fcmd retries : Byte)
  /-- OP 0x08: one receive with reassembly (R163). -/
  | recv (fcmd retries : Byte)
  /-- OP 0x09: unstuff RXW into RXF and verify it (R168). -/
  | decode (fcmd retries : Byte)
  /-- OP 0x0A: receive attempts without a send (R171). -/
  | recvx (fcmd retries : Byte)
  /-- OP 0x0B: build, send, receive attempts (R172). -/
  | exchange (fcmd retries : Byte)
  /-- OP 0x0C: send the version probe byte, receive attempts (R174). -/
  | probe (fcmd retries : Byte)
deriving DecidableEq, Repr

end Sys2Proof
end

