-- ==== Sys2Proof/WellFormed.lean ====
section
/-! DEFINITION. Well-formed operations. Every value of FCMD and RETRIES is encodable (R81), so the widths of the
fields need no check; the one value the spec calls illegal is RETRIES = 0 for the three operations that make
receive attempts (R31). Such a word still decodes and runs: the operation finishes with PARAM (R242). -/

namespace Sys2Proof

/-- RETRIES is a legal attempt count for the operation (R31: 1 to 255 where it is used). -/
def Instr.wellFormed : Instr → Bool
  | .crc16 _ _ => true
  | .isum _ _ => true
  | .cksum _ _ => true
  | .stuff _ _ => true
  | .unstuff _ _ => true
  | .build _ _ => true
  | .send _ _ => true
  | .recv _ _ => true
  | .decode _ _ => true
  | .recvx _ retries => retries != 0
  | .exchange _ retries => retries != 0
  | .probe _ retries => retries != 0

end Sys2Proof
end

