-- ==== Sys2Proof/Decode.lean ====
section
/-! DEFINITION. The command word (R80 to R85): its decoder, total over every 32-bit value (R84) and rejecting an
illegal opcode by name (R83), and the encoder written from the same table (R82). -/

namespace Sys2Proof

/-- Why a command word names no operation. -/
inductive Reject where
  /-- OP is 0x00 or 0x0D to 0xFF (R83); the engine's first step finishes such a word with ILLEGAL_OP. -/
  | illegalOpcode (op : Byte)
deriving DecidableEq, Repr

/-- CMD.OP, bits 7:0 of a command word (R80). -/
def opField (w : Word) : Byte := w.extractLsb' 0 8

/-- CMD.FCMD, bits 15:8 of a command word (R80). -/
def fcmdField (w : Word) : Byte := w.extractLsb' 8 8

/-- CMD.RETRIES, bits 23:16 of a command word (R80). -/
def retriesField (w : Word) : Byte := w.extractLsb' 16 8

/-- The decoder of the command word (R82 to R84). Bits 31:24 never change the meaning. -/
def decode (w : Word) : Except Reject Instr :=
  let fcmd := fcmdField w
  let retries := retriesField w
  if opField w = 0x01 then .ok (.crc16 fcmd retries)
  else if opField w = 0x02 then .ok (.isum fcmd retries)
  else if opField w = 0x03 then .ok (.cksum fcmd retries)
  else if opField w = 0x04 then .ok (.stuff fcmd retries)
  else if opField w = 0x05 then .ok (.unstuff fcmd retries)
  else if opField w = 0x06 then .ok (.build fcmd retries)
  else if opField w = 0x07 then .ok (.send fcmd retries)
  else if opField w = 0x08 then .ok (.recv fcmd retries)
  else if opField w = 0x09 then .ok (.decode fcmd retries)
  else if opField w = 0x0A then .ok (.recvx fcmd retries)
  else if opField w = 0x0B then .ok (.exchange fcmd retries)
  else if opField w = 0x0C then .ok (.probe fcmd retries)
  else .error (.illegalOpcode (opField w))

/-- The command word of one operation from its three fields (R80); the reserved bits 31:24 are 0. -/
def commandWord (op fcmd retries : Byte) : Word := 0#8 ++ retries ++ fcmd ++ op

/-- The encoder (R80, R82). -/
def encode : Instr → Word
  | .crc16 fcmd retries => commandWord 0x01 fcmd retries
  | .isum fcmd retries => commandWord 0x02 fcmd retries
  | .cksum fcmd retries => commandWord 0x03 fcmd retries
  | .stuff fcmd retries => commandWord 0x04 fcmd retries
  | .unstuff fcmd retries => commandWord 0x05 fcmd retries
  | .build fcmd retries => commandWord 0x06 fcmd retries
  | .send fcmd retries => commandWord 0x07 fcmd retries
  | .recv fcmd retries => commandWord 0x08 fcmd retries
  | .decode fcmd retries => commandWord 0x09 fcmd retries
  | .recvx fcmd retries => commandWord 0x0A fcmd retries
  | .exchange fcmd retries => commandWord 0x0B fcmd retries
  | .probe fcmd retries => commandWord 0x0C fcmd retries

/-- The operation of a word given as the opcode table numbers its bits: one 32-bit word, bit 0 the least
significant; a row of fewer than 32 bits leaves the bits above it zero, and no command is longer (R85). -/
def decodeTableWord (nbits w : Nat) : Option Instr :=
  if nbits ≤ 32 then
    match decode (BitVec.ofNat 32 (w % 2 ^ nbits)) with
    | .ok i => some i
    | .error _ => none
  else none

end Sys2Proof
end

