-- ==== Sys2Proof/Config.lean ====
section
/-! DEFINITION. What is fixed for the block: the sizes and bases that rule R8 decides, and the free values that the
spec leaves open. A free value is an opaque constant with no body, so that no proof can see what it is and every
claim holds whatever it is. -/

namespace Sys2Proof.Config

/-- BUF_SIZE (R8, R49): BUF has 1 MiB. -/
def bufSize : Nat := 0x100000

/-- REGION_SIZE (R8, R50). -/
def regionSize : Nat := 0x40000

/-- TXF_BASE (R8, R50): the logical frame to send. -/
def txfBase : Nat := 0x00000

/-- TXW_BASE (R8, R50): the wire frame last sent. -/
def txwBase : Nat := 0x40000

/-- RXW_BASE (R8, R50): the received wire bytes. -/
def rxwBase : Nat := 0x80000

/-- RXF_BASE (R8, R50): the unstuffed received frame. -/
def rxfBase : Nat := 0xC0000

/-- CRC_SEED_FRAME (R8, R118): the seed of every frame checksum in CRC mode and of CKSUM. -/
def crcSeedFrame : Half := 0x0000

/-- The frame delimiter (R13, R90). -/
def delimiter : Byte := 0x7E

/-- The escape byte (R13, R96). -/
def escapeByte : Byte := 0x7D

/-- The host offset at which the window onto BUF begins (R61). -/
def bufWindow : Nat := 0x100000

/-- The first host offset behind the register page (R61, R62). -/
def regPageEnd : Nat := 0x100

/-- FREE VALUE (R282, U1 and U2 of 93_implementation_defined.md; log entry 1). What the byte of BUF at the second
argument holds while nothing has written it since the reset whose number is the first argument. -/
opaque freeByte : Nat → Nat → Byte

/-- FREE VALUE (R264, U10; log entry 3). Whether the port answers `Ok` to a write request for which the state's
oracle sequence holds no answer; the argument counts such draws. -/
opaque portWriteOk : Nat → Bool

/-- FREE VALUE (R264, U10; log entry 3). The port's answer to a read request for which the state's oracle sequence
holds none (`none` is `Err`); the argument counts such draws. -/
opaque portReadChunk : Nat → Option (List Byte)

/-- FREE VALUE behind `rxChunkMax` (R8, U16). -/
opaque rxChunkSlack : Fin 0x40000

/-- RX_CHUNK_MAX (R8, R263, U16; log entry 4), an OPEN parameter: any number from 1 to REGION_SIZE. -/
def rxChunkMax : Nat := 0x40000 - rxChunkSlack.val

/-- BLOCK_BASE (R61, U20; log entry 9), an OPEN parameter: the host address of the block's offset 0. -/
opaque blockBase : Nat

/-- LOADER_START_PAYLOAD (R208, U19; log entry 10), an OPEN host function: the start payload of a loader download from
the destination address, which R208 gives no width, and the image size. -/
opaque loaderStartPayload : Nat → Nat → List Byte

/-- FREE VALUE (R222, N13; log entry 26). The request payload of a block read, from its start block and the payload an
upload sends there: how `start_block` reaches the device is OPEN. -/
opaque blockRequest : Nat → List Byte → List Byte

end Sys2Proof.Config
end

