-- ==== Sys2Proof/Machine/CrcTable.lean ====
section
/-! DEFINITION. The block's parameter CRC16_TABLE (R8, R111): tables of 256 16-bit values, and the value the spec gives it
(G1; log entry 5). -/

namespace Sys2Proof.Machine

/-- A table for the CRC, `Fin 256 -> u16` of R8, as the list of its entries. -/
abbrev CrcTable := List Half

/-- The parameter's type (R8): 256 entries. -/
def CrcTable.wf (table : CrcTable) : Bool := table.length == 256

/-- `CRC16_TABLE[i]`. A well-formed table has an entry for every byte. -/
def crcEntry (table : CrcTable) (i : Byte) : Half := table.getD i.toNat 0

/-- `g` of R111: one shift of the MSB-first generator of polynomial 0x1021. -/
def crcShift (x : Half) : Half := if x.msb then (x <<< 1) ^^^ 0x1021 else x <<< 1

/-- `f` applied `n` times. -/
def iterate (f : Half → Half) : Nat → Half → Half
  | 0, x => x
  | n + 1, x => iterate f n (f x)

/-- The value of CRC16_TABLE in this spec (R111): entry `i` is `g^8(i << 8)`. -/
def crc16Table : CrcTable := (List.range 256).map fun i => iterate crcShift 8 (BitVec.ofNat 8 i ++ 0#8)

end Sys2Proof.Machine
end

