-- ==== Sys2Proof/Machine/State.lean ====
section
/-! DEFINITION. The state of the BSL frame engine as plain data: the seventeen registers field by field (R25 to
R48), the buffer BUF (R49), the engine's phase and hidden state (R23, R24), and the outside world as the model
holds it (the inputs of the host, the port and the reset line, and the parameters RX_CHUNK_MAX and CRC16_TABLE). -/

namespace Sys2Proof.Machine

/-- CTRL.MODE, the source's checksum mode (R27, R28): bit value 0 is `crc`, 1 is `internetSum`. -/
inductive ChecksumMode where
  | crc
  | internetSum
deriving DecidableEq, Repr

/-- The error codes of R242 (`Flags.lean` gives their 4-bit values). The reserved codes 0xA to 0xF are never
produced (U5) and have no constructor. -/
inductive ErrCode where
  | none
  | transport
  | badDelimiter
  | checksumMismatch
  | shortFrame
  | escInvalid
  | escTruncated
  | rxOverflow
  | illegalOp
  | param
deriving DecidableEq, Repr

/-- The port's answer to a write request (R262). -/
inductive WriteAnswer where
  | ok
  | err
deriving DecidableEq, Repr

/-- The port's answer to a read request (R263). -/
inductive ReadAnswer where
  | ok (chunk : List Byte)
  | err
deriving DecidableEq, Repr

/-- One access of the host to the host interface space (R20, R60): its width in bits, its byte offset from the
block's base address, and for a write the data. Every width is an access the host can make; which widths are legal is
the bus's rule (R62, R63). -/
inductive Access where
  | read (bits : Nat) (off : BitVec 21)
  | write (bits : Nat) (off : BitVec 21) (data : Word)
deriving DecidableEq, Repr

/-- What the host's latest access was answered with. -/
inductive Reply where
  /-- No access has been made since reset. -/
  | noAccess
  /-- A write was taken (its effect may be that it is ignored). -/
  | done
  /-- The data of a read, zero-extended to 32 bits. -/
  | data (v : Word)
  /-- The bus error response (R260). -/
  | busError
deriving DecidableEq, Repr

/-- The point of the running operation's pseudocode at which the engine's next step resumes (R24 `eng.cont`), with
the port answer bound to the primitive that waited for it (R153). -/
inductive Point where
  /-- The start of the operation's body. -/
  | start
  /-- After the operation's `PortWrite`. -/
  | wrote (a : WriteAnswer)
  /-- After the `PortRead` of the running receive. -/
  | got (a : ReadAnswer)
deriving DecidableEq, Repr

/-- The hidden state of a running operation (R24): opcode, receive-attempt counter, last receive error, and the
mode and word order sampled at launch (R152). -/
structure Job where
  op : Byte
  k : Byte
  lasterr : ErrCode
  m : ChecksumMode
  le : Bool
deriving DecidableEq, Repr

/-- The engine phase (R23) with the hidden state that exists only while an operation runs (R24, R151). In a wait
phase the continuation is the point after the request that the phase names (R54). -/
inductive Engine where
  | idle
  | run (j : Job) (p : Point)
  | waitWrite (bytes : List Byte) (j : Job)
  | waitRead (max : Nat) (j : Job)
deriving DecidableEq, Repr

/-- The contents of BUF: (offset, byte) pairs in one canonical form, see `Memory.wf`. A byte that is not listed has
not been written since the last reset, and its value is unspecified (R282). -/
structure Memory where
  cells : List Host.Cell
deriving DecidableEq, Repr

/-- The register fields that have storage (R25 to R48). STATUS.ERR has none (R36); reserved bits have none (R26). -/
structure Regs where
  /-- CTRL.MODE (R28). -/
  mode : ChecksumMode
  /-- CTRL.ISUM_LE (R29). -/
  isumLe : Bool
  /-- CTRL.IE (R30). -/
  ie : Bool
  /-- CMD, bits 23:0 (R31). -/
  cmd : BitVec 24
  /-- STATUS.BUSY (R34), stored beside the phase that it mirrors (R23; log entry 15). -/
  busy : Bool
  /-- STATUS.DONE (R35). -/
  done : Bool
  /-- STATUS.RVALID (R37). -/
  rvalid : Bool
  /-- STATUS.BUSYERR (R38). -/
  busyerr : Bool
  /-- STATUS.ERRCODE (R36). -/
  errcode : ErrCode
  /-- STATUS.ATTEMPTS (R39). -/
  attempts : Byte
  /-- SEED (R40). -/
  seed : Half
  /-- RESULT (R41). -/
  result : Half
  /-- SRC (R42). -/
  src : BitVec 20
  /-- DST (R42). -/
  dst : BitVec 20
  /-- LEN (R42). -/
  len : BitVec 21
  /-- OUTLEN (R43). -/
  outlen : BitVec 21
  /-- PLEN (R44). -/
  plen : Half
  /-- TXF_LEN (R45). -/
  txfLen : BitVec 17
  /-- TXW_LEN (R45). -/
  txwLen : BitVec 18
  /-- RXW_LEN (R46). -/
  rxwLen : BitVec 19
  /-- RXF_LEN (R46). -/
  rxfLen : BitVec 19
  /-- RESP (R47). -/
  resp : Word
  /-- RESP_CKS (R48). -/
  respCks : Half
  /-- RESP_PLEN (R48). -/
  respPlen : BitVec 18
deriving DecidableEq, Repr

/-- One move of one agent, as the outside world schedules it (R20, R68, R292; log entry 2). -/
inductive Event where
  /-- The reset input is asserted (R280). -/
  | reset
  /-- The host makes one bus access (R20, R65). -/
  | host (a : Access)
  /-- The engine moves, if it can (R153). -/
  | engine
  /-- The port moves: it answers the outstanding request, if there is one (R54, R153). -/
  | port
deriving DecidableEq, Repr

/-- The MODEL's own fields: the outside world, and the block's two parameters that are arguments (log entries 2, 3, 4, 5,
11 and 12). -/
structure Env where
  /-- The answer to the host's latest access. -/
  reply : Reply
  /-- The moves the outside world has scheduled, first first; when it is empty the block runs on by itself. -/
  agenda : List Event
  /-- The port's answers to the coming write requests, in order (R264: "an oracle sequence given to the model"). -/
  portWrites : List WriteAnswer
  /-- The port's answers to the coming read requests, in order. -/
  portReads : List ReadAnswer
  /-- How many port answers have been drawn freely (the oracle sequence was empty). -/
  draws : Nat
  /-- How many reset events there have been; the unspecified bytes of BUF are drawn anew at each (R282). -/
  epoch : Nat
  /-- RX_CHUNK_MAX (R8), which no step changes. -/
  rxChunkMax : Nat
  /-- CRC16_TABLE (R8, R111), which no step changes: the table of every CRC the block computes. -/
  crcTable : CrcTable
deriving DecidableEq, Repr

/-- The whole machine. -/
structure State where
  regs : Regs
  buf : Memory
  eng : Engine
  env : Env
deriving DecidableEq, Repr

/-- Why the machine stops. None of these is reachable from reset: they stand for states the spec does not
describe, and stopping there is safe (nothing is claimed of the hardware that goes on; log entry 19). -/
inductive Fault where
  /-- Raised by `memReadThen` and `memWrite`: an engine access to an offset outside BUF, which no operation makes
  because every caller checks its span first (R11, R67). Safe. -/
  | bufRange
  /-- Raised by a meaning: the engine would resume at a point that the operation's pseudocode does not have (R178).
  Safe. -/
  | noSuchPoint
  /-- Raised by a meaning that is evaluated while the engine is not in phase Run (R153 gives it no step). Safe. -/
  | notRunning
deriving DecidableEq, Repr

/-- Why an instruction has no meaning in the model. -/
inductive Refusal where
  /-- Raised by an arm of `exec` whose instruction has no meaning yet; no arm is left. Safe. -/
  | notModelled (mnemonic : String)
deriving DecidableEq, Repr

/-- Every register field at its reset value (R52, R281). -/
def Regs.reset : Regs where
  mode := .crc
  isumLe := false
  ie := false
  cmd := 0
  busy := false
  done := false
  rvalid := false
  busyerr := false
  errcode := .none
  attempts := 0
  seed := 0
  result := 0
  src := 0
  dst := 0
  len := 0
  outlen := 0
  plen := 0
  txfLen := 0
  txwLen := 0
  rxwLen := 0
  rxfLen := 0
  resp := 0
  respCks := 0
  respPlen := 0

/-- The machine right after reset (R52, R281, R284): every register field 0, the engine idle, every byte of BUF
unspecified, no input scheduled; the parameter CRC16_TABLE has its default (R111). -/
def State.reset : State where
  regs := Regs.reset
  buf := ⟨[]⟩
  eng := .idle
  env :=
    { reply := .noAccess, agenda := [], portWrites := [], portReads := [], draws := 0, epoch := 0,
      rxChunkMax := Config.rxChunkMax, crcTable := crc16Table }

end Sys2Proof.Machine
end

