-- ==== Sys2Proof/Machine/Operands.lean ====
section
/-! DEFINITION. Operand forms and byte-order helpers: 16-bit values from and to bytes (R10, R76), indexing and
slices of byte sequences (R10), the span check (R75), and the operand fields of the latched command word (R81). -/

namespace Sys2Proof.Machine

/-- `be16(h, l)` of R10. -/
def be16 (h l : Byte) : Half := h ++ l

/-- Bits 15:8 of a 16-bit value (R90: the byte sent first). -/
def hiByte (v : Half) : Byte := v.extractLsb' 8 8

/-- Bits 7:0 of a 16-bit value. -/
def loByte (v : Half) : Byte := v.extractLsb' 0 8

/-- `swap16` of R123. -/
def swap16 (v : Half) : Half := be16 (loByte v) (hiByte v)

/-- `f[i]` of a byte sequence (R10). Every use of it stands behind a length check; past the end it is 0
(log entry 18). -/
def byteOf (f : List Byte) (i : Nat) : Byte := f.getD i 0

/-- The half-open slice `f[i .. j)` of R10, empty if `j ≤ i`. -/
def slice (f : List Byte) (i j : Nat) : List Byte := (f.drop i).take (j - i)

/-- The span check of R75: `off + n ≤ BUF_SIZE`, without wrap-around. -/
def spanLegal (off n : Nat) : Bool := decide (off + n ≤ Config.bufSize)

/-- CMD.OP (R31). -/
def cmdOp (cmd : BitVec 24) : Byte := cmd.extractLsb' 0 8

/-- CMD.FCMD (R31). -/
def cmdFcmd (cmd : BitVec 24) : Byte := cmd.extractLsb' 8 8

/-- CMD.RETRIES (R31). -/
def cmdRetries (cmd : BitVec 24) : Byte := cmd.extractLsb' 16 8

end Sys2Proof.Machine
end

