-- ==== Sys2Proof/Machine/Flags.lean ====
section
/-! DEFINITION. The status word and what is computed for it: the 4-bit error codes (R242), STATUS.ERR (R36), the
fields of STATUS, CTRL and CMD as the host reads them (R27, R31, R33), which operations clear RVALID (R37), and the
interrupt output (R53). -/

namespace Sys2Proof.Machine

/-- The codes of STATUS.ERRCODE (R242). -/
def ErrCode.code : ErrCode → BitVec 4
  | .none => 0x0
  | .transport => 0x1
  | .badDelimiter => 0x2
  | .checksumMismatch => 0x3
  | .shortFrame => 0x4
  | .escInvalid => 0x5
  | .escTruncated => 0x6
  | .rxOverflow => 0x7
  | .illegalOp => 0x8
  | .param => 0x9

/-- STATUS.ERR, which has no storage: it reads as 1 exactly when ERRCODE is not 0 (R36). -/
def Regs.err (r : Regs) : Bool := r.errcode.code != 0

/-- One bit of a register word. -/
def bit (b : Bool) : BitVec 1 := BitVec.ofBool b

/-- STATUS as the host reads it (R33), reserved bits 0 (R26). -/
def Regs.statusWord (r : Regs) : Word :=
  0#8 ++ r.attempts ++ 0#4 ++ r.errcode.code ++ 0#3 ++ bit r.busyerr ++ bit r.rvalid ++ bit r.err ++ bit r.done
    ++ bit r.busy

/-- The bit of CTRL.MODE (R27). -/
def ChecksumMode.toBit : ChecksumMode → Bool
  | .crc => false
  | .internetSum => true

/-- The mode of a CTRL.MODE bit (R27). -/
def ChecksumMode.ofBit : Bool → ChecksumMode
  | false => .crc
  | true => .internetSum

/-- CTRL as the host reads it (R27). -/
def Regs.ctrlWord (r : Regs) : Word := 0#29 ++ bit r.ie ++ bit r.isumLe ++ bit r.mode.toBit

/-- CMD as the host reads it (R31, R80: bits 31:24 read as 0). -/
def Regs.cmdWord (r : Regs) : Word := 0#8 ++ r.cmd

/-- Whether launching the opcode clears STATUS.RVALID: RECV, DECODE, RECVX, EXCHANGE and PROBE (R37, R150). -/
def clearsRvalid (op : Byte) : Bool :=
  op == 0x08 || op == 0x09 || op == 0x0A || op == 0x0B || op == 0x0C

/-- The interrupt output (R53, R248): a level, `CTRL.IE AND STATUS.DONE`. -/
def State.irq (s : State) : Bool := s.regs.ie && s.regs.done

/-- RESP.CMD (R47). -/
def respCmd (resp : Word) : Byte := resp.extractLsb' 0 8

/-- RESP.RSVD (R47). -/
def respRsvd (resp : Word) : Byte := resp.extractLsb' 8 8

/-- RESP.LENF (R47). -/
def respLenf (resp : Word) : Half := resp.extractLsb' 16 16

end Sys2Proof.Machine
end

