-- ==== Sys2Proof/Machine/Ops.lean ====
section
/-! DEFINITION. The shared operations: BUF (R11, R49), the result registers, launch (R150) and finish (R151), the
two port requests (R11, R54), and the finish of an illegal opcode (R83). The block takes no exception:
an operation that fails ends through `finish` with an error code (R240, R241, R250), which is the one shared
operation for it, and nothing returns from it (R252). -/

namespace Sys2Proof.Machine

/-- What one step answers. -/
abbrev Result := Host.Outcome State Fault Refusal

/-- Go on with the next state, or stop as the first part did. -/
def andThen (r : Result) (k : State → Result) : Result :=
  match r with
  | .next s => k s
  | .fault e => .fault e
  | .refused e => .refused e

/-! ## BUF -/

/-- The listed byte at an offset. -/
def lookup : List Host.Cell → Nat → Option Byte
  | [], _ => none
  | (x, b) :: rest, a => if x = a then some b else lookup rest a

/-- Write one byte, keeping the offsets in rising order. -/
def insert (a : Nat) (b : Byte) : List Host.Cell → List Host.Cell
  | [] => [(a, b)]
  | (x, c) :: rest =>
    if a < x then (a, b) :: (x, c) :: rest
    else if a = x then (a, b) :: rest
    else (x, c) :: insert a b rest

/-- Every offset of the list is at least `lo`, rises strictly and is an offset of BUF. -/
def risingFrom : Nat → List Host.Cell → Bool
  | _, [] => true
  | lo, (x, _) :: rest => decide (lo ≤ x) && decide (x < Config.bufSize) && risingFrom (x + 1) rest

/-- The canonical form of BUF's contents: offsets of BUF, strictly rising. An unlisted offset holds no written byte
(`Memory.byte?` answers none there), so no entry repeats what an unlisted offset reads as. -/
def Memory.wf (m : Memory) : Bool := risingFrom 0 m.cells

/-- The byte written at an offset since the last reset, if one was. -/
def Memory.byte? (m : Memory) (a : Nat) : Option Byte := lookup m.cells a

/-- What a byte of BUF holds: the byte written last, and where nothing has written since the reset numbered `epoch`
the free value of R282 (U1, U2). -/
def Memory.byte (m : Memory) (epoch a : Nat) : Byte := (m.byte? a).getD (Config.freeByte epoch a)

/-- Write one byte. -/
def Memory.write (m : Memory) (a : Nat) (b : Byte) : Memory := ⟨insert a b m.cells⟩

/-- Write a byte sequence at rising offsets. -/
def Memory.writeSpan (m : Memory) (off : Nat) : List Byte → Memory
  | [] => m
  | b :: bs => (m.write off b).writeSpan (off + 1) bs

/-- `n` bytes at rising offsets. -/
def Memory.readSpan (m : Memory) (epoch off : Nat) : Nat → List Byte
  | 0 => []
  | n + 1 => m.byte epoch off :: m.readSpan epoch (off + 1) n

/-- `BUF[off]`. -/
def State.byteAt (s : State) (off : Nat) : Byte := s.buf.byte s.env.epoch off

/-- `BUF[off .. off+n)`. -/
def State.bytesAt (s : State) (off n : Nat) : List Byte := s.buf.readSpan s.env.epoch off n

/-- `MemRead(off, n)` (R11): the engine's read of a span, handed to the rest of the body. -/
def memReadThen (off n : Nat) (s : State) (k : List Byte → Result) : Result :=
  if spanLegal off n then k (s.bytesAt off n) else .fault .bufRange

/-- `MemWrite(off, |bs|, bs)` (R11). -/
def memWrite (off : Nat) (bs : List Byte) (s : State) : Result :=
  if spanLegal off bs.length then .next { s with buf := s.buf.writeSpan off bs } else .fault .bufRange

/-! ## Result registers -/

/-- RESULT (R41). -/
def State.setResult (s : State) (v : Half) : State := { s with regs := { s.regs with result := v } }

/-- OUTLEN (R43). -/
def State.setOutlen (s : State) (n : Nat) : State := { s with regs := { s.regs with outlen := BitVec.ofNat 21 n } }

/-- TXF_LEN (R45). -/
def State.setTxfLen (s : State) (n : Nat) : State := { s with regs := { s.regs with txfLen := BitVec.ofNat 17 n } }

/-- TXW_LEN (R45). -/
def State.setTxwLen (s : State) (n : Nat) : State := { s with regs := { s.regs with txwLen := BitVec.ofNat 18 n } }

/-- RXW_LEN (R46). -/
def State.setRxwLen (s : State) (n : Nat) : State := { s with regs := { s.regs with rxwLen := BitVec.ofNat 19 n } }

/-- RXF_LEN (R46). -/
def State.setRxfLen (s : State) (n : Nat) : State := { s with regs := { s.regs with rxfLen := BitVec.ofNat 19 n } }

/-- STATUS.ATTEMPTS (R39). -/
def State.setAttempts (s : State) (k : Byte) : State := { s with regs := { s.regs with attempts := k } }

/-- STATUS.BUSYERR (R38). -/
def State.setBusyErr (s : State) : State := { s with regs := { s.regs with busyerr := true } }

/-- What a successful verify writes: RESP, RESP_CKS, RESP_PLEN and RVALID (R37, R47, R48, R165). -/
def State.setResponse (s : State) (resp : Word) (cks : Half) (plen : Nat) : State :=
  { s with regs := { s.regs with resp := resp, respCks := cks, respPlen := BitVec.ofNat 18 plen, rvalid := true } }

/-- The answer to the host's access. -/
def State.setReply (s : State) (r : Reply) : State := { s with env := { s.env with reply := r } }

/-- The moves that are still scheduled. -/
def State.setAgenda (s : State) (es : List Event) : State := { s with env := { s.env with agenda := es } }

/-- The engine's phase. -/
def State.setEng (s : State) (e : Engine) : State := { s with eng := e }

/-! ## Launch and finish -/

/-- The registers as a launch leaves them (R150): CMD bits 23:0 stored, BUSY set, DONE, ERRCODE and ATTEMPTS
cleared, and RVALID cleared for the operations that receive (R37). -/
def Regs.launched (r : Regs) (word : Word) : Regs :=
  { r with
    cmd := word.extractLsb' 0 24
    busy := true
    done := false
    errcode := .none
    attempts := 0
    rvalid := if clearsRvalid (opField word) then false else r.rvalid }

/-- The hidden state at a launch (R150), with the mode snapshot (R152). -/
def launchedJob (r : Regs) (word : Word) : Job :=
  { op := opField word, k := 0, lasterr := .none, m := r.mode, le := r.isumLe }

/-- Launch (R150): what a CMD write does while the engine is idle. -/
def launch (word : Word) (s : State) : State :=
  { s with regs := s.regs.launched word, eng := .run (launchedJob s.regs word) .start }

/-- The registers as `finish(e)` leaves them (R151). -/
def Regs.finished (r : Regs) (e : ErrCode) : Regs := { r with errcode := e, busy := false, done := true }

/-- `finish(e)` (R151, R241): the one way an operation ends. The hidden state is discarded. -/
def finish (e : ErrCode) (s : State) : State := { s with regs := s.regs.finished e, eng := .idle }

/-- `finish(e)` as the end of a body. -/
def finishWith (e : ErrCode) (s : State) : Result := .next (finish e s)

/-- The body of an illegal opcode (R83): the engine's first step finishes with ILLEGAL_OP. -/
def finishIllegal (s : State) : Result := finishWith .illegalOp s

/-! ## Port requests -/

/-- `PortWrite(bytes)` (R11): the engine step ends with the request outstanding (R153). -/
def portWrite (bytes : List Byte) (j : Job) (s : State) : Result := .next (s.setEng (.waitWrite bytes j))

/-- `PortRead(RX_CHUNK_MAX)` (R11, R263): the engine step ends with the request outstanding (R153). -/
def portRead (j : Job) (s : State) : Result := .next (s.setEng (.waitRead s.env.rxChunkMax j))

/-! ## Points of a body -/

/-- The body of an operation that makes no port request (R178): it runs whole from its start. -/
def atStart (s : State) (body : Job → Result) : Result :=
  match s.eng with
  | .run j .start => body j
  | .run _ _ => .fault .noSuchPoint
  | _ => .fault .notRunning

/-- The command word of the running operation: `eng.op` below the operand bytes of CMD (R24, R72, R80). -/
def latchedWord (j : Job) (s : State) : Word :=
  commandWord j.op (cmdFcmd s.regs.cmd) (cmdRetries s.regs.cmd)

end Sys2Proof.Machine
end

