-- ==== Sys2Proof/Machine/Bus.lean ====
section
/-! DEFINITION. The host interface (20_memory.md): the address map, which accesses are legal, the register page with
its access types (R25, R26), the window onto BUF, and what an access does while an operation runs (R51). -/

namespace Sys2Proof.Machine

/-- The seventeen registers of R25. -/
inductive Reg where
  | ctrl
  | cmd
  | status
  | seed
  | result
  | src
  | dst
  | len
  | outlen
  | plen
  | txfLen
  | txwLen
  | rxwLen
  | rxfLen
  | resp
  | respCks
  | respPlen
deriving DecidableEq, Repr

/-- The register offsets of R25, in the order of the table. -/
def regTable : List (Nat × Reg) :=
  [(0x000, .ctrl), (0x004, .cmd), (0x008, .status), (0x00C, .seed), (0x010, .result), (0x014, .src), (0x018, .dst),
   (0x01C, .len), (0x020, .outlen), (0x024, .plen), (0x028, .txfLen), (0x02C, .txwLen), (0x030, .rxwLen),
   (0x034, .rxfLen), (0x038, .resp), (0x03C, .respCks), (0x040, .respPlen)]

/-- The register at an offset of the register page; the offsets 0x044 to 0x0FF are reserved (R25, R64). -/
def regAt (off : Nat) : Option Reg := (regTable.find? fun p => p.1 == off).map (·.2)

/-- What the host reads from a register (R25 to R48), reserved bits 0 (R26). -/
def Regs.read (r : Regs) : Reg → Word
  | .ctrl => r.ctrlWord
  | .cmd => r.cmdWord
  | .status => r.statusWord
  | .seed => r.seed.setWidth 32
  | .result => r.result.setWidth 32
  | .src => r.src.setWidth 32
  | .dst => r.dst.setWidth 32
  | .len => r.len.setWidth 32
  | .outlen => r.outlen.setWidth 32
  | .plen => r.plen.setWidth 32
  | .txfLen => r.txfLen.setWidth 32
  | .txwLen => r.txwLen.setWidth 32
  | .rxwLen => r.rxwLen.setWidth 32
  | .rxfLen => r.rxfLen.setWidth 32
  | .resp => r.resp
  | .respCks => r.respCks.setWidth 32
  | .respPlen => r.respPlen.setWidth 32

/-- A write to STATUS (R33): only the W1C bits, DONE (bit 1) and BUSYERR (bit 4), in every engine phase. -/
def Regs.writeStatus (r : Regs) (v : Word) : Regs :=
  { r with
    done := r.done && !v.getLsbD 1
    busyerr := r.busyerr && !v.getLsbD 4 }

/-- A write to CTRL (R27); the reserved bits are ignored (R26). -/
def Regs.writeCtrl (r : Regs) (v : Word) : Regs :=
  { r with
    mode := ChecksumMode.ofBit (v.getLsbD 0)
    isumLe := v.getLsbD 1
    ie := v.getLsbD 2 }

/-- A write, while BUSY = 0, to a register other than CMD and STATUS: an RW register stores the bits of its field, an
RO register ignores the write (R26). -/
def Regs.write (r : Regs) (v : Word) : Reg → Regs
  | .ctrl => r.writeCtrl v
  | .seed => { r with seed := v.setWidth 16 }
  | .src => { r with src := v.setWidth 20 }
  | .dst => { r with dst := v.setWidth 20 }
  | .len => { r with len := v.setWidth 21 }
  | .plen => { r with plen := v.setWidth 16 }
  | .cmd => r
  | .status => r
  | .result => r
  | .outlen => r
  | .txfLen => r
  | .txwLen => r
  | .rxwLen => r
  | .rxfLen => r
  | .resp => r
  | .respCks => r
  | .respPlen => r

/-- A 32-bit write to a register offset; `none` is a reserved one. CMD launches while the engine is idle and is
otherwise ignored with BUSYERR (R32); every other write but that to STATUS is ignored with BUSYERR while BUSY = 1
(R38, R51, R66). -/
def writeReg (reg : Option Reg) (v : Word) (s : State) : State :=
  match reg with
  | some .status => { s with regs := s.regs.writeStatus v }
  | some .cmd => if s.eng = .idle then launch v s else s.setBusyErr
  | some r => if s.regs.busy then s.setBusyErr else { s with regs := s.regs.write v r }
  | none => if s.regs.busy then s.setBusyErr else s

/-- A legal access to the register page: 32 bits wide, at a multiple of 4 (R62). -/
def regAccessLegal (bits off : Nat) : Bool := bits == 32 && off % 4 == 0

/-- A legal access to the BUF window: 8, 16 or 32 bits wide and naturally aligned (R63). -/
def bufAccessLegal (bits off : Nat) : Bool :=
  bits == 8 || (bits == 16 && off % 2 == 0) || (bits == 32 && off % 4 == 0)

/-- A little-endian byte sequence as host data: its first byte is bits 7:0 (R63). -/
def leWord : List Byte → Nat
  | [] => 0
  | b :: rest => b.toNat + 256 * leWord rest

/-- The `n` little-endian bytes of host data (R63). -/
def leBytes : Nat → Word → List Byte
  | 0, _ => []
  | n + 1, v => v.setWidth 8 :: leBytes n (v >>> 8)

/-- A host read (R61 to R64, R66). While BUSY = 1 a BUF read returns 0 and sets BUSYERR (R51). In the reserved space every
width and alignment is legal (log entry 13). -/
def busRead (bits off : Nat) (s : State) : State :=
  if off < Config.regPageEnd then
    if regAccessLegal bits off then
      match regAt off with
      | some r => s.setReply (.data (s.regs.read r))
      | none => s.setReply (.data 0)
    else s.setReply .busError
  else if off < Config.bufWindow then s.setReply (.data 0)
  else if bufAccessLegal bits off then
    if s.regs.busy then s.setBusyErr.setReply (.data 0)
    else s.setReply (.data (BitVec.ofNat 32 (leWord (s.bytesAt (off - Config.bufWindow) (bits / 8)))))
  else s.setReply .busError

/-- A host write (R61 to R64, R66). While BUSY = 1 a BUF write is dropped and sets BUSYERR (R51); so does a write to a
reserved offset (R66; log entry 14). -/
def busWrite (bits off : Nat) (v : Word) (s : State) : State :=
  if off < Config.regPageEnd then
    if regAccessLegal bits off then (writeReg (regAt off) v s).setReply .done else s.setReply .busError
  else if off < Config.bufWindow then
    if s.regs.busy then s.setBusyErr.setReply .done else s.setReply .done
  else if bufAccessLegal bits off then
    if s.regs.busy then s.setBusyErr.setReply .done
    else
      { s with buf := s.buf.writeSpan (off - Config.bufWindow) (leBytes (bits / 8) v) }.setReply .done
  else s.setReply .busError

/-- One host access: one step of the host agent (R20, R65). -/
def busAccess (a : Access) (s : State) : State :=
  match a with
  | .read bits off => busRead bits off.toNat s
  | .write bits off v => busWrite bits off.toNat v s

/-- The block offset of a host address (R60, R61): the block is decoded at BLOCK_BASE, and an address outside its
2 MiB is none of its accesses. -/
def blockOffset (addr : Nat) : Option (BitVec 21) :=
  if Config.blockBase ≤ addr ∧ addr < Config.blockBase + 0x200000 then some (BitVec.ofNat 21 (addr - Config.blockBase))
  else none

end Sys2Proof.Machine
end

