-- ==== Sys2Proof/Machine/Checksum.lean ====
section
/-! DEFINITION. The checksum unit (40_checksum.md): the CRC-16 and the Internet sum as functions of a byte sequence,
the mode dispatch, and the operations CRC16, ISUM and CKSUM. -/

namespace Sys2Proof.Machine

/-! ## CRC-16 -/

/-- One byte of the update of R110. -/
def crcStep (table : CrcTable) (c : Half) (b : Byte) : Half := (c <<< 8) ^^^ crcEntry table (hiByte c ^^^ b)

/-- `crc16(seed, s)` of R110, for any table. -/
def crc16 (table : CrcTable) (seed : Half) (s : List Byte) : Half := s.foldl (crcStep table) seed

/-! ## Internet sum -/

/-- The word view of two bytes in increasing index order (R114). -/
def wordOf (le : Bool) (b0 b1 : Byte) : Nat := if le then (be16 b1 b0).toNat else (be16 b0 b1).toNat

/-- The unfolded sum of R113 over the 16-bit words of `s`; an odd last byte is paired with 0x00 (R115). The
accumulator does not wrap. -/
def wordSum (le : Bool) : List Byte → Nat
  | [] => 0
  | [b] => wordOf le b 0
  | b0 :: b1 :: rest => wordOf le b0 b1 + wordSum le rest

/-- The end-around-carry loop of R113; each turn makes an accumulator above 0xFFFF smaller, so `fuel = acc` turns
are never used up (log entry 18). -/
def foldCarry : Nat → Nat → Nat
  | 0, acc => acc
  | fuel + 1, acc => if acc > 0xFFFF then foldCarry fuel (acc / 0x10000 + acc % 0x10000) else acc

/-- `isum(le, s)` of R113: folded, not complemented (R117). -/
def isum (le : Bool) (s : List Byte) : Half := BitVec.ofNat 16 (foldCarry (wordSum le s) (wordSum le s))

/-! ## Mode dispatch -/

/-- `checksum(m, le, s)` of R118: the function of every frame checksum and of CKSUM, for any table. -/
def checksum (table : CrcTable) (m : ChecksumMode) (le : Bool) (s : List Byte) : Half :=
  match m with
  | .crc => crc16 table Config.crcSeedFrame s
  | .internetSum => isum le s

/-! ## The operations -/

/-- What CRC16, ISUM and CKSUM share: the span check, the computed RESULT, the finish (R119 to R121). -/
def checksumOp (f : Job → List Byte → Half) (s : State) : Result :=
  atStart s fun j =>
    if !spanLegal s.regs.src.toNat s.regs.len.toNat then finishWith .param s
    else memReadThen s.regs.src.toNat s.regs.len.toNat s fun bytes =>
      finishWith .none (s.setResult (f j bytes))

/-- CRC16 (R119): the seed is SEED, the algorithm does not depend on CTRL.MODE (R28). -/
def execCrc16 (_fcmd _retries : Byte) (s : State) : Result :=
  checksumOp (fun _ bytes => crc16 s.env.crcTable s.regs.seed bytes) s

/-- ISUM (R120): the word order is the one sampled at launch, CTRL.MODE is ignored. -/
def execIsum (_fcmd _retries : Byte) (s : State) : Result :=
  checksumOp (fun j bytes => isum j.le bytes) s

/-- CKSUM (R121): the checksum a frame operation would compute, seed 0 in CRC mode (R118). -/
def execCksum (_fcmd _retries : Byte) (s : State) : Result :=
  checksumOp (fun j bytes => checksum s.env.crcTable j.m j.le bytes) s

end Sys2Proof.Machine
end

