-- ==== Sys2Proof/Machine/Codec.lean ====
section
/-! DEFINITION. The codec unit (41_codec.md): stuffing and unstuffing as functions of a byte sequence, and the
operations STUFF and UNSTUFF. -/

namespace Sys2Proof.Machine

/-- The escape encoding of one inner byte (R96). -/
def escape (b : Byte) : List Byte :=
  if b = 0x7E then [0x7D, 0x5E] else if b = 0x7D then [0x7D, 0x5D] else [b]

/-- The part of `stuff` behind the first byte: every byte but the last is escaped (R130, R131). -/
def stuffRest : List Byte → List Byte
  | [] => []
  | [last] => [last]
  | b :: c :: rest => escape b ++ stuffRest (c :: rest)

/-- `stuff(s)` of R130: the first and the last byte are copied whatever they are (R131). -/
def stuff : List Byte → List Byte
  | [] => []
  | b :: rest => b :: stuffRest rest

/-- `unstuff(w)` of R133: a left-to-right scan that the first error ends, with the bytes decoded before it. -/
def unstuff : List Byte → List Byte × ErrCode
  | [] => ([], .none)
  | [b] => if b = 0x7D then ([], .escTruncated) else ([b], .none)
  | b :: c :: rest =>
    if b = 0x7D then
      if c = 0x5E then (0x7E :: (unstuff rest).1, (unstuff rest).2)
      else if c = 0x5D then (0x7D :: (unstuff rest).1, (unstuff rest).2)
      else ([], .escInvalid)
    else (b :: (unstuff (c :: rest)).1, (unstuff (c :: rest)).2)

/-- The end of STUFF and UNSTUFF: OUTLEN holds the output's length, the destination span is checked before any
write, and the output is written (R137, R138). -/
def storeOutput (out : List Byte) (s : State) : Result :=
  let s := s.setOutlen out.length
  if !spanLegal s.regs.dst.toNat out.length then finishWith .param s
  else andThen (memWrite s.regs.dst.toNat out s) (finishWith .none)

/-- STUFF (R137). The whole input is read before any write. -/
def execStuff (_fcmd _retries : Byte) (s : State) : Result :=
  atStart s fun _ =>
    if !spanLegal s.regs.src.toNat s.regs.len.toNat then finishWith .param s
    else memReadThen s.regs.src.toNat s.regs.len.toNat s fun bytes => storeOutput (stuff bytes) s

/-- UNSTUFF (R138). An escape error writes OUTLEN = 0 and nothing else. -/
def execUnstuff (_fcmd _retries : Byte) (s : State) : Result :=
  atStart s fun _ =>
    if !spanLegal s.regs.src.toNat s.regs.len.toNat then finishWith .param s
    else memReadThen s.regs.src.toNat s.regs.len.toNat s fun bytes =>
      if (unstuff bytes).2 ≠ .none then finishWith (unstuff bytes).2 (s.setOutlen 0)
      else storeOutput (unstuff bytes).1 s

end Sys2Proof.Machine
end

