-- ==== Sys2Proof/Machine/Exchange.lean ====
section
/-! DEFINITION. The exchange sequencer (42_exchange.md): the shared helpers `build`, `send`, `receive_one`,
`decode_verify` and `attempts`, cut at their port requests as R153 cuts an engine step, and the operations BUILD,
SEND, RECV, DECODE, RECVX, EXCHANGE and PROBE. A helper that returns an error code in the spec hands the code and
the state to its continuation here. -/

namespace Sys2Proof.Machine

/-! ## Build and send -/

/-- Bytes 0 to 4 of a logical frame (R90): delimiter, reserved 0x00 (R101), command, length high byte first (R91). -/
def frameHead (cmd : Byte) (n : Half) : List Byte := [Config.delimiter, 0x00, cmd, hiByte n, loByte n]

/-- The last three bytes of a logical frame (R90): checksum high byte first (R92), delimiter. -/
def frameTail (c : Half) : List Byte := [hiByte c, loByte c, Config.delimiter]

/-- The logical frame of R90 as a byte sequence; its checksummed region is bytes 1 to 4+n (R93). -/
def logicalFrame (table : CrcTable) (m : ChecksumMode) (le : Bool) (cmd : Byte) (payload : List Byte) : List Byte :=
  let n := BitVec.ofNat 16 payload.length
  frameHead cmd n ++ payload ++ frameTail (checksum table m le ((frameHead cmd n).drop 1 ++ payload))

/-- `build(cmd, n, m, le)` of R155. -/
def build (cmd : Byte) (n : Half) (m : ChecksumMode) (le : Bool) (s : State) : Result :=
  andThen (memWrite Config.txfBase (frameHead cmd n) s) fun s =>
    memReadThen (Config.txfBase + 1) (n.toNat + 4) s fun region =>
      let c := checksum s.env.crcTable m le region
      andThen (memWrite (Config.txfBase + 5 + n.toNat) (frameTail c) s) fun s =>
        .next ((s.setTxfLen (n.toNat + 8)).setResult c)

/-- `send()` of R157 up to its `PortWrite`: the logical frame of TXF stuffed into TXW and handed to the port. -/
def sendFrame (j : Job) (s : State) : Result :=
  memReadThen Config.txfBase s.regs.txfLen.toNat s fun f =>
    andThen (memWrite Config.txwBase (stuff f) s) fun s =>
      portWrite (stuff f) j (s.setTxwLen (stuff f).length)

/-- The error code of a port write's answer (R157, R265). -/
def WriteAnswer.errCode : WriteAnswer → ErrCode
  | .ok => .none
  | .err => .transport

/-! ## Receive with reassembly -/

/-- The beginning of `receive_one` (R160): RXW_LEN cleared, the first chunk requested. -/
def receiveBegin (j : Job) (s : State) : Result := portRead j (s.setRxwLen 0)

/-- `receive_one` behind a `PortRead` (R160): the chunk is appended to RXW and, while the accumulated bytes end in
0x7D, another is requested. An `Err` and an empty chunk are TRANSPORT (R161, R265); a chunk that would pass
REGION_SIZE is not stored (R162). -/
def receiveChunk (a : ReadAnswer) (j : Job) (s : State) (k : ErrCode → State → Result) : Result :=
  match a with
  | .err => k .transport s
  | .ok chunk =>
    if chunk.length = 0 then k .transport s
    else if s.regs.rxwLen.toNat + chunk.length > Config.regionSize then k .rxOverflow s
    else
      andThen (memWrite (Config.rxwBase + s.regs.rxwLen.toNat) chunk s) fun s =>
        let s := s.setRxwLen (s.regs.rxwLen.toNat + chunk.length)
        if s.byteAt (Config.rxwBase + s.regs.rxwLen.toNat - 1) ≠ Config.escapeByte then k .none s
        else portRead j s

/-! ## Decode and verify -/

/-- The checks of `decode_verify` behind the unstuffing, on the frame `f` stored in RXF, in the order of R166. -/
def verify (m : ChecksumMode) (le : Bool) (f : List Byte) (s : State) (k : ErrCode → State → Result) : Result :=
  let n := f.length
  if n = 0 ∨ byteOf f 0 ≠ Config.delimiter ∨ byteOf f (n - 1) ≠ Config.delimiter then k .badDelimiter s
  else if n < 8 then k .shortFrame s
  else
    let c := checksum s.env.crcTable m le (slice f 1 (n - 3))
    let stored := be16 (byteOf f (n - 3)) (byteOf f (n - 2))
    let s := s.setResult c
    if c ≠ stored then k .checksumMismatch s
    else
      k .none (s.setResponse (be16 (byteOf f 3) (byteOf f 4) ++ byteOf f 1 ++ byteOf f 2) stored (n - 8))

/-- `decode_verify(m, le)` of R165: RXW unstuffed into RXF, then verified. An escape error clears RXF_LEN and
writes nothing to RXF. -/
def decodeVerify (m : ChecksumMode) (le : Bool) (s : State) (k : ErrCode → State → Result) : Result :=
  memReadThen Config.rxwBase s.regs.rxwLen.toNat s fun w =>
    if (unstuff w).2 ≠ .none then k (unstuff w).2 (s.setRxfLen 0)
    else
      andThen (memWrite Config.rxfBase (unstuff w).1 s) fun s =>
        verify m le (unstuff w).1 (s.setRxfLen (unstuff w).1.length) k

/-! ## Receive attempts -/

/-- The head of the loop of `attempts` (R170): the next attempt while `eng.k < n`, else the last error (R246). -/
def attemptNext (n : Byte) (j : Job) (s : State) : Result :=
  if j.k < n then receiveBegin { j with k := j.k + 1 } (s.setAttempts (j.k + 1)) else finishWith j.lasterr s

/-- The loop of `attempts` behind an attempt that ended with `e`: success finishes, every error of a receive attempt
is kept as the last one and retried (R170, R176, R245). -/
def attemptResult (n : Byte) (j : Job) (e : ErrCode) (s : State) : Result :=
  if e = .none then finishWith .none s else attemptNext n { j with lasterr := e } s

/-- The loop of `attempts` behind `receive_one` (R170): a whole receive is decoded and verified. -/
def attemptReceived (n : Byte) (j : Job) (e : ErrCode) (s : State) : Result :=
  if e = .none then decodeVerify j.m j.le s (attemptResult n j) else attemptResult n j e s

/-- `attempts(n, m, le)` of R170 from its beginning. -/
def attemptsBegin (n : Byte) (j : Job) (s : State) : Result := attemptNext n { j with k := 0 } s

/-- `attempts` behind a `PortRead`. -/
def attemptsResume (n : Byte) (a : ReadAnswer) (j : Job) (s : State) : Result :=
  receiveChunk a j s (attemptReceived n j)

/-! ## The operations -/

/-- BUILD (R156). -/
def execBuild (fcmd _retries : Byte) (s : State) : Result :=
  atStart s fun j => andThen (build fcmd s.regs.plen j.m j.le s) (finishWith .none)

/-- SEND (R158): PARAM when no frame was ever built since reset. The send is made once (R176). -/
def execSend (_fcmd _retries : Byte) (s : State) : Result :=
  match s.eng with
  | .run j .start => if s.regs.txfLen = 0 then finishWith .param s else sendFrame j s
  | .run _ (.wrote a) => finishWith a.errCode s
  | .run _ (.got _) => .fault .noSuchPoint
  | _ => .fault .notRunning

/-- RECV (R163): one receive with reassembly, ATTEMPTS = 1, nothing decoded. -/
def execRecv (_fcmd _retries : Byte) (s : State) : Result :=
  match s.eng with
  | .run j .start => receiveBegin j (s.setAttempts 1)
  | .run _ (.wrote _) => .fault .noSuchPoint
  | .run j (.got a) => receiveChunk a j s finishWith
  | _ => .fault .notRunning

/-- DECODE (R168). -/
def execDecode (_fcmd _retries : Byte) (s : State) : Result :=
  atStart s fun j => decodeVerify j.m j.le s finishWith

/-- RECVX (R171): receive attempts without a send; PARAM when RETRIES is 0. -/
def execRecvx (_fcmd retries : Byte) (s : State) : Result :=
  match s.eng with
  | .run j .start => if retries = 0 then finishWith .param s else attemptsBegin retries j s
  | .run _ (.wrote _) => .fault .noSuchPoint
  | .run j (.got a) => attemptsResume retries a j s
  | _ => .fault .notRunning

/-- EXCHANGE (R172): build, send once, then receive attempts. -/
def execExchange (fcmd retries : Byte) (s : State) : Result :=
  match s.eng with
  | .run j .start =>
    if retries = 0 then finishWith .param s
    else andThen (build fcmd s.regs.plen j.m j.le s) (sendFrame j)
  | .run j (.wrote a) => if a.errCode ≠ .none then finishWith a.errCode s else attemptsBegin retries j s
  | .run j (.got a) => attemptsResume retries a j s
  | _ => .fault .notRunning

/-- PROBE (R174): the single unstuffed byte 0x7E (R102), then receive attempts. TXF and TXF_LEN stay. -/
def execProbe (_fcmd retries : Byte) (s : State) : Result :=
  match s.eng with
  | .run j .start =>
    if retries = 0 then finishWith .param s
    else
      andThen (memWrite Config.txwBase [Config.delimiter] s) fun s =>
        portWrite [Config.delimiter] j (s.setTxwLen 1)
  | .run j (.wrote a) => if a.errCode ≠ .none then finishWith .transport s else attemptsBegin retries j s
  | .run j (.got a) => attemptsResume retries a j s
  | _ => .fault .notRunning

end Sys2Proof.Machine
end

