-- ==== Sys2Proof/Machine/Dispatch.lean ====
section
/-! DEFINITION. One arm per operation: the engine's step of a running operation (R153). -/

namespace Sys2Proof.Machine

def exec (i : Instr) (s : State) : Host.Outcome State Fault Refusal :=
  match i with
  | .crc16 fcmd retries => Sys2Proof.Machine.execCrc16 fcmd retries s
  | .isum fcmd retries => Sys2Proof.Machine.execIsum fcmd retries s
  | .cksum fcmd retries => Sys2Proof.Machine.execCksum fcmd retries s
  | .stuff fcmd retries => Sys2Proof.Machine.execStuff fcmd retries s
  | .unstuff fcmd retries => Sys2Proof.Machine.execUnstuff fcmd retries s
  | .build fcmd retries => Sys2Proof.Machine.execBuild fcmd retries s
  | .send fcmd retries => Sys2Proof.Machine.execSend fcmd retries s
  | .recv fcmd retries => Sys2Proof.Machine.execRecv fcmd retries s
  | .decode fcmd retries => Sys2Proof.Machine.execDecode fcmd retries s
  | .recvx fcmd retries => Sys2Proof.Machine.execRecvx fcmd retries s
  | .exchange fcmd retries => Sys2Proof.Machine.execExchange fcmd retries s
  | .probe fcmd retries => Sys2Proof.Machine.execProbe fcmd retries s

end Sys2Proof.Machine
end

