-- ==== Sys2Proof/Machine/Port.lean ====
section
/-! DEFINITION. The Transport Port as the block sees it (R262 to R266), and the reset input (R280), which discards an
outstanding request. The port answers the outstanding request from the oracle sequence that the state holds while there
is one, and else by a free draw (R264, U10). -/

namespace Sys2Proof.Machine

/-- The answer of a free draw to a write request. -/
def drawnWrite (draws : Nat) : WriteAnswer := if Config.portWriteOk draws then .ok else .err

/-- The answer of a free draw to a read request of at most `n` bytes (R263). -/
def drawnRead (draws n : Nat) : ReadAnswer :=
  match Config.portReadChunk draws with
  | none => .err
  | some chunk => .ok (chunk.take n)

/-- The port answers a write request: the next answer of the oracle sequence, or a draw. -/
def answerWrite (e : Env) : WriteAnswer × Env :=
  match e.portWrites with
  | a :: rest => (a, { e with portWrites := rest })
  | [] => (drawnWrite e.draws, { e with draws := e.draws + 1 })

/-- The port answers a read request of at most `n` bytes: the next answer of the oracle sequence, or a draw. Bytes
beyond the `n` that a read may return (R263) stay in the port and come first at the next read (R295). -/
def answerRead (n : Nat) (e : Env) : ReadAnswer × Env :=
  match e.portReads with
  | .err :: rest => (.err, { e with portReads := rest })
  | .ok chunk :: rest =>
    if chunk.length ≤ n then (.ok chunk, { e with portReads := rest })
    else (.ok (chunk.take n), { e with portReads := .ok (chunk.drop n) :: rest })
  | [] => (drawnRead e.draws n, { e with draws := e.draws + 1 })

/-- The port's step (R153, R54): the answer is bound to the waiting primitive and the engine is in phase Run. With no
request outstanding a late answer is dropped (R266). -/
def portStep (s : State) : State :=
  match s.eng with
  | .waitWrite _ j => { s with eng := .run j (.wrote (answerWrite s.env).1), env := (answerWrite s.env).2 }
  | .waitRead n j => { s with eng := .run j (.got (answerRead n s.env).1), env := (answerRead n s.env).2 }
  | .idle => s
  | .run _ _ => s

/-! ## Reset -/

/-- The outside world behind the reset of a block in the given phase: the answer to an outstanding request is dropped and
the bytes of a discarded read are lost (R266), so the next request gets the answer behind it. -/
def discardRequest (eng : Engine) (e : Env) : Env :=
  match eng with
  | .waitWrite _ _ => (answerWrite e).2
  | .waitRead n _ => (answerRead n e).2
  | .idle => e
  | .run _ _ => e

/-- The reset input (R280 to R283, R266): every piece of the block's state at its reset value, in one step, an
outstanding request and its answer discarded, and every byte of BUF unspecified anew. What else lies outside the block
goes on: the scheduled moves, the port's further answers, the number of draws; the parameters stay (log entry 12). -/
def resetStep (s : State) : State :=
  { State.reset with
    env := { discardRequest s.eng s.env with reply := .noAccess, epoch := s.env.epoch + 1 } }

end Sys2Proof.Machine
end

