-- ==== Sys2Proof/Machine/Step.lean ====
section
/-! DEFINITION. One step of the whole machine: one move of one agent (R20, R68, R292). -/

namespace Sys2Proof.Machine

/-- The engine's step (R153): in phase Run it decodes the latched command word (R72) and executes the operation's
body up to its next port request or its finish; an illegal opcode finishes (R83). In every other phase the engine
takes no step. How `exec` relates to the engine's steps: log entry 7. -/
def engineStep (s : State) : Host.Outcome State Fault Refusal :=
  match s.eng with
  | .run j _ =>
    match decode (latchedWord j s) with
    | .ok i => exec i s
    | .error _ => finishIllegal s
  | .idle => .next s
  | .waitWrite _ _ => .next s
  | .waitRead _ _ => .next s

/-- The scheduled move of one agent. -/
def perform (e : Event) (s : State) : Host.Outcome State Fault Refusal :=
  match e with
  | .reset => .next (resetStep s)
  | .host a => .next (busAccess a s)
  | .engine => engineStep s
  | .port => .next (portStep s)

/-- What happens when the outside world has scheduled nothing: a running operation goes on, the port answers an
outstanding request (R264: it must answer), and an idle block stays as it is (log entry 2). -/
def runOn (s : State) : Host.Outcome State Fault Refusal :=
  match s.eng with
  | .run _ _ => engineStep s
  | .waitWrite _ _ => .next (portStep s)
  | .waitRead _ _ => .next (portStep s)
  | .idle => .next s

/-- One step: the next scheduled move, or the block running on. -/
def step (s : State) : Host.Outcome State Fault Refusal :=
  match s.env.agenda with
  | [] => runOn s
  | e :: rest => perform e (s.setAgenda rest)

/-- The state in which the engine's next step runs the operation of the given command word: as a host's CMD write
leaves it (R150), with no other move scheduled before it (log entry 6). -/
def State.withFetchWord (s : State) (nbits w : Nat) : State :=
  (launch (BitVec.ofNat 32 (w % 2 ^ nbits)) s).setAgenda []

end Sys2Proof.Machine
end

