-- ==== Sys2Proof/Machine/HostProgram.lean ====
section
/-! DEFINITION. The host software that drives the block (45_host_sequences.md): the pseudo-operations as bus accesses
(R103, R223), the bootstrap (R204 to R213), the partition transfers (R214 to R222), the host's errors (R220, R243),
and the host as an agent whose steps alternate with the block's. The block holds none of this state (R7): it stands
beside `State`, in `HostState`. A host sequence is a list of small steps, because the source fixes every access but
the ones a response's length decides; a failed check ends it. -/

namespace Sys2Proof.Machine

/-! ## Parameters -/

/-- The frame command codes that the source names without a value (R200, U17; log entry 25). -/
structure HostCodes where
  execData : Byte
  startData : Byte
  midstData : Byte
  endData : Byte
  readFlashStart : Byte
  readFlashMidst : Byte
  readFlashEnd : Byte
  ack : Byte
  readFlashData : Byte
  downSizeError : Byte
  incompatiblePartition : Byte
deriving DecidableEq, Repr

/-- CONNECT, the one code with a value in the source (R99, R200). -/
def codeConnect : Byte := 0x00

/-- The request codes (R200). -/
def HostCodes.requests (c : HostCodes) : List Byte :=
  [codeConnect, c.execData, c.startData, c.midstData, c.endData, c.readFlashStart, c.readFlashMidst, c.readFlashEnd]

/-- The response codes (R200). -/
def HostCodes.responses (c : HostCodes) : List Byte :=
  [c.ack, c.readFlashData, c.downSizeError, c.incompatiblePartition]

/-- "The codes must be pairwise distinct within each direction" (R200). -/
def HostCodes.distinct (c : HostCodes) : Bool := decide c.requests.Nodup && decide c.responses.Nodup

/-- The phase-specific policy constants (R202, R208). -/
structure HostPolicy where
  /-- Receive attempts of both version probes. -/
  probeRetries : Byte
  /-- Receive attempts of partition-transfer start and acknowledgement waits. -/
  transferRetries : Byte
  /-- Receive attempts of the stage-2 EXEC_DATA acknowledgement. -/
  execRetries : Byte
  /-- HOST_RETRIES_DEFAULT, every other exchange. -/
  defaultRetries : Byte
  /-- The window of the stage-1 loader download. -/
  window1 : Nat
  /-- The window of the stage-2 loader download. -/
  window2 : Nat
deriving DecidableEq, Repr

/-- The values of R202 and R208; the default of HOST_RETRIES_DEFAULT is the spec's decision. -/
def sourcePolicy : HostPolicy :=
  { probeRetries := 2, transferRetries := 5, execRetries := 15, defaultRetries := 5, window1 := 528, window2 := 2112 }

/-- The arguments of the host's programs. -/
structure HostParams where
  codes : HostCodes
  policy : HostPolicy
  /-- HOST_ISUM_LE (R212). -/
  isumLe : Bool
  /-- HOST_U32_ORDER (R77, R215): whether the high byte of a u32 payload field comes first. -/
  u32High : Bool
  /-- Whether the host uses the interrupt (R223 `IEbit`). -/
  irq : Bool
  /-- LOADER1_ADDR and LOADER2_ADDR (R208). DESIGN CHOICE (log entry 10): R208 gives them no width; the model takes any
  natural number. -/
  loader1Addr : Nat
  loader2Addr : Nat
  /-- BLOCK_BYTES and BLOCK_COUNT (R222). -/
  blockBytes : Nat
  blockCount : Nat
deriving DecidableEq, Repr

/-! ## Errors and states -/

/-- The host's errors (R203, R220). -/
inductive HostError where
  /-- The operation finished with an error code (R203). -/
  | block (e : ErrCode)
  | unexpectedResponse (expected actual : Byte)
  | sizeMismatch
  | ioError
  | paramError
deriving DecidableEq, Repr

/-- The source's error kinds that the block's codes report as (R243). -/
inductive ReportKind where
  | transportError
  | frameBadDelimiter
  | frameChecksumMismatch
  | paramError
deriving DecidableEq, Repr

/-- The mapping of R243; NONE reports nothing. -/
def ErrCode.report : ErrCode → Option ReportKind
  | .none => Option.none
  | .transport => some .transportError
  | .rxOverflow => some .transportError
  | .badDelimiter => some .frameBadDelimiter
  | .shortFrame => some .frameBadDelimiter
  | .escInvalid => some .frameBadDelimiter
  | .escTruncated => some .frameBadDelimiter
  | .checksumMismatch => some .frameChecksumMismatch
  | .param => some .paramError
  | .illegalOp => some .paramError

/-- The bootstrap states (R206). -/
inductive BootState where
  | probing
  | connected
  | stage1Loaded
  | stage1Exec
  | stage2Probing
  | stage2Connected
  | stage2Loaded
  | stage2Exec
  | ready
  | aborted (reason : HostError)
deriving DecidableEq, Repr

/-- The transfer states (R219). -/
inductive XferState where
  | start
  | transferring
  | end_
  | done
  | failed (reason : HostError)
deriving DecidableEq, Repr

/-- The active Transfer Window (R201). -/
structure TransferWindow where
  offset : Nat
  remaining : Nat
  windowSize : Nat
deriving DecidableEq, Repr

/-! ## Bus accesses -/

/-- The offset of a register (R25). -/
def Reg.offset (r : Reg) : Nat := ((regTable.find? fun p => p.2 == r).map (·.1)).getD 0

/-- `wr REG, v` (R103). -/
def wrAccess (r : Reg) (v : Word) : Access := .write 32 (BitVec.ofNat 21 r.offset) v

/-- `rd REG` (R103). -/
def rdAccess (r : Reg) : Access := .read 32 (BitVec.ofNat 21 r.offset)

/-- One byte write of `wrb` (R103). -/
def wrbAccess (off : Nat) (b : Byte) : Access := .write 8 (BitVec.ofNat 21 (Config.bufWindow + off)) (b.setWidth 32)

/-- One byte read of `rdb` (R103). -/
def rdbAccess (off : Nat) : Access := .read 8 (BitVec.ofNat 21 (Config.bufWindow + off))

/-- The data of a read, 0 where the access gave none. -/
def Reply.value : Reply → Word
  | .data v => v
  | .noAccess => 0
  | .done => 0
  | .busError => 0

/-- One small step of a host sequence. -/
inductive HostOp where
  /-- A bus access whose answer is not used. -/
  | access (a : Access)
  /-- `wait` (R103): read STATUS until BUSY reads 0. -/
  | wait
  /-- `wait` as waiting for the interrupt (R223): until the interrupt output is 1, without a bus access. -/
  | waitIrq
  /-- Read STATUS; an ERRCODE other than 0 fails (R203, R223). -/
  | checkStatus
  /-- Read RESP and compare RESP.CMD with the accepted codes (R203), the expected one first and the tolerated ones behind
  it; the code of `refusal` is SizeMismatch (R218). -/
  | checkResp (accept : List Byte) (refusal : Option Byte)
  /-- Read RESP_PLEN (R223). -/
  | readPlen
  /-- Read the response payload from its byte `i` on and write it to the sink (R215). -/
  | sink (i : Nat)
  /-- Open or read the local file of the transfer (R217, R220). -/
  | file
  /-- A chunk of the transfer is done (R215, R217): move the window; `total` is the size for the progress
  notification, which only the upload makes. -/
  | advance (chunk : Nat) (total : Option Nat)
  /-- Open the transfer window (R201). -/
  | openWindow (size window : Nat)
  /-- The action fails without an exchange (R217, R220). -/
  | raise (e : HostError)
  /-- A bootstrap state is reached (R207). -/
  | boot (b : BootState)
  /-- A transfer state is reached (R219). -/
  | xfer (x : XferState)
deriving DecidableEq, Repr

/-- `wr REG, v` as a step. -/
def wr (r : Reg) (v : Word) : HostOp := .access (wrAccess r v)

/-- `clr` (R103): clear DONE and BUSYERR. -/
def clr : HostOp := wr .status 0x00000012

/-- `wrb off: bytes` (R103). -/
def wrb (off : Nat) : List Byte → List HostOp
  | [] => []
  | b :: bs => .access (wrbAccess off b) :: wrb (off + 1) bs

/-- `cmd OP fcmd=… retries=…` (R103). -/
def cmdOpStep (op fcmd retries : Byte) : HostOp := wr .cmd (commandWord op fcmd retries)

/-! ## Pseudo-operations (R223) -/

/-- `set_mode` (R212, R223). -/
def setMode (P : HostParams) (m : ChecksumMode) : List HostOp :=
  match m with
  | .crc => [wr .ctrl (0#29 ++ bit P.irq ++ 0#1 ++ 0#1)]
  | .internetSum => [wr .ctrl (0#29 ++ bit P.irq ++ bit P.isumLe ++ 1#1)]

/-- `wait` of the pseudo-operations: for the interrupt when the host uses it, else by polling (R223 `IEbit`). -/
def waitOp (P : HostParams) : HostOp := if P.irq then .waitIrq else .wait

/-- `probe(n)` (R204, R223). -/
def probeOps (P : HostParams) (n : Byte) : List HostOp := [clr, cmdOpStep 0x0C 0x00 n, waitOp P, .checkStatus]

/-- `xchg(code, P, n, accept)` (R223). -/
def xchg (P : HostParams) (code : Byte) (payload : List Byte) (n : Byte) (accept : List Byte)
    (refusal : Option Byte := none) : List HostOp :=
  wrb 0x00005 payload ++
    [wr .plen (BitVec.ofNat 32 payload.length), clr, cmdOpStep 0x0B code n, waitOp P, .checkStatus,
     .checkResp accept refusal, .readPlen]

/-- Connect (R205). -/
def connect (P : HostParams) : List HostOp := xchg P codeConnect [] P.policy.defaultRetries [P.codes.ack]

/-! ## Payloads -/

/-- The 4-byte encoding of a u32 payload field in HOST_U32_ORDER (R215). DESIGN CHOICE (log entry 28): a chunk, an offset
or a source size of 2^32 or more, of which the spec says nothing, is cut to its low 32 bits. -/
def u32Bytes (P : HostParams) (v : Nat) : List Byte :=
  let le := leBytes 4 (BitVec.ofNat 32 v)
  if P.u32High then le.reverse else le

/-- UTF-16 code units, each low byte first (R214). -/
def utf16le : List Half → List Byte
  | [] => []
  | u :: us => loByte u :: hiByte u :: utf16le us

/-- The 84-byte start payload (R214): the name zero-padded to byte 71, the size field, eight zero bytes. A name of more
than 36 code units is ParamError. -/
def startPayload (name : List Half) (sizeField : List Byte) : Except HostError (List Byte) :=
  if name.length ≤ 36 then
    .ok (utf16le name ++ List.replicate (72 - 2 * name.length) 0 ++ sizeField ++ List.replicate 8 0)
  else .error .paramError

/-- The size field of the upload start: read everything available (R214). -/
def readAllField : List Byte := [0xFF, 0xFF, 0xFF, 0xFF]

/-! ## Transfers -/

/-- The chunk sizes of the loops of R215 and R217: `min(remaining, W)` until nothing remains. `fuel` bounds the turns;
with a window of at least 1, `fuel = remaining` turns are enough. -/
def chunkLoop (w : Nat) : Nat → Nat → List Nat
  | 0, _ => []
  | fuel + 1, remaining =>
    if remaining = 0 then [] else min remaining w :: chunkLoop w fuel (remaining - min remaining w)

/-- The chunks of a transfer of `size` bytes with window `w` (R225). -/
def chunkSizes (size w : Nat) : List Nat := chunkLoop w size size

/-- The offset at which each chunk begins (R215, R217). -/
def chunkOffsets (from_ : Nat) : List Nat → List Nat
  | [] => []
  | c :: cs => from_ :: chunkOffsets (from_ + c) cs

/-- The upload's middle exchanges (R215), from an offset on; `request` is what becomes of a request payload on its way
(nothing, in an upload of its own). -/
def uploadMiddle (P : HostParams) (request : List Byte → List Byte) (size : Nat) (offset : Nat) : List Nat → List HostOp
  | [] => []
  | c :: cs =>
    xchg P P.codes.readFlashMidst (request (u32Bytes P c ++ u32Bytes P offset)) P.policy.defaultRetries
        [P.codes.readFlashData] ++
      [.sink 0, .advance c (some size)] ++ uploadMiddle P request size (offset + c) cs

/-- The upload of R214 to R216: the sink file opened, the start exchange, the middle exchanges, the end exchange. The loop
is defined for every window of at least 1 (R225); a window of 0 is ParamError (log entry 22). DESIGN CHOICE (log entry
32): the sink is opened in state Start, so that a failure to open it leaves the transfer in Failed(IoError) (R219). DESIGN
CHOICE (log entry 31): ParamError is found before the sink is opened. -/
def uploadWith (P : HostParams) (request : List Byte → List Byte) (name : List Half) (size w : Nat) :
    Except HostError (List HostOp) :=
  match startPayload name readAllField with
  | .error e => .error e
  | .ok payload =>
    if 1 ≤ w then
      .ok ([.xfer .start, .file] ++
        xchg P P.codes.readFlashStart (request payload) P.policy.transferRetries [P.codes.ack, P.codes.downSizeError] ++
        [.xfer .transferring, .openWindow size w] ++ uploadMiddle P request size 0 (chunkSizes size w) ++
        [.xfer .end_] ++ xchg P P.codes.readFlashEnd [] P.policy.defaultRetries [P.codes.ack] ++ [.xfer .done])
    else .error .paramError

/-- Upload of `size` bytes of a partition (R214 to R216). -/
def upload (P : HostParams) (name : List Half) (size w : Nat) : Except HostError (List HostOp) :=
  uploadWith P id name size w

/-- A window that one download payload can hold (R217: `W ≤ 65535`) and that moves the transfer on (R225: `W ≥ 1`; log
entry 22). -/
def windowLegal (w : Nat) : Bool := decide (1 ≤ w) && decide (w ≤ 65535)

/-- The download's middle exchanges (R217): the chunk read from the source (R220), its raw bytes sent, an ACK before the
next. -/
def downloadMiddle (P : HostParams) (n : Byte) (data : List Byte) : List Nat → List HostOp
  | [] => []
  | c :: cs =>
    [.file] ++ xchg P P.codes.midstData (data.take c) n [P.codes.ack] ++ [.advance c none] ++
      downloadMiddle P n (data.drop c) cs

/-- The download loop (R217) for a start payload; DOWN_SIZE_ERROR at the start is SizeMismatch (R218). -/
def download (P : HostParams) (n : Byte) (start data : List Byte) (w : Nat) : List HostOp :=
  [.xfer .start] ++ xchg P P.codes.startData start n [P.codes.ack] (some P.codes.downSizeError) ++
    [.xfer .transferring, .openWindow data.length w] ++ downloadMiddle P n data (chunkSizes data.length w) ++
    [.xfer .end_] ++ xchg P P.codes.endData [] P.policy.defaultRetries [P.codes.ack] ++ [.xfer .done]

/-- A download of a local file (R217), whose START_DATA payload `start` makes from the file's bytes: the source is read
before the first exchange, `none` being a source that cannot be read (log entry 24). DESIGN CHOICE (log entry 31): where
several errors hold, the unreadable source (IoError) goes before the name and the window (ParamError). -/
def downloadFrom (P : HostParams) (n : Byte) (start : List Byte → Except HostError (List Byte))
    (source : Option (List Byte)) (w : Nat) : Except HostError (List HostOp) :=
  match source with
  | none => .error .ioError
  | some data =>
    match start data with
    | .error e => .error e
    | .ok payload => if windowLegal w then .ok (download P n payload data w) else .error .paramError

/-- Download to a partition (R217): the size field of the start payload holds the source's size. -/
def downloadPartition (P : HostParams) (name : List Half) (source : Option (List Byte)) (w : Nat) :
    Except HostError (List HostOp) :=
  downloadFrom P P.policy.transferRetries (fun data => startPayload name (u32Bytes P data.length)) source w

/-- Download of a loader image (R208, R202: loader download frames use HOST_RETRIES_DEFAULT; log entry 21); the image is a
source like any other, readable before the first exchange (R217). -/
def downloadImage (P : HostParams) (addr : Nat) (image : Option (List Byte)) (w : Nat) :
    Except HostError (List HostOp) :=
  downloadFrom P P.policy.defaultRetries (fun data => .ok (Config.loaderStartPayload addr data.length)) image w

/-- A transfer as the host runs it. One that is turned away before its first exchange makes none; DESIGN CHOICE (log entry
32): it goes from Start to Failed (R219). -/
def transferOps : Except HostError (List HostOp) → List HostOp
  | .ok script => script
  | .error e => [.xfer .start, .raise e]

/-! ## The block-device contract (R222) -/

/-- An open logical device: its fixed partition identity, its window, and its constants BLOCK_BYTES and BLOCK_COUNT. -/
structure BlockDevice where
  name : List Half
  window : Nat
  blockBytes : Nat
  blockCount : Nat
deriving DecidableEq, Repr

/-- The operations of the contract on an open device. -/
inductive BlockOp where
  | readBlock (start count : Nat)
  | writeBlock (start : Nat) (data : List Byte)
  | close
deriving DecidableEq, Repr

/-- `open()`: the device with its constants. The source describes no exchange and no failure of it (log entry 26). -/
def blockOpen (P : HostParams) (name : List Half) (w : Nat) : Except HostError BlockDevice :=
  .ok { name := name, window := w, blockBytes := P.blockBytes, blockCount := P.blockCount }

/-- `read_block(start_block, count)`: an upload of `count · BLOCK_BYTES` bytes of the device's partition, whose request
payloads carry `start_block` in an open way (log entry 26). DESIGN CHOICE (log entry 33): the bytes it returns are the
upload's sink, whose opening and writing can fail with IoError; R222 names no local file here. -/
def blockRead (P : HostParams) (d : BlockDevice) (start count : Nat) : Except HostError (List HostOp) :=
  uploadWith P (Config.blockRequest start) d.name (count * d.blockBytes) d.window

/-- What an operation on an open device maps to: `write_block` is unsupported, and `close` makes no exchange (log
entry 26). -/
def blockOps (P : HostParams) (d : BlockDevice) : BlockOp → Option (Except HostError (List HostOp))
  | .readBlock start count => some (blockRead P d start count)
  | .writeBlock _ _ => none
  | .close => some (.ok [])

/-! ## Bootstrap -/

/-- The rows of R207: the state reached and the action that reaches it; an image is `none` where it cannot be read. -/
def bootRows (P : HostParams) (image1 image2 : Option (List Byte)) : List (BootState × List HostOp) :=
  [(.probing, setMode P .crc),
   (.connected, probeOps P P.policy.probeRetries ++ connect P),
   (.stage1Loaded, transferOps (downloadImage P P.loader1Addr image1 P.policy.window1)),
   (.stage1Exec, xchg P P.codes.execData [] P.policy.defaultRetries [P.codes.ack]),
   (.stage2Probing, setMode P .internetSum),
   (.stage2Connected, probeOps P P.policy.probeRetries ++ connect P),
   (.stage2Loaded, transferOps (downloadImage P P.loader2Addr image2 P.policy.window2)),
   (.stage2Exec, xchg P P.codes.execData [] P.policy.execRetries [P.codes.ack, P.codes.incompatiblePartition]),
   (.ready, [])]

/-- The bootstrap (R206, R207): each state is reached when its action has succeeded. -/
def bootstrap (P : HostParams) (image1 image2 : Option (List Byte)) : List HostOp :=
  (bootRows P image1 image2).flatMap fun row => row.2 ++ [.boot row.1]

/-- The CLI operations (R224). -/
inductive CliOp where
  | ready (image1 image2 : Option (List Byte))
  | read (name : List Half) (size window : Nat)
  | write (name : List Half) (source : Option (List Byte)) (window : Nat)
  | reset
  | shutdown
  | camera
deriving DecidableEq, Repr

/-- What a CLI operation maps to; the frames of `reset`, `shutdown` and `camera` are outside the spec (R224, U21; log
entry 26). -/
def cliOps (P : HostParams) : CliOp → Option (Except HostError (List HostOp))
  | .ready image1 image2 => some (.ok (bootstrap P image1 image2))
  | .read name size w => some (upload P name size w)
  | .write name source w => some (downloadPartition P name source w)
  | .reset => none
  | .shutdown => none
  | .camera => none

/-! ## The host as an agent -/

/-- The host's own state (R201, R206, R219). -/
structure HostState where
  script : List HostOp
  boot : Option BootState
  xfer : Option XferState
  window : Option TransferWindow
  /-- The last RESP_PLEN read. -/
  plen : Nat
  /-- The response payload read so far (R215), and the bytes the sink file has taken. -/
  chunk : List Byte
  sink : List Byte
  /-- Whether the coming operations on local files succeed (R220; log entry 24); behind the list's end they do. -/
  files : List Bool
  /-- The tolerated response codes met, which the host logs (R203, R214; log entry 30). -/
  logged : List Byte
  /-- The integer percentage notified last, and every notification made (R215). -/
  pct : Nat
  notes : List Nat
  failed : Option HostError
deriving DecidableEq, Repr

/-- A host that is about to run a sequence. -/
def HostState.begin (script : List HostOp) : HostState :=
  { script := script, boot := none, xfer := none, window := none, plen := 0, chunk := [], sink := [], files := [],
    logged := [], pct := 0, notes := [], failed := none }

/-- The bootstrap state after a failed action (R213); `Ready` and `Aborted` are final (R206). -/
def BootState.fail (e : HostError) : BootState → BootState
  | .ready => .ready
  | .aborted reason => .aborted reason
  | _ => .aborted e

/-- The transfer state after a failed action; `Done` and `Failed` are final (R219). -/
def XferState.fail (e : HostError) : XferState → XferState
  | .done => .done
  | .failed reason => .failed reason
  | _ => .failed e

/-- A failed action (R203, R213, R220): the host sends nothing more, and the bootstrap and the transfer in progress
end in their failure states. DESIGN CHOICE (log entry 29): the active Transfer Window, which R201 destroys when nothing
remains, is destroyed here too. -/
def HostState.fail (h : HostState) (e : HostError) : HostState :=
  { h with
    script := []
    boot := h.boot.map (BootState.fail e)
    xfer := h.xfer.map (XferState.fail e)
    window := none
    failed := some e }

/-- The next step of the host's sequence. -/
def HostState.pop (h : HostState) (rest : List HostOp) : HostState := { h with script := rest }

/-- The window after a chunk, destroyed when nothing remains (R201). -/
def TransferWindow.advance (w : TransferWindow) (chunk : Nat) : Option TransferWindow :=
  if w.remaining - chunk = 0 then none
  else some { w with offset := w.offset + chunk, remaining := w.remaining - chunk }

/-- A chunk is done: the window moves, and an upload notifies a changed percentage (R215; log entry 23). -/
def HostState.advance (h : HostState) (chunk : Nat) (total : Option Nat) : HostState :=
  match h.window with
  | none => h
  | some w =>
    let h := { h with window := w.advance chunk }
    match total with
    | none => h
    | some size =>
      let pct := 100 * (w.offset + chunk) / size
      if pct ≠ h.pct then { h with pct := pct, notes := h.notes ++ [pct] } else h

/-- An operation on a local file (R220): IoError when it fails, else the host goes on as `done` says. -/
def HostState.fileOp (h : HostState) (done : HostState → HostState) : HostState :=
  match h.files with
  | [] => done h
  | true :: files => done { h with files := files }
  | false :: files => { h with files := files }.fail .ioError

/-- An accepted response code (R203): any other code than the expected one is tolerated, and logged. -/
def HostState.accepted (h : HostState) (accept : List Byte) (code : Byte) : HostState :=
  if accept.headD 0 = code then h else { h with logged := h.logged ++ [code] }

/-- STATUS.ERRCODE of a STATUS value read (R33). -/
def statusErrcode (v : Word) : BitVec 4 := v.extractLsb' 8 4

/-- The error with a given code; the reserved codes are never read (R242). -/
def ErrCode.ofCode (c : BitVec 4) : ErrCode :=
  match c with
  | 0x1 => .transport
  | 0x2 => .badDelimiter
  | 0x3 => .checksumMismatch
  | 0x4 => .shortFrame
  | 0x5 => .escInvalid
  | 0x6 => .escTruncated
  | 0x7 => .rxOverflow
  | 0x8 => .illegalOp
  | 0x9 => .param
  | _ => .none

/-- One step of the host (R20: at most one bus access) on its own state and the block. -/
def hostStep (h : HostState) (s : State) : HostState × State :=
  match h.script with
  | [] => (h, s)
  | .access a :: rest => (h.pop rest, busAccess a s)
  | .wait :: rest =>
    let s := busAccess (rdAccess .status) s
    (if s.env.reply.value.getLsbD 0 then h else h.pop rest, s)
  | .waitIrq :: rest => (if s.irq then h.pop rest else h, s)
  | .checkStatus :: rest =>
    let s := busAccess (rdAccess .status) s
    let code := statusErrcode s.env.reply.value
    (if code ≠ 0 then h.fail (.block (ErrCode.ofCode code)) else h.pop rest, s)
  | .checkResp accept refusal :: rest =>
    let s := busAccess (rdAccess .resp) s
    let code := respCmd s.env.reply.value
    (if accept.contains code then (h.pop rest).accepted accept code
      else if refusal = some code then h.fail .sizeMismatch
      else h.fail (.unexpectedResponse (accept.headD 0) code), s)
  | .readPlen :: rest =>
    let s := busAccess (rdAccess .respPlen) s
    ({ h with script := rest, plen := s.env.reply.value.toNat }, s)
  | .sink i :: rest =>
    if i < h.plen then
      let s := busAccess (rdbAccess (Config.rxfBase + 5 + i)) s
      ({ h with script := .sink (i + 1) :: rest, chunk := h.chunk ++ [s.env.reply.value.setWidth 8] }, s)
    else ((h.pop rest).fileOp fun h => { h with sink := h.sink ++ h.chunk, chunk := [] }, s)
  | .file :: rest => ((h.pop rest).fileOp id, s)
  | .advance chunk total :: rest => ((h.pop rest).advance chunk total, s)
  | .openWindow size w :: rest =>
    ({ h with script := rest, window := if size = 0 then none else some ⟨0, size, w⟩, pct := 0 }, s)
  | .raise e :: _ => (h.fail e, s)
  | .boot b :: rest => ({ h with script := rest, boot := some b }, s)
  | .xfer x :: rest => ({ h with script := rest, xfer := some x }, s)

/-- The host, the block and the port together (R20). -/
structure System where
  block : State
  host : HostState
  /-- Whose turn it is; the interleaving is free (R292), this one alternates (log entry 20). -/
  hostTurn : Bool
deriving DecidableEq, Repr

/-- One step of the system: the host and the block (with its port) in turn. -/
def systemStep (y : System) : Host.Outcome System Fault Refusal :=
  if y.hostTurn then
    .next { block := (hostStep y.host y.block).2, host := (hostStep y.host y.block).1, hostTurn := false }
  else
    match step y.block with
    | .next s => .next { y with block := s, hostTurn := true }
    | .fault e => .fault e
    | .refused e => .refused e

end Sys2Proof.Machine
end

