-- ==== Sys2Proof/Safety.lean ====
section
/-! DEFINITION. What claims are stated in: which operations have which points (R178), the error codes an operation
may finish with (R244), the outcome of a received frame (R166), the spec's index form of stuffing (R130) and wide form
of the CRC (R112), the invariant that every step keeps, runs of several steps, and conforming hosts (R201). -/

namespace Sys2Proof.Machine

/-! ## Operations and their points -/

/-- The operations that make a port write: SEND, EXCHANGE, PROBE (R178). -/
def opWrites (op : Byte) : Bool := op == 0x07 || op == 0x0B || op == 0x0C

/-- The operations that make port reads: RECV, RECVX, EXCHANGE, PROBE (R178). -/
def opReads (op : Byte) : Bool := op == 0x08 || op == 0x0A || op == 0x0B || op == 0x0C

/-- The operations that make counted receive attempts: RECVX, EXCHANGE, PROBE (R39, R170). -/
def opAttempts (op : Byte) : Bool := op == 0x0A || op == 0x0B || op == 0x0C

/-- The points that the pseudocode of an operation has (R178). -/
def hasPoint : Instr → Point → Bool
  | _, .start => true
  | .send _ _, .wrote _ => true
  | .recv _ _, .got _ => true
  | .recvx _ _, .got _ => true
  | .exchange _ _, .wrote _ => true
  | .exchange _ _, .got _ => true
  | .probe _ _, .wrote _ => true
  | .probe _ _, .got _ => true
  | _, _ => false

/-- The error codes of a receive attempt (R176). -/
def receiveErrors : List ErrCode :=
  [.transport, .rxOverflow, .escInvalid, .escTruncated, .badDelimiter, .shortFrame, .checksumMismatch]

/-- The error codes each operation can finish with besides NONE (R244). -/
def errorCodes : Instr → List ErrCode
  | .crc16 _ _ => [.param]
  | .isum _ _ => [.param]
  | .cksum _ _ => [.param]
  | .stuff _ _ => [.param]
  | .unstuff _ _ => [.param, .escInvalid, .escTruncated]
  | .build _ _ => []
  | .send _ _ => [.param, .transport]
  | .recv _ _ => [.transport, .rxOverflow]
  | .decode _ _ => [.escInvalid, .escTruncated, .badDelimiter, .shortFrame, .checksumMismatch]
  | .recvx _ _ => .param :: receiveErrors
  | .exchange _ _ => .param :: receiveErrors
  | .probe _ _ => .param :: receiveErrors

/-- The attempts operations with their operand bytes: RECVX, EXCHANGE, PROBE (R170). -/
def attemptInstrs (fcmd retries : Byte) : List Instr := [.recvx fcmd retries, .exchange fcmd retries, .probe fcmd retries]

/-- Whether an operation may write the byte of BUF at an offset when it runs in the state (R50, R137, R138, R155). -/
def mayWrite (i : Instr) (s : State) (a : Nat) : Prop :=
  let txf := a < 5 ∨ 5 + s.regs.plen.toNat ≤ a ∧ a < 8 + s.regs.plen.toNat
  let txw := Config.txwBase ≤ a ∧ a < Config.rxwBase
  let rxw := Config.rxwBase ≤ a ∧ a < Config.rxfBase
  let rxf := Config.rxfBase ≤ a ∧ a < Config.bufSize
  let span n := s.regs.dst.toNat ≤ a ∧ a < s.regs.dst.toNat + n
  match i with
  | .crc16 _ _ => False
  | .isum _ _ => False
  | .cksum _ _ => False
  | .stuff _ _ => span (stuff (s.bytesAt s.regs.src.toNat s.regs.len.toNat)).length
  | .unstuff _ _ => span (unstuff (s.bytesAt s.regs.src.toNat s.regs.len.toNat)).1.length
  | .build _ _ => txf
  | .send _ _ => txw
  | .recv _ _ => rxw
  | .decode _ _ => rxf
  | .recvx _ _ => rxw ∨ rxf
  | .exchange _ _ => txf ∨ txw ∨ rxw ∨ rxf
  | .probe _ _ => a = Config.txwBase ∨ rxw ∨ rxf

/-! ## Codec and checksum in the spec's other forms -/

/-- `stuff(s)` as R130 writes it, by index. -/
def stuffByIndex (s : List Byte) : List Byte :=
  (List.range s.length).flatMap fun i =>
    if 0 < i ∧ i < s.length - 1 ∧ byteOf s i = 0x7E then [0x7D, 0x5E]
    else if 0 < i ∧ i < s.length - 1 ∧ byteOf s i = 0x7D then [0x7D, 0x5D]
    else [byteOf s i]

/-- `w` is cut into bytes other than 0x7D, which stand for themselves, and the two escape pairs of R96; they stand for
`f`. -/
def escapeCut (w f : List Byte) : Prop :=
  ∃ parts : List (Byte × List Byte),
    (∀ p ∈ parts, (p.1 ≠ 0x7D ∧ p.2 = [p.1]) ∨ p = (0x7E, [0x7D, 0x5E]) ∨ p = (0x7D, [0x7D, 0x5D])) ∧
    parts.map Prod.fst = f ∧ (parts.map Prod.snd).flatten = w

/-- The bytes that stuffing escapes: those strictly between the first and the last that are 0x7E or 0x7D (R132). -/
def escapedCount (s : List Byte) : Nat :=
  ((List.range s.length).filter fun i =>
    decide (0 < i ∧ i < s.length - 1 ∧ (byteOf s i = 0x7E ∨ byteOf s i = 0x7D))).length

/-- The CRC update of R112 in a register of `w` bits, without truncation. -/
def crcStepWide (w : Nat) (table : CrcTable) (c : BitVec w) (b : Byte) : BitVec w :=
  (c <<< 8) ^^^ (crcEntry table ((c >>> 8).setWidth 8 ^^^ b)).setWidth w

/-- What a successful verify of the frame `f` reports (R165, R167). -/
def respOf (f : List Byte) : Word := be16 (byteOf f 3) (byteOf f 4) ++ byteOf f 1 ++ byteOf f 2

/-- The stored checksum of a frame (R92). -/
def storedChecksum (f : List Byte) : Half := be16 (byteOf f (f.length - 3)) (byteOf f (f.length - 2))

/-- The checks of a frame that unstuffed, in their order (R166). -/
def frameError (table : CrcTable) (m : ChecksumMode) (le : Bool) (f : List Byte) : ErrCode :=
  if f.length = 0 ∨ byteOf f 0 ≠ Config.delimiter ∨ byteOf f (f.length - 1) ≠ Config.delimiter then .badDelimiter
  else if f.length < 8 then .shortFrame
  else if checksum table m le (slice f 1 (f.length - 3)) ≠ storedChecksum f then .checksumMismatch
  else .none

/-! ## The invariant -/

/-- The hidden state of a running operation agrees with the registers: the opcode is CMD.OP, mode and word order are
still those of CTRL (R152), RVALID is clear where the launch cleared it (R37), the attempt counter is mirrored in
STATUS.ATTEMPTS (R24) and has not passed CMD.RETRIES (R39), the last error is one of a receive attempt (R176). -/
structure JobOk (r : Regs) (j : Job) : Prop where
  op : j.op = cmdOp r.cmd
  m : j.m = r.mode
  le : j.le = r.isumLe
  rvalid : clearsRvalid j.op = true → r.rvalid = false
  lasterr : j.lasterr ∈ ErrCode.none :: receiveErrors
  mirrored : opAttempts j.op = true → j.k = r.attempts
  bounded : opAttempts j.op = true → j.k.toNat ≤ (cmdRetries r.cmd).toNat

/-- The accumulated bytes of a receive that goes on: none yet, or they end in 0x7D (R160). -/
def State.receiving (s : State) : Prop :=
  s.regs.rxwLen.toNat = 0 ∨ s.byteAt (Config.rxwBase + s.regs.rxwLen.toNat - 1) = Config.escapeByte

/-- The engine's phase fits the running operation (R23, R54, R178), and an outstanding request or its answer keeps the
port's contract (R262, R263); a receive attempt that goes on has been counted (R39, R170). -/
def State.engineOk (s : State) : Prop :=
  match s.eng with
  | .idle => True
  | .run j .start => JobOk s.regs j
  | .run j (.wrote _) => JobOk s.regs j ∧ opWrites j.op = true
  | .run j (.got a) =>
    JobOk s.regs j ∧ opReads j.op = true ∧ (opAttempts j.op = true → 1 ≤ j.k.toNat) ∧ s.receiving ∧
      (∀ chunk, a = .ok chunk → chunk.length ≤ s.env.rxChunkMax)
  | .waitWrite bytes j =>
    JobOk s.regs j ∧ opWrites j.op = true ∧ 1 ≤ bytes.length ∧ bytes.length ≤ 131084
  | .waitRead n j =>
    JobOk s.regs j ∧ opReads j.op = true ∧ (opAttempts j.op = true → 1 ≤ j.k.toNat) ∧ s.receiving ∧
      n = s.env.rxChunkMax

/-- The invariant of the machine. -/
structure State.Inv (s : State) : Prop where
  /-- STATUS.BUSY = 1 exactly when the engine is not idle (R23). -/
  busy : s.regs.busy = true ↔ s.eng ≠ .idle
  /-- While an operation runs DONE is 0 and ERRCODE is NONE (R35, R36). -/
  running : s.regs.busy = true → s.regs.done = false ∧ s.regs.errcode = .none
  /-- BUF is in canonical form, and every byte of it has an offset of BUF (R49). -/
  buf : s.buf.wf = true
  /-- TXF_LEN is 0 or the length of a logical frame (R45, R94). -/
  txfLen : s.regs.txfLen.toNat = 0 ∨ 8 ≤ s.regs.txfLen.toNat ∧ s.regs.txfLen.toNat ≤ 65543
  /-- TXW_LEN is at most the length of the longest wire frame (R45, R98). -/
  txwLen : s.regs.txwLen.toNat ≤ 131084
  /-- RXW_LEN and RXF_LEN are at most REGION_SIZE (R46). -/
  rxwLen : s.regs.rxwLen.toNat ≤ Config.regionSize
  rxfLen : s.regs.rxfLen.toNat ≤ Config.regionSize
  /-- A valid response describes the frame in RXF: RESP_PLEN = L - 8 (R37, R48). -/
  response : s.regs.rvalid = true → s.regs.respPlen.toNat + 8 = s.regs.rxfLen.toNat
  /-- The parameter RX_CHUNK_MAX is in its range (R8). -/
  chunkMax : 1 ≤ s.env.rxChunkMax ∧ s.env.rxChunkMax ≤ Config.regionSize
  /-- The parameter CRC16_TABLE has 256 entries (R8, R111). -/
  crcTable : s.env.crcTable.wf = true
  /-- The engine's phase fits the running operation. -/
  engine : s.engineOk

/-- `n` steps of the machine, stopping at the first stop. -/
abbrev runSteps (n : Nat) (s : State) : Result := Host.Core.run Sys2Proof.core n s

/-! ## Conforming hosts -/

/-- The host step is a write to CMD: 32 bits wide, at offset 0x004 (R25, R62). -/
def HostOp.launches : HostOp → Bool
  | .access (.write bits off _) => bits == 32 && off == 0x004#21
  | _ => false

/-- The launch of an exchange: the write of EXCHANGE with a command code and RETRIES to CMD (R25, R172, R223). -/
def exchangeLaunch (code retries : Byte) : HostOp := .access (.write 32 0x004#21 (encode (.exchange code retries)))

/-- The launches of a transfer of `count` chunks (R214 to R217): the start exchange, one middle exchange for each chunk,
the end exchange, each with its command code and RETRIES. -/
def transferLaunches (start midst end_ : Byte) (startRetries midstRetries endRetries : Byte) (count : Nat) : List HostOp :=
  exchangeLaunch start startRetries :: List.replicate count (exchangeLaunch midst midstRetries) ++
    [exchangeLaunch end_ endRetries]

/-- The host waits right after every launch, by polling or for the interrupt (R201: "It issues one block operation at a
time and waits for each to finish"). -/
def conforming : List HostOp → Bool
  | [] => true
  | op :: rest => (!op.launches || rest.head? == some .wait || rest.head? == some .waitIrq) && conforming rest

/-- `n` steps of the system. -/
def systemRun : Nat → System → Host.Outcome System Fault Refusal
  | 0, y => .next y
  | n + 1, y =>
    match systemStep y with
    | .next y' => systemRun n y'
    | .fault e => .fault e
    | .refused e => .refused e

end Sys2Proof.Machine
end

