-- ==== Sys2Proof/Certificates/Slice0/Obligations.lean ====
section
/-! DEFINITION. The statements for the provers. A statement about BUF speaks through `State.byteAt` or
`State.bytesAt`; `{ s with … }` says that everything not named is unchanged. `env` holds the MODEL's own fields, not the
spec's: `env.reply` is its record of the bus's answer to the host (log entry 11), `env.agenda` the schedule of the agents'
moves (log entry 2), `env.portWrites` and `env.portReads` the oracle sequence of the port (log entry 3), `env.crcTable` the
block's parameter CRC16_TABLE (R8; log entry 5), for which a statement holds whatever it is unless it says so. -/

open Sys2Proof Sys2Proof.Machine

/-! ## The command word -/

/-- R80 to R82, R84: decoding an encoded operation gives it back, with every operand byte; and a word that decodes is the
encoding of its operation but for the ignored bits 31:24. -/
def Obligations.DecodeOfEncode : Prop :=
  (∀ i : Instr, decode (encode i) = .ok i) ∧
  ∀ (w : Word) (i : Instr), decode w = .ok i → encode i = w &&& 0x00FFFFFF#32

/-- R84: the decoder is total; a word names exactly one operation when its low byte is 1 to 12 and is rejected by name
otherwise; bits 31:24 never change the meaning. -/
def Obligations.DecoderIsTotal : Prop :=
  ∀ w : Word,
    (1 ≤ (w &&& 0xFF#32).toNat ∧ (w &&& 0xFF#32).toNat ≤ 12 →
      ∃ i, decode w = .ok i ∧ encode i &&& 0xFF#32 = w &&& 0xFF#32) ∧
    ((w &&& 0xFF#32).toNat = 0 ∨ 12 < (w &&& 0xFF#32).toNat →
      decode w = .error (.illegalOpcode (w.setWidth 8))) ∧
    ∀ top : Byte, decode (top ++ w.setWidth 24) = decode w

/-- R82: for each of the twelve operations a word written out from the spec's encoding, as its programs and vectors write
them, and two illegal opcodes. -/
def Obligations.WrittenWordsDecode : Prop :=
  decode 0x00FF7701#32 = .ok (.crc16 0x77 0xFF) ∧ decode 0x00000002#32 = .ok (.isum 0 0) ∧
  decode 0x00000003#32 = .ok (.cksum 0 0) ∧ decode 0x00000004#32 = .ok (.stuff 0 0) ∧
  decode 0x00000005#32 = .ok (.unstuff 0 0) ∧ decode 0x00008006#32 = .ok (.build 0x80 0) ∧
  decode 0x00000007#32 = .ok (.send 0 0) ∧ decode 0x00000008#32 = .ok (.recv 0 0) ∧
  decode 0x00000009#32 = .ok (.decode 0 0) ∧ decode 0x0003000A#32 = .ok (.recvx 0 3) ∧
  decode 0x0005110B#32 = .ok (.exchange 0x11 5) ∧ decode 0x0002000C#32 = .ok (.probe 0 2) ∧
  decode 0xFF000001#32 = .ok (.crc16 0 0) ∧
  decode 0x00000000#32 = .error (.illegalOpcode 0x00) ∧ decode 0x0000000D#32 = .error (.illegalOpcode 0x0D)

/-! ## Steps -/

/-- R153, R72, R54: what a step is. The engine's move of a running operation is `exec` of the operation that its latched
word decodes to, and in every other phase the engine's move changes nothing; a host move is its bus access, a port move
the port's answer, a reset move the reset. With nothing scheduled a running operation goes on, the port answers an
outstanding request, and an idle block stays as it is. That a step takes its move from `env.agenda`, and what it does when
that is empty, is the model's choice (log entry 2). -/
def Obligations.StepRunsDecodedOperation : Prop :=
  ∀ s : State,
    (∀ j p i, s.eng = .run j p → decode (latchedWord j s) = .ok i →
      (s.env.agenda = [] → step s = exec i s) ∧
      (∀ rest, s.env.agenda = .engine :: rest → step s = exec i (s.setAgenda rest))) ∧
    (∀ rest, s.env.agenda = .engine :: rest → (∀ j p, s.eng ≠ .run j p) → step s = .next (s.setAgenda rest)) ∧
    (∀ a rest, s.env.agenda = .host a :: rest → step s = .next (busAccess a (s.setAgenda rest))) ∧
    (∀ rest, s.env.agenda = .port :: rest → step s = .next (portStep (s.setAgenda rest))) ∧
    (∀ rest, s.env.agenda = .reset :: rest → step s = .next (resetStep (s.setAgenda rest))) ∧
    (s.env.agenda = [] →
      (s.eng = .idle → step s = .next s) ∧
      (∀ bytes j, s.eng = .waitWrite bytes j → step s = .next (portStep s)) ∧
      (∀ n j, s.eng = .waitRead n j → step s = .next (portStep s)))

/-- R83: a CMD write with an illegal opcode while idle launches like any other, and the engine's first step finishes it
with ILLEGAL_OP; no other state changes (RVALID is unchanged). -/
def Obligations.IllegalOpcodeFinishes : Prop :=
  ∀ (s : State) (w : Word), s.eng = .idle → s.env.agenda = [] →
    ((w &&& 0xFF#32).toNat = 0 ∨ 12 < (w &&& 0xFF#32).toNat) →
    ∃ t u, busAccess (.write 32 0x004#21 w) s = t ∧
      t.regs = { s.regs with cmd := w.setWidth 24, busy := true, done := false, errcode := .none, attempts := 0 } ∧
      t.buf = s.buf ∧ t.eng ≠ .idle ∧ step t = .next u ∧
      u = { t with regs := { t.regs with errcode := .illegalOp, busy := false, done := true }, eng := .idle }

/-- R32, R150: a CMD write while the engine is idle stores bits 23:0 and launches. -/
def Obligations.CmdWriteLaunches : Prop :=
  ∀ (s : State) (w : Word), s.eng = .idle →
    busAccess (.write 32 0x004#21 w) s =
      { s with
        regs := { s.regs with
          cmd := w.extractLsb' 0 24, busy := true, done := false, errcode := .none, attempts := 0,
          rvalid := if (w.setWidth 8 : Byte) ∈ [0x08#8, 0x09#8, 0x0A#8, 0x0B#8, 0x0C#8] then false else s.regs.rvalid }
        eng := .run { op := w.setWidth 8, k := 0, lasterr := .none, m := s.regs.mode, le := s.regs.isumLe } .start
        env := { s.env with reply := .done } }

/-- R151, R241: every operation that ends does so through `finish`: BUSY cleared, DONE set; until then BUSY, DONE and
ERRCODE keep their values. -/
def Obligations.OperationsEndByFinish : Prop :=
  ∀ (i : Instr) (s t : State), exec i s = .next t →
    (t.eng = .idle → t.regs.busy = false ∧ t.regs.done = true) ∧
    (t.eng ≠ .idle → t.regs.busy = s.regs.busy ∧ t.regs.done = s.regs.done ∧ t.regs.errcode = s.regs.errcode)

/-- R244: the error codes each operation can finish with. -/
def Obligations.FinishCodesOfOperations : Prop :=
  ∀ (i : Instr) (s t : State), exec i s = .next t → t.eng = .idle →
    (∀ j p, s.eng = .run j p → j.lasterr ∈ ErrCode.none :: receiveErrors) →
    t.regs.errcode ∈ ErrCode.none :: errorCodes i

/-! ## What operations leave alone -/

/-- R26, R38: no operation writes a register that only the host writes: CTRL, CMD, SEED, SRC, DST, LEN, PLEN and
BUSYERR. -/
def Obligations.OperationsKeepHostRegisters : Prop :=
  ∀ (i : Instr) (s t : State), exec i s = .next t →
    t.regs.mode = s.regs.mode ∧ t.regs.isumLe = s.regs.isumLe ∧ t.regs.ie = s.regs.ie ∧ t.regs.cmd = s.regs.cmd ∧
    t.regs.seed = s.regs.seed ∧ t.regs.src = s.regs.src ∧ t.regs.dst = s.regs.dst ∧ t.regs.len = s.regs.len ∧
    t.regs.plen = s.regs.plen ∧ t.regs.busyerr = s.regs.busyerr ∧ t.env = s.env

/-- R37, R47, R48, R251: RESP, RESP_CKS, RESP_PLEN and RVALID change only in DECODE, RECVX, EXCHANGE and PROBE, and there
only where the frame that then stands in RXF passes every check in the mode sampled at launch; the response is that
frame's, and the operation ends with NONE. -/
def Obligations.ResponseOnlyFromVerify : Prop :=
  ∀ (i : Instr) (s t : State), exec i s = .next t →
    (t.regs.resp = s.regs.resp ∧ t.regs.respCks = s.regs.respCks ∧ t.regs.respPlen = s.regs.respPlen ∧
      t.regs.rvalid = s.regs.rvalid) ∨
    (opField (encode i) ∈ [0x09#8, 0x0A#8, 0x0B#8, 0x0C#8] ∧
      ∃ j p, s.eng = .run j p ∧
        let f := t.bytesAt 0xC0000 t.regs.rxfLen.toNat
        frameError s.env.crcTable j.m j.le f = .none ∧ respCmd t.regs.resp = byteOf f 2 ∧
        respRsvd t.regs.resp = byteOf f 1 ∧ respLenf t.regs.resp = be16 (byteOf f 3) (byteOf f 4) ∧
        t.regs.respCks = storedChecksum f ∧ t.regs.respPlen.toNat + 8 = f.length ∧
        t.regs.rvalid = true ∧ t.regs.errcode = .none ∧ t.eng = .idle)

/-- R41, R43, R45, R46, R39, R251: a result register changes only in the operations that the spec names for it. -/
def Obligations.OperationsKeepOtherResults : Prop :=
  ∀ (i : Instr) (s t : State), exec i s = .next t →
    (opField (encode i) ∉ [0x04#8, 0x05#8] → t.regs.outlen = s.regs.outlen) ∧
    (opField (encode i) ∉ [0x06#8, 0x0B#8] → t.regs.txfLen = s.regs.txfLen) ∧
    (opField (encode i) ∉ [0x07#8, 0x0B#8, 0x0C#8] → t.regs.txwLen = s.regs.txwLen) ∧
    (opField (encode i) ∉ [0x08#8, 0x0A#8, 0x0B#8, 0x0C#8] →
      t.regs.rxwLen = s.regs.rxwLen ∧ t.regs.attempts = s.regs.attempts) ∧
    (opField (encode i) ∉ [0x09#8, 0x0A#8, 0x0B#8, 0x0C#8] → t.regs.rxfLen = s.regs.rxfLen) ∧
    (opField (encode i) ∈ [0x04#8, 0x05#8, 0x07#8, 0x08#8] → t.regs.result = s.regs.result)

/-- R50, R67: an operation changes bytes of BUF only in its own region or destination span. -/
def Obligations.OperationsKeepOtherBytes : Prop :=
  ∀ (i : Instr) (s t : State), exec i s = .next t → ∀ a, ¬ mayWrite i s a → t.byteAt a = s.byteAt a

/-! ## Checksums -/

/-- R110, R112: the CRC computed in a wider register and truncated at the end is the same. -/
def Obligations.CrcWidthIrrelevant : Prop :=
  ∀ (w : Nat) (table : CrcTable) (c : BitVec w) (bs : List Byte), 16 ≤ w →
    (bs.foldl (crcStepWide w table) c).setWidth 16 = crc16 table (c.setWidth 16) bs

/-- R116: the closed form of the Internet sum, its zero, and the two-step fold. -/
def Obligations.IsumClosedForm : Prop :=
  (∀ (le : Bool) (bs : List Byte),
    (wordSum le bs = 0 → isum le bs = 0) ∧
    (0 < wordSum le bs → (isum le bs).toNat = (wordSum le bs - 1) % 0xFFFF + 1) ∧
    (isum le bs = 0 ↔ ∀ b ∈ bs, b = 0) ∧
    (wordSum le bs ≤ 0xFFFFFFFF →
      (isum le bs).toNat = foldCarry 2 (wordSum le bs) ∧
      let acc := wordSum le bs / 0x10000 + wordSum le bs % 0x10000
      (isum le bs).toNat = (acc + acc / 0x10000) % 0x10000)) ∧
  ∀ le, isum le [0xFF, 0xFF] = 0xFFFF

/-- R123: the little-endian sum is the byte swap of the big-endian one. -/
def Obligations.WordOrderIsByteSwap : Prop := ∀ bs : List Byte, isum true bs = swap16 (isum false bs)

/-- R125: the order of the words does not change the Internet sum. -/
def Obligations.IsumIgnoresWordOrder : Prop :=
  ∀ (le : Bool) (ws ws' : List (Byte × Byte)), ws.Perm ws' →
    isum le (ws.flatMap fun w => [w.1, w.2]) = isum le (ws'.flatMap fun w => [w.1, w.2])

/-- R119: CRC16 at its start. A legal span gives RESULT and NONE, any other PARAM with RESULT unchanged. -/
def Obligations.Crc16Result : Prop :=
  ∀ (fcmd retries : Byte) (s : State) (j : Job), s.eng = .run j .start →
    (s.regs.src.toNat + s.regs.len.toNat ≤ 0x100000 →
      exec (.crc16 fcmd retries) s =
        .next { s with
          regs := { s.regs with
            result := crc16 s.env.crcTable s.regs.seed (s.bytesAt s.regs.src.toNat s.regs.len.toNat)
            errcode := .none, busy := false, done := true }
          eng := .idle }) ∧
    (0x100000 < s.regs.src.toNat + s.regs.len.toNat →
      exec (.crc16 fcmd retries) s =
        .next { s with regs := { s.regs with errcode := .param, busy := false, done := true }, eng := .idle })

/-- R120: ISUM at its start, with the word order sampled at launch. -/
def Obligations.IsumResult : Prop :=
  ∀ (fcmd retries : Byte) (s : State) (j : Job), s.eng = .run j .start →
    (s.regs.src.toNat + s.regs.len.toNat ≤ 0x100000 →
      exec (.isum fcmd retries) s =
        .next { s with
          regs := { s.regs with
            result := isum j.le (s.bytesAt s.regs.src.toNat s.regs.len.toNat)
            errcode := .none, busy := false, done := true }
          eng := .idle }) ∧
    (0x100000 < s.regs.src.toNat + s.regs.len.toNat →
      exec (.isum fcmd retries) s =
        .next { s with regs := { s.regs with errcode := .param, busy := false, done := true }, eng := .idle })

/-- R121, R118: CKSUM at its start, the algorithm of the mode sampled at launch, seed 0 in CRC mode. -/
def Obligations.CksumResult : Prop :=
  ∀ (fcmd retries : Byte) (s : State) (j : Job), s.eng = .run j .start →
    (s.regs.src.toNat + s.regs.len.toNat ≤ 0x100000 →
      exec (.cksum fcmd retries) s =
        .next { s with
          regs := { s.regs with
            result :=
              if j.m = .crc then crc16 s.env.crcTable 0x0000 (s.bytesAt s.regs.src.toNat s.regs.len.toNat)
              else isum j.le (s.bytesAt s.regs.src.toNat s.regs.len.toNat)
            errcode := .none, busy := false, done := true }
          eng := .idle }) ∧
    (0x100000 < s.regs.src.toNat + s.regs.len.toNat →
      exec (.cksum fcmd retries) s =
        .next { s with regs := { s.regs with errcode := .param, busy := false, done := true }, eng := .idle })

/-! ## Codec -/

/-- R130: `stuff` is the spec's loop over indices. -/
def Obligations.StuffIsIndexLoop : Prop := ∀ bs : List Byte, stuff bs = stuffByIndex bs

/-- R132: the length of the stuffed output. -/
def Obligations.StuffLength : Prop :=
  ∀ bs : List Byte, (stuff bs).length = bs.length + escapedCount bs ∧
    (2 ≤ bs.length → bs.length ≤ (stuff bs).length ∧ (stuff bs).length ≤ 2 * bs.length - 2)

/-- R136: unstuffing undoes stuffing when neither boundary byte is 0x7D, and the law fails at a boundary 0x7D. -/
def Obligations.UnstuffOfStuff : Prop :=
  (∀ bs : List Byte, bs.head? ≠ some 0x7D → bs.getLast? ≠ some 0x7D → unstuff (stuff bs) = (bs, .none)) ∧
  (unstuff (stuff [0x41, 0x7D])).2 = .escTruncated ∧ unstuff (stuff [0x7D, 0x5E, 0x7E]) = ([0x7E, 0x7E], .none) ∧
  ∀ bs : List Byte, (bs.head? = some 0x7D ∨ bs.getLast? = some 0x7D) → unstuff (stuff bs) ≠ (bs, .none)

/-- R133 to R135, R139, R247: what unstuffing answers. It succeeds exactly when the wire buffer is cut into bytes other than
0x7D and the two escape pairs; the first error of the scan ends it: ESC_TRUNCATED when such a part is followed by a last
0x7D, ESC_INVALID when it is followed by a 0x7D before another byte than 0x5E or 0x5D; with the bytes decoded so far. -/
def Obligations.UnstuffAccepts : Prop :=
  ∀ w f : List Byte,
    (unstuff w = (f, .none) ↔ escapeCut w f) ∧
    (unstuff w = (f, .escTruncated) ↔ ∃ u, w = u ++ [0x7D] ∧ escapeCut u f) ∧
    (unstuff w = (f, .escInvalid) ↔
      ∃ u c rest, w = u ++ 0x7D :: c :: rest ∧ c ≠ 0x5E ∧ c ≠ 0x5D ∧ escapeCut u f) ∧
    (unstuff w).2 ∈ [ErrCode.none, .escTruncated, .escInvalid]

/-- R137: STUFF at its start, for every span. -/
def Obligations.StuffResult : Prop :=
  ∀ (fcmd retries : Byte) (s : State) (j : Job), s.eng = .run j .start →
    let out := stuff (s.bytesAt s.regs.src.toNat s.regs.len.toNat)
    (0x100000 < s.regs.src.toNat + s.regs.len.toNat →
      exec (.stuff fcmd retries) s =
        .next { s with regs := { s.regs with errcode := .param, busy := false, done := true }, eng := .idle }) ∧
    (s.regs.src.toNat + s.regs.len.toNat ≤ 0x100000 →
      ∃ t, exec (.stuff fcmd retries) s = .next t ∧ t.eng = .idle ∧ t.env = s.env ∧
        t.regs.outlen.toNat = out.length ∧
        (0x100000 < s.regs.dst.toNat + out.length →
          t.regs = { s.regs with outlen := t.regs.outlen, errcode := .param, busy := false, done := true } ∧
          t.buf = s.buf) ∧
        (s.regs.dst.toNat + out.length ≤ 0x100000 →
          t.regs = { s.regs with outlen := t.regs.outlen, errcode := .none, busy := false, done := true } ∧
          t.bytesAt s.regs.dst.toNat out.length = out ∧
          ∀ a, (a < s.regs.dst.toNat ∨ s.regs.dst.toNat + out.length ≤ a) → t.byteAt a = s.byteAt a))

/-- R138: UNSTUFF at its start, for every span and every input. -/
def Obligations.UnstuffResult : Prop :=
  ∀ (fcmd retries : Byte) (s : State) (j : Job), s.eng = .run j .start →
    let out := (unstuff (s.bytesAt s.regs.src.toNat s.regs.len.toNat)).1
    let e := (unstuff (s.bytesAt s.regs.src.toNat s.regs.len.toNat)).2
    (0x100000 < s.regs.src.toNat + s.regs.len.toNat →
      exec (.unstuff fcmd retries) s =
        .next { s with regs := { s.regs with errcode := .param, busy := false, done := true }, eng := .idle }) ∧
    (s.regs.src.toNat + s.regs.len.toNat ≤ 0x100000 → e ≠ .none →
      exec (.unstuff fcmd retries) s =
        .next { s with regs := { s.regs with outlen := 0, errcode := e, busy := false, done := true }, eng := .idle }) ∧
    (s.regs.src.toNat + s.regs.len.toNat ≤ 0x100000 → e = .none →
      ∃ t, exec (.unstuff fcmd retries) s = .next t ∧ t.eng = .idle ∧ t.env = s.env ∧
        t.regs.outlen.toNat = out.length ∧
        (0x100000 < s.regs.dst.toNat + out.length →
          t.regs = { s.regs with outlen := t.regs.outlen, errcode := .param, busy := false, done := true } ∧
          t.buf = s.buf) ∧
        (s.regs.dst.toNat + out.length ≤ 0x100000 →
          t.regs = { s.regs with outlen := t.regs.outlen, errcode := .none, busy := false, done := true } ∧
          t.bytesAt s.regs.dst.toNat out.length = out ∧
          ∀ a, (a < s.regs.dst.toNat ∨ s.regs.dst.toNat + out.length ≤ a) → t.byteAt a = s.byteAt a))

/-! ## Frames -/

/-- R90 to R93: the layout of a logical frame. -/
def Obligations.LogicalFrameLayout : Prop :=
  ∀ (table : CrcTable) (m : ChecksumMode) (le : Bool) (cmd : Byte) (p : List Byte), p.length ≤ 65535 →
    let f := logicalFrame table m le cmd p
    let n := p.length
    f.length = n + 8 ∧ byteOf f 0 = 0x7E ∧ byteOf f 1 = 0x00 ∧ byteOf f 2 = cmd ∧
    be16 (byteOf f 3) (byteOf f 4) = BitVec.ofNat 16 n ∧ slice f 5 (5 + n) = p ∧
    be16 (byteOf f (5 + n)) (byteOf f (6 + n)) = checksum table m le (slice f 1 (n + 8 - 3)) ∧ byteOf f (7 + n) = 0x7E

/-- R155, R156: BUILD at its start makes the logical frame of FCMD and the payload that stands in TXF. -/
def Obligations.BuildResult : Prop :=
  ∀ (fcmd retries : Byte) (s : State) (j : Job), s.eng = .run j .start →
    let n := s.regs.plen.toNat
    let f := logicalFrame s.env.crcTable j.m j.le fcmd (s.bytesAt 5 n)
    ∃ t, exec (.build fcmd retries) s = .next t ∧ t.eng = .idle ∧ t.env = s.env ∧
      t.regs = { s.regs with
        txfLen := BitVec.ofNat 17 (n + 8), result := checksum s.env.crcTable j.m j.le (slice f 1 (n + 5))
        errcode := .none, busy := false, done := true } ∧
      t.bytesAt 0 (n + 8) = f ∧ ∀ a, n + 8 ≤ a → t.byteAt a = s.byteAt a

/-- R157, R158: SEND. With no frame built it finishes with PARAM; otherwise the stuffed frame stands in TXW and is the
outstanding write; the port's answer decides the error code. -/
def Obligations.SendResult : Prop :=
  ∀ (fcmd retries : Byte) (s : State) (j : Job),
    let w := stuff (s.bytesAt 0 s.regs.txfLen.toNat)
    (s.eng = .run j .start → s.regs.txfLen = 0 →
      exec (.send fcmd retries) s =
        .next { s with regs := { s.regs with errcode := .param, busy := false, done := true }, eng := .idle }) ∧
    (s.eng = .run j .start → s.regs.txfLen ≠ 0 →
      ∃ t, exec (.send fcmd retries) s = .next t ∧ t.eng = .waitWrite w j ∧ t.env = s.env ∧
        t.regs = { s.regs with txwLen := t.regs.txwLen } ∧ t.regs.txwLen.toNat = w.length ∧
        t.bytesAt 0x40000 w.length = w ∧ ∀ a, (a < 0x40000 ∨ 0x40000 + w.length ≤ a) → t.byteAt a = s.byteAt a) ∧
    (s.eng = .run j (.wrote .ok) →
      exec (.send fcmd retries) s =
        .next { s with regs := { s.regs with errcode := .none, busy := false, done := true }, eng := .idle }) ∧
    (s.eng = .run j (.wrote .err) →
      exec (.send fcmd retries) s =
        .next { s with regs := { s.regs with errcode := .transport, busy := false, done := true }, eng := .idle })

/-! ## Receiving -/

/-- R160 to R163: RECV at its start requests the first chunk; behind a read it finishes with TRANSPORT, RX_OVERFLOW or
NONE, or requests another chunk. -/
def Obligations.RecvResult : Prop :=
  ∀ (fcmd retries : Byte) (s : State) (j : Job),
    (s.eng = .run j .start →
      exec (.recv fcmd retries) s =
        .next { s with regs := { s.regs with attempts := 1, rxwLen := 0 }, eng := .waitRead s.env.rxChunkMax j }) ∧
    ((s.eng = .run j (.got .err) ∨ s.eng = .run j (.got (.ok []))) →
      exec (.recv fcmd retries) s =
        .next { s with regs := { s.regs with errcode := .transport, busy := false, done := true }, eng := .idle }) ∧
    (∀ chunk, s.eng = .run j (.got (.ok chunk)) → chunk ≠ [] →
      0x40000 < s.regs.rxwLen.toNat + chunk.length →
      exec (.recv fcmd retries) s =
        .next { s with regs := { s.regs with errcode := .rxOverflow, busy := false, done := true }, eng := .idle }) ∧
    (∀ chunk, s.eng = .run j (.got (.ok chunk)) → chunk ≠ [] →
      s.regs.rxwLen.toNat + chunk.length ≤ 0x40000 →
      ∃ t, exec (.recv fcmd retries) s = .next t ∧ t.env = s.env ∧
        t.regs.rxwLen.toNat = s.regs.rxwLen.toNat + chunk.length ∧
        t.bytesAt (0x80000 + s.regs.rxwLen.toNat) chunk.length = chunk ∧
        (∀ a, (a < 0x80000 + s.regs.rxwLen.toNat ∨ 0x80000 + s.regs.rxwLen.toNat + chunk.length ≤ a) →
          t.byteAt a = s.byteAt a) ∧
        (chunk.getLast? = some 0x7D →
          t.eng = .waitRead s.env.rxChunkMax j ∧ t.regs = { s.regs with rxwLen := t.regs.rxwLen }) ∧
        (chunk.getLast? ≠ some 0x7D →
          t.eng = .idle ∧
          t.regs = { s.regs with rxwLen := t.regs.rxwLen, errcode := .none, busy := false, done := true }))

/-- R165, R166, R168: DECODE at its start, for every RXW_LEN a receive can leave: an escape error first, then the frame's
own checks; the response is written only when they all pass. -/
def Obligations.DecodeResult : Prop :=
  ∀ (fcmd retries : Byte) (s : State) (j : Job), s.eng = .run j .start → s.regs.rxwLen.toNat ≤ 0x40000 →
    let f := (unstuff (s.bytesAt 0x80000 s.regs.rxwLen.toNat)).1
    let e := (unstuff (s.bytesAt 0x80000 s.regs.rxwLen.toNat)).2
    let c := checksum s.env.crcTable j.m j.le (slice f 1 (f.length - 3))
    (e ≠ .none →
      exec (.decode fcmd retries) s =
        .next { s with regs := { s.regs with rxfLen := 0, errcode := e, busy := false, done := true }, eng := .idle }) ∧
    (e = .none →
      ∃ t, exec (.decode fcmd retries) s = .next t ∧ t.eng = .idle ∧ t.env = s.env ∧
        t.bytesAt 0xC0000 f.length = f ∧ (∀ a, (a < 0xC0000 ∨ 0xC0000 + f.length ≤ a) → t.byteAt a = s.byteAt a) ∧
        t.regs.rxfLen.toNat = f.length ∧
        ((f.length = 0 ∨ byteOf f 0 ≠ 0x7E ∨ byteOf f (f.length - 1) ≠ 0x7E) →
          t.regs = { s.regs with rxfLen := t.regs.rxfLen, errcode := .badDelimiter, busy := false, done := true }) ∧
        (¬ (f.length = 0 ∨ byteOf f 0 ≠ 0x7E ∨ byteOf f (f.length - 1) ≠ 0x7E) → f.length < 8 →
          t.regs = { s.regs with rxfLen := t.regs.rxfLen, errcode := .shortFrame, busy := false, done := true }) ∧
        (¬ (f.length = 0 ∨ byteOf f 0 ≠ 0x7E ∨ byteOf f (f.length - 1) ≠ 0x7E) → 8 ≤ f.length →
          c ≠ be16 (byteOf f (f.length - 3)) (byteOf f (f.length - 2)) →
          t.regs = { s.regs with
            rxfLen := t.regs.rxfLen, result := c, errcode := .checksumMismatch, busy := false, done := true }) ∧
        (¬ (f.length = 0 ∨ byteOf f 0 ≠ 0x7E ∨ byteOf f (f.length - 1) ≠ 0x7E) → 8 ≤ f.length →
          c = be16 (byteOf f (f.length - 3)) (byteOf f (f.length - 2)) →
          t.regs = { s.regs with
            rxfLen := t.regs.rxfLen, result := c, rvalid := true
            resp := (be16 (byteOf f 3) (byteOf f 4)).setWidth 32 <<< 16 ||| (byteOf f 1).setWidth 32 <<< 8 |||
              (byteOf f 2).setWidth 32
            respCks := c, respPlen := BitVec.ofNat 18 (f.length - 8)
            errcode := .none, busy := false, done := true }))

/-- R170, R171: RECVX at its start: PARAM for RETRIES = 0, else the first attempt. -/
def Obligations.RecvxStart : Prop :=
  ∀ (fcmd retries : Byte) (s : State) (j : Job), s.eng = .run j .start →
    (retries = 0 →
      exec (.recvx fcmd retries) s =
        .next { s with regs := { s.regs with errcode := .param, busy := false, done := true }, eng := .idle }) ∧
    (retries ≠ 0 →
      exec (.recvx fcmd retries) s =
        .next { s with
          regs := { s.regs with attempts := 1, rxwLen := 0 }, eng := .waitRead s.env.rxChunkMax { j with k := 1 } })

/-- R172: EXCHANGE at its start (PARAM, or build and send once) and behind its write (TRANSPORT, or the first
attempt). -/
def Obligations.ExchangeStart : Prop :=
  ∀ (fcmd retries : Byte) (s : State) (j : Job),
    let n := s.regs.plen.toNat
    let f := logicalFrame s.env.crcTable j.m j.le fcmd (s.bytesAt 5 n)
    (s.eng = .run j .start → retries = 0 →
      exec (.exchange fcmd retries) s =
        .next { s with regs := { s.regs with errcode := .param, busy := false, done := true }, eng := .idle }) ∧
    (s.eng = .run j .start → retries ≠ 0 →
      ∃ t, exec (.exchange fcmd retries) s = .next t ∧ t.eng = .waitWrite (stuff f) j ∧ t.env = s.env ∧
        t.regs = { s.regs with
          txfLen := BitVec.ofNat 17 (n + 8), txwLen := t.regs.txwLen
          result := checksum s.env.crcTable j.m j.le (slice f 1 (n + 5)) } ∧
        t.regs.txwLen.toNat = (stuff f).length ∧ t.bytesAt 0 (n + 8) = f ∧
        t.bytesAt 0x40000 (stuff f).length = stuff f ∧
        ∀ a, n + 8 ≤ a → (a < 0x40000 ∨ 0x40000 + (stuff f).length ≤ a) → t.byteAt a = s.byteAt a) ∧
    (s.eng = .run j (.wrote .err) →
      exec (.exchange fcmd retries) s =
        .next { s with regs := { s.regs with errcode := .transport, busy := false, done := true }, eng := .idle }) ∧
    (s.eng = .run j (.wrote .ok) → retries ≠ 0 →
      exec (.exchange fcmd retries) s =
        .next { s with
          regs := { s.regs with attempts := 1, rxwLen := 0 }, eng := .waitRead s.env.rxChunkMax { j with k := 1 } })

/-- R174, R102: PROBE at its start (PARAM, or the single byte 0x7E unstuffed) and behind its write. -/
def Obligations.ProbeStart : Prop :=
  ∀ (fcmd retries : Byte) (s : State) (j : Job),
    (s.eng = .run j .start → retries = 0 →
      exec (.probe fcmd retries) s =
        .next { s with regs := { s.regs with errcode := .param, busy := false, done := true }, eng := .idle }) ∧
    (s.eng = .run j .start → retries ≠ 0 →
      ∃ t, exec (.probe fcmd retries) s = .next t ∧ t.eng = .waitWrite [0x7E] j ∧ t.env = s.env ∧
        t.regs = { s.regs with txwLen := 1 } ∧ t.byteAt 0x40000 = 0x7E ∧
        ∀ a, a ≠ 0x40000 → t.byteAt a = s.byteAt a) ∧
    (s.eng = .run j (.wrote .err) →
      exec (.probe fcmd retries) s =
        .next { s with regs := { s.regs with errcode := .transport, busy := false, done := true }, eng := .idle }) ∧
    (s.eng = .run j (.wrote .ok) → retries ≠ 0 →
      exec (.probe fcmd retries) s =
        .next { s with
          regs := { s.regs with attempts := 1, rxwLen := 0 }, eng := .waitRead s.env.rxChunkMax { j with k := 1 } })

/-- R160, R170: behind a read, RECVX, EXCHANGE and PROBE ask for another chunk when the stored one ends in 0x7D. -/
def Obligations.AttemptReadsOn : Prop :=
  ∀ (fcmd retries : Byte) (i : Instr) (s : State) (j : Job) (chunk : List Byte), i ∈ attemptInstrs fcmd retries →
    s.eng = .run j (.got (.ok chunk)) → chunk.getLast? = some 0x7D →
    s.regs.rxwLen.toNat + chunk.length ≤ 0x40000 →
    ∃ t, exec i s = .next t ∧ t.eng = .waitRead s.env.rxChunkMax j ∧ t.env = s.env ∧
      t.regs = { s.regs with rxwLen := t.regs.rxwLen } ∧
      t.regs.rxwLen.toNat = s.regs.rxwLen.toNat + chunk.length ∧
      t.bytesAt (0x80000 + s.regs.rxwLen.toNat) chunk.length = chunk ∧
      ∀ a, (a < 0x80000 + s.regs.rxwLen.toNat ∨ 0x80000 + s.regs.rxwLen.toNat + chunk.length ≤ a) →
        t.byteAt a = s.byteAt a

/-- R161, R162, R170, R176: a failed read of RECVX, EXCHANGE and PROBE is the attempt's error: the next attempt begins
while attempts remain, else the operation finishes with that error. -/
def Obligations.FailedReadIsRetried : Prop :=
  ∀ (fcmd retries : Byte) (i : Instr) (s : State) (j : Job) (a : ReadAnswer) (e : ErrCode),
    i ∈ attemptInstrs fcmd retries → s.eng = .run j (.got a) →
    ((a = .err ∨ a = .ok []) ∧ e = .transport ∨
      ∃ chunk, a = .ok chunk ∧ chunk ≠ [] ∧ 0x40000 < s.regs.rxwLen.toNat + chunk.length ∧ e = .rxOverflow) →
    (j.k < retries →
      exec i s =
        .next { s with
          regs := { s.regs with attempts := j.k + 1, rxwLen := 0 }
          eng := .waitRead s.env.rxChunkMax { j with k := j.k + 1, lasterr := e } }) ∧
    (¬ j.k < retries →
      exec i s = .next { s with regs := { s.regs with errcode := e, busy := false, done := true }, eng := .idle })

/-- R165 to R170, R41, R251: a whole receive of RECVX, EXCHANGE and PROBE is decoded and verified with the mode sampled at
launch. A frame that verifies finishes with NONE and is the response; an error begins the next attempt while attempts
remain, else it is the error the operation finishes with. RESULT is the computed checksum where the checks reach the
comparison, and unchanged otherwise. Whatever the outcome, the send side (TXF, TXF_LEN, TXW, TXW_LEN), every other register
and every byte of BUF but the stored chunk and the unstuffed frame are unchanged (R26, R39, R43, R50). -/
def Obligations.CompleteReceiveIsVerified : Prop :=
  ∀ (fcmd retries : Byte) (i : Instr) (s : State) (j : Job) (chunk : List Byte), i ∈ attemptInstrs fcmd retries →
    s.eng = .run j (.got (.ok chunk)) → chunk ≠ [] → chunk.getLast? ≠ some 0x7D →
    s.regs.rxwLen.toNat + chunk.length ≤ 0x40000 →
    let w := s.bytesAt 0x80000 s.regs.rxwLen.toNat ++ chunk
    let f := (unstuff w).1
    let e := if (unstuff w).2 ≠ .none then (unstuff w).2 else frameError s.env.crcTable j.m j.le f
    ∃ t, exec i s = .next t ∧ t.env = s.env ∧ t.bytesAt 0x80000 w.length = w ∧
      ((unstuff w).2 = .none → t.bytesAt 0xC0000 f.length = f ∧ t.regs.rxfLen.toNat = f.length) ∧
      ((unstuff w).2 ≠ .none → t.regs.rxfLen = 0) ∧
      t.regs = { s.regs with
        result := t.regs.result, rxwLen := t.regs.rxwLen, rxfLen := t.regs.rxfLen, attempts := t.regs.attempts
        resp := t.regs.resp, respCks := t.regs.respCks, respPlen := t.regs.respPlen, rvalid := t.regs.rvalid
        errcode := t.regs.errcode, busy := t.regs.busy, done := t.regs.done } ∧
      (∀ a, (a < 0x80000 + s.regs.rxwLen.toNat ∨ 0x80000 + s.regs.rxwLen.toNat + chunk.length ≤ a) →
        (a < 0xC0000 ∨ 0xC0000 + (if (unstuff w).2 = .none then f.length else 0) ≤ a) → t.byteAt a = s.byteAt a) ∧
      (e ≠ .none →
        t.regs.resp = s.regs.resp ∧ t.regs.respCks = s.regs.respCks ∧ t.regs.respPlen = s.regs.respPlen ∧
        t.regs.rvalid = s.regs.rvalid) ∧
      (e = .checksumMismatch → t.regs.result = checksum s.env.crcTable j.m j.le (slice f 1 (f.length - 3))) ∧
      (e ≠ .none → e ≠ .checksumMismatch → t.regs.result = s.regs.result) ∧
      (e = .none →
        t.eng = .idle ∧ t.regs.errcode = .none ∧ t.regs.done = true ∧ t.regs.busy = false ∧
        t.regs.rvalid = true ∧ respCmd t.regs.resp = byteOf f 2 ∧ respRsvd t.regs.resp = byteOf f 1 ∧
        respLenf t.regs.resp = be16 (byteOf f 3) (byteOf f 4) ∧ t.regs.respCks = storedChecksum f ∧
        t.regs.result = t.regs.respCks ∧
        t.regs.result = checksum s.env.crcTable j.m j.le (slice f 1 (f.length - 3)) ∧
        t.regs.respPlen.toNat + 8 = f.length ∧
        t.regs.rxwLen.toNat = w.length ∧ t.regs.attempts = s.regs.attempts) ∧
      (e ≠ .none → j.k < retries →
        t.eng = .waitRead s.env.rxChunkMax { j with k := j.k + 1, lasterr := e } ∧
        t.regs.attempts = j.k + 1 ∧ t.regs.rxwLen = 0 ∧ t.regs.errcode = s.regs.errcode ∧
        t.regs.busy = s.regs.busy ∧ t.regs.done = s.regs.done) ∧
      (e ≠ .none → ¬ j.k < retries →
        t.eng = .idle ∧ t.regs.errcode = e ∧ t.regs.done = true ∧ t.regs.busy = false ∧
        t.regs.rxwLen.toNat = w.length ∧ t.regs.attempts = s.regs.attempts)

/-- R246: when an operation that makes attempts finishes with an error of its last attempt, ATTEMPTS equals RETRIES. -/
def Obligations.LastErrorAfterAllAttempts : Prop :=
  ∀ (fcmd retries : Byte) (i : Instr) (s t : State) (j : Job) (a : ReadAnswer), i ∈ attemptInstrs fcmd retries →
    s.eng = .run j (.got a) → j.k = s.regs.attempts → j.k ≤ retries →
    exec i s = .next t → t.eng = .idle → t.regs.errcode ≠ .none → t.regs.attempts = retries

/-! ## The port -/

/-- R54, R153, R263, R264: the port's move answers the outstanding request and nothing else: at most the requested
bytes, the oracle sequence's next answer where it is a legal one. -/
def Obligations.PortAnswersRequest : Prop :=
  ∀ s : State,
    (∀ n j, s.eng = .waitRead n j →
      ∃ a, (portStep s).eng = .run j (.got a) ∧ (∀ chunk, a = .ok chunk → chunk.length ≤ n) ∧
        (∀ chunk rest, s.env.portReads = .ok chunk :: rest → chunk.length ≤ n →
          a = .ok chunk ∧ (portStep s).env = { s.env with portReads := rest }) ∧
        (∀ rest, s.env.portReads = .err :: rest → a = .err ∧ (portStep s).env = { s.env with portReads := rest })) ∧
    (∀ bytes j, s.eng = .waitWrite bytes j →
      ∃ a, (portStep s).eng = .run j (.wrote a) ∧
        (∀ a' rest, s.env.portWrites = a' :: rest →
          a = a' ∧ (portStep s).env = { s.env with portWrites := rest })) ∧
    ((s.eng = .idle ∨ ∃ j p, s.eng = .run j p) → portStep s = s) ∧
    (portStep s).regs = s.regs ∧ (portStep s).buf = s.buf

/-! ## The host interface -/

/-- R51, R66, R296, R38, and R25 to R48 for the reads: while BUSY = 1 register writes other than to STATUS and all BUF
accesses have no effect but BUSYERR, and BUF reads return 0; in every state, busy or not, a read of any of the seventeen
registers returns its fields, with reserved bits 0, and has no effect. The first clause takes in the reserved registers
0x044 to 0x0FC, where BUSYERR on a write is the model's reading of R66 (log entry 14). -/
def Obligations.BusyAccessesAreIgnored : Prop :=
  ∀ (s : State) (off : BitVec 21) (bits : Nat) (v : Word),
    (s.regs.busy = true → s.eng ≠ .idle → off.toNat < 0x100 → off.toNat % 4 = 0 → off.toNat ≠ 0x008 →
      busAccess (.write 32 off v) s =
        { s with regs := { s.regs with busyerr := true }, env := { s.env with reply := .done } }) ∧
    (s.regs.busy = true → 0x100000 ≤ off.toNat → bufAccessLegal bits off.toNat = true →
      busAccess (.write bits off v) s =
        { s with regs := { s.regs with busyerr := true }, env := { s.env with reply := .done } } ∧
      busAccess (.read bits off) s =
        { s with regs := { s.regs with busyerr := true }, env := { s.env with reply := .data 0 } }) ∧
    ∀ p ∈ [
        (0x000#21, (if s.regs.mode = .internetSum then 0x1#32 else 0) ||| (if s.regs.isumLe then 0x2#32 else 0) |||
          (if s.regs.ie then 0x4#32 else 0)),
        (0x004#21, s.regs.cmd.setWidth 32),
        (0x008#21, (if s.regs.busy then 0x1#32 else 0) ||| (if s.regs.done then 0x2#32 else 0) |||
          (if s.regs.errcode = .none then 0 else 0x4#32) ||| (if s.regs.rvalid then 0x8#32 else 0) |||
          (if s.regs.busyerr then 0x10#32 else 0) ||| s.regs.errcode.code.setWidth 32 <<< 8 |||
          s.regs.attempts.setWidth 32 <<< 16),
        (0x00C#21, s.regs.seed.setWidth 32), (0x010#21, s.regs.result.setWidth 32), (0x014#21, s.regs.src.setWidth 32),
        (0x018#21, s.regs.dst.setWidth 32), (0x01C#21, s.regs.len.setWidth 32), (0x020#21, s.regs.outlen.setWidth 32),
        (0x024#21, s.regs.plen.setWidth 32), (0x028#21, s.regs.txfLen.setWidth 32),
        (0x02C#21, s.regs.txwLen.setWidth 32), (0x030#21, s.regs.rxwLen.setWidth 32),
        (0x034#21, s.regs.rxfLen.setWidth 32), (0x038#21, s.regs.resp), (0x03C#21, s.regs.respCks.setWidth 32),
        (0x040#21, s.regs.respPlen.setWidth 32)],
      busAccess (.read 32 p.1) s = { s with env := { s.env with reply := .data p.2 } }

/-- R33, R35, R38: a STATUS write, in every phase, clears DONE and BUSYERR where its bits 1 and 4 are 1 and does nothing
else. -/
def Obligations.StatusWriteClears : Prop :=
  ∀ (s : State) (v : Word),
    busAccess (.write 32 0x008#21 v) s =
      { s with
        regs := { s.regs with
          done := if v.getLsbD 1 then false else s.regs.done
          busyerr := if v.getLsbD 4 then false else s.regs.busyerr }
        env := { s.env with reply := .done } }

/-- R33, R36, R242: the fields of STATUS as the host reads them, and the ten values of ERRCODE. -/
def Obligations.StatusReadLayout : Prop :=
  ∀ s : State, ∃ v, busAccess (.read 32 0x008#21) s = { s with env := { s.env with reply := .data v } } ∧
    v.getLsbD 0 = s.regs.busy ∧ v.getLsbD 1 = s.regs.done ∧ v.getLsbD 2 = decide (s.regs.errcode ≠ .none) ∧
    v.getLsbD 3 = s.regs.rvalid ∧ v.getLsbD 4 = s.regs.busyerr ∧ v.extractLsb' 5 3 = 0 ∧
    v.extractLsb' 8 4 = s.regs.errcode.code ∧ v.extractLsb' 12 4 = 0 ∧ v.extractLsb' 16 8 = s.regs.attempts ∧
    v.extractLsb' 24 8 = 0 ∧
    ∀ p ∈ [(ErrCode.none, 0#4), (.transport, 1#4), (.badDelimiter, 2#4), (.checksumMismatch, 3#4), (.shortFrame, 4#4),
        (.escInvalid, 5#4), (.escTruncated, 6#4), (.rxOverflow, 7#4), (.illegalOp, 8#4), (.param, 9#4)],
      s.regs.errcode = p.1 → v.extractLsb' 8 4 = p.2

/-- R26, R27, R40 to R44: while BUSY = 0 an RW register reads back the written bits of its field, a write to it changes
no other register, and a write to an RO register is ignored. -/
def Obligations.RegisterWriteReadsBack : Prop :=
  ∀ (s : State) (v : Word), s.regs.busy = false →
    (∀ p ∈ [(Reg.ctrl, 0x000#21, 0x7#32), (.seed, 0x00C#21, 0xFFFF#32), (.src, 0x014#21, 0xFFFFF#32),
        (.dst, 0x018#21, 0xFFFFF#32), (.len, 0x01C#21, 0x1FFFFF#32), (.plen, 0x024#21, 0xFFFF#32)],
      (busAccess (.read 32 p.2.1) (busAccess (.write 32 p.2.1 v) s)).env.reply = .data (v &&& p.2.2) ∧
      (∀ r, r ≠ p.1 → (busAccess (.write 32 p.2.1 v) s).regs.read r = s.regs.read r) ∧
      (busAccess (.write 32 p.2.1 v) s).buf = s.buf ∧ (busAccess (.write 32 p.2.1 v) s).eng = s.eng) ∧
    (∀ off ∈ [0x010#21, 0x020#21, 0x028#21, 0x02C#21, 0x030#21, 0x034#21, 0x038#21, 0x03C#21, 0x040#21],
      busAccess (.write 32 off v) s = { s with env := { s.env with reply := .done } })

/-- R62, R63, R260: a misaligned or wrong-width access is answered with a bus error and changes nothing. -/
def Obligations.BusErrorChangesNothing : Prop :=
  ∀ (s : State) (bits : Nat) (off : BitVec 21) (v : Word),
    (off.toNat < 0x100 ∧ (bits ≠ 32 ∨ off.toNat % 4 ≠ 0) ∨
      0x100000 ≤ off.toNat ∧
        ((bits ≠ 8 ∧ bits ≠ 16 ∧ bits ≠ 32) ∨ off.toNat % (bits / 8) ≠ 0)) →
    busAccess (.read bits off) s = { s with env := { s.env with reply := .busError } } ∧
    busAccess (.write bits off v) s = { s with env := { s.env with reply := .busError } }

/-- R64: reserved offsets read as 0 and ignore writes, without a bus error. -/
def Obligations.ReservedReadsZero : Prop :=
  ∀ (s : State) (off : BitVec 21) (v : Word), 0x044 ≤ off.toNat → off.toNat < 0x100000 → off.toNat % 4 = 0 →
    busAccess (.read 32 off) s = { s with env := { s.env with reply := .data 0 } } ∧
    (s.regs.busy = false → busAccess (.write 32 off v) s = { s with env := { s.env with reply := .done } })

/-- R63, R78: while BUSY = 0 a legal BUF write stores the data's bytes little-endian and nothing else, and a legal read
returns the bytes it finds, little-endian. R63 and R78 fix only the lanes an access covers; that the recorded answer of an
8- or 16-bit read is 0 above them (`d.toNat < 2 ^ bits`) is the model's choice (log entry 11). -/
def Obligations.BufAccessIsLittleEndian : Prop :=
  ∀ (s : State) (bits : Nat) (off : BitVec 21) (v : Word), s.regs.busy = false → 0x100000 ≤ off.toNat →
    bufAccessLegal bits off.toNat = true →
    let base := off.toNat - 0x100000
    let t := busAccess (.write bits off v) s
    t.regs = s.regs ∧ t.eng = s.eng ∧ t.env = { s.env with reply := .done } ∧
    (∀ k, k < bits / 8 → t.byteAt (base + k) = v.extractLsb' (8 * k) 8) ∧
    (∀ a, (a < base ∨ base + bits / 8 ≤ a) → t.byteAt a = s.byteAt a) ∧
    ∃ d : Word, busAccess (.read bits off) s = { s with env := { s.env with reply := .data d } } ∧
      (∀ k, k < bits / 8 → d.extractLsb' (8 * k) 8 = s.byteAt (base + k)) ∧ d.toNat < 2 ^ bits

/-- R53, R248: the interrupt output. -/
def Obligations.InterruptLevel : Prop :=
  ∀ (s : State) (e : ErrCode) (w : Word),
    ((s.irq = true) ↔ s.regs.ie = true ∧ s.regs.done = true) ∧ (finish e s).irq = s.regs.ie ∧
    (launch w s).irq = false ∧ (busAccess (.write 32 0x008#21 0x00000002#32) s).irq = false ∧
    (s.regs.busy = false → (busAccess (.write 32 0x000#21 w) s).irq = (w.getLsbD 2 && s.regs.done)) ∧
    (resetStep s).irq = false

/-! ## Reset -/

/-- R52, R281: after reset every register reads 0, the engine is idle, the interrupt output is 0, no byte of BUF is
specified. -/
def Obligations.ResetValues : Prop :=
  (∀ r : Reg, State.reset.regs.read r = 0) ∧ State.reset.eng = .idle ∧ State.reset.irq = false ∧
  ∀ a, State.reset.buf.byte? a = none

/-- R280, R282, R283, R266: the reset input, in any state, puts the block into the reset state in one step; an outstanding
request is discarded, and its answer is dropped. Every byte of BUF is then unspecified and drawn anew: in the model's form
of R282 (log entry 1) the reset counter moves on and each byte is the free value of its new number. What stays outside the block, the schedule and the port's further answers, is the
model's (log entries 3 and 12). -/
def Obligations.ResetInputAnyTime : Prop :=
  ∀ (s : State) (rest : List Event), s.env.agenda = .reset :: rest →
    ∃ t, step s = .next t ∧ t.regs = State.reset.regs ∧ t.eng = .idle ∧ (∀ a, t.buf.byte? a = none) ∧
      t.env.epoch = s.env.epoch + 1 ∧ (∀ a, t.byteAt a = Config.freeByte (s.env.epoch + 1) a) ∧
      t.env.agenda = rest ∧
      (∀ n j a reads, s.eng = .waitRead n j → s.env.portReads = a :: reads →
        (∀ chunk, a = .ok chunk → chunk.length ≤ n) →
        t.env.portReads = reads ∧ t.env.portWrites = s.env.portWrites) ∧
      (∀ bytes j a writes, s.eng = .waitWrite bytes j → s.env.portWrites = a :: writes →
        t.env.portWrites = writes ∧ t.env.portReads = s.env.portReads) ∧
      ((s.eng = .idle ∨ ∃ j p, s.eng = .run j p) →
        t.env.portReads = s.env.portReads ∧ t.env.portWrites = s.env.portWrites)

/-! ## Every step -/

/-- The invariant holds after reset. -/
def Obligations.ResetMeetsInv : Prop := State.reset.Inv

/-- Every step keeps the invariant (R8, R23, R24, R37, R39, R45, R46, R49, R152). -/
def Obligations.StepKeepsInv : Prop := ∀ s t : State, s.Inv → step s = .next t → t.Inv

/-- From every state of the invariant the machine takes a next step: no fault and no refusal is reached (R67, R178). -/
def Obligations.StepNeverStops : Prop := ∀ s : State, s.Inv → ∃ t, step s = .next t

/-- R293, R297: an operation that runs on by itself ends: within `1 + RETRIES · (number of reads per attempt)` port requests
(one receive for RECV, none counted for the others), each answered, it reaches its finish. A receive attempt makes at most
REGION_SIZE + 1 reads, one more than R293 counts: the model's reading of R160 to R162 (log entry 8). -/
def Obligations.OperationsEnd : Prop :=
  ∀ s : State, s.Inv → s.env.agenda = [] →
    let attempts :=
      if opAttempts (cmdOp s.regs.cmd) then (cmdRetries s.regs.cmd).toNat else if cmdOp s.regs.cmd = 0x08 then 1 else 0
    ∃ n t, n ≤ 2 * (1 + attempts * (0x40000 + 1)) + 1 ∧ runSteps n s = .next t ∧ t.eng = .idle ∧
      (s.eng ≠ .idle → t.regs.done = true ∧ t.regs.busy = false)

/-! ## Whole operations -/

/-- R180: RECV of a wire stream delivered in chunks stores their concatenation up to the first chunk that does not end
in 0x7D, and leaves the rest in the port. -/
def Obligations.ReceiveReassembles : Prop :=
  ∀ (s : State) (j : Job) (chunks : List (List Byte)) (last : List Byte) (rest : List ReadAnswer),
    s.env.agenda = [] → s.eng = .run j .start → j.op = 0x08 →
    (∀ c ∈ chunks, c.getLast? = some 0x7D) → last ≠ [] → last.getLast? ≠ some 0x7D →
    (∀ c ∈ last :: chunks, c.length ≤ s.env.rxChunkMax) →
    (chunks.flatten ++ last).length ≤ 0x40000 →
    s.env.portReads = chunks.map ReadAnswer.ok ++ .ok last :: rest →
    ∃ t, runSteps (2 * chunks.length + 3) s = .next t ∧ t.eng = .idle ∧ t.regs.errcode = .none ∧
      t.regs.done = true ∧ t.regs.rxwLen.toNat = (chunks.flatten ++ last).length ∧
      t.bytesAt 0x80000 (chunks.flatten ++ last).length = chunks.flatten ++ last ∧ t.env.portReads = rest

/-- R182: when RXW holds the wire form of a frame that BUILD makes, DECODE in the same mode succeeds with the frame's
command, length and payload; when one byte of the checksummed region was changed before stuffing, it reports
CHECKSUM_MISMATCH: in INTERNET_SUM mode with every table, in CRC mode with the spec's table (log entry 5). -/
def Obligations.BuiltFrameVerifies : Prop :=
  ∀ (fcmd retries cmd : Byte) (p : List Byte) (s : State) (j : Job), s.eng = .run j .start → p.length ≤ 65535 →
    let f := logicalFrame s.env.crcTable j.m j.le cmd p
    (s.bytesAt 0x80000 s.regs.rxwLen.toNat = stuff f → s.regs.rxwLen.toNat ≤ 0x40000 →
      ∃ t, exec (.decode fcmd retries) s = .next t ∧ t.eng = .idle ∧ t.regs.errcode = .none ∧ t.regs.rvalid = true ∧
        respCmd t.regs.resp = cmd ∧ (respLenf t.regs.resp).toNat = p.length ∧ t.regs.respPlen.toNat = p.length ∧
        t.bytesAt 0xC0005 p.length = p) ∧
    (∀ (k : Nat) (b : Byte), j.m = .internetSum ∨ s.env.crcTable = crc16Table →
      1 ≤ k → k < p.length + 5 → b ≠ byteOf f k →
      s.bytesAt 0x80000 s.regs.rxwLen.toNat = stuff (f.set k b) → s.regs.rxwLen.toNat ≤ 0x40000 →
      ∃ t, exec (.decode fcmd retries) s = .next t ∧ t.eng = .idle ∧ t.regs.errcode = .checksumMismatch ∧
        t.regs.rvalid = s.regs.rvalid)

/-- R172: an EXCHANGE whose write is taken and whose first read brings the whole wire form of a valid frame ends, five
steps after its launch, with NONE, one attempt and the frame as its response; the port was handed the built frame's
wire form. -/
def Obligations.ExchangeOfGoodReply : Prop :=
  ∀ (s : State) (fcmd retries cmd : Byte) (p : List Byte) (writes : List WriteAnswer) (reads : List ReadAnswer),
    s.eng = .idle → s.env.agenda = [] → retries ≠ 0 → p.length ≤ 65535 →
    let sent := logicalFrame s.env.crcTable s.regs.mode s.regs.isumLe fcmd (s.bytesAt 5 s.regs.plen.toNat)
    let reply := stuff (logicalFrame s.env.crcTable s.regs.mode s.regs.isumLe cmd p)
    s.env.portWrites = .ok :: writes → s.env.portReads = .ok reply :: reads →
    reply.length ≤ s.env.rxChunkMax →
    let s0 := busAccess (.write 32 0x004#21 (encode (.exchange fcmd retries))) s
    (∃ s1 j, runSteps 1 s0 = .next s1 ∧ s1.eng = .waitWrite (stuff sent) j ∧
      s1.bytesAt 0 (s.regs.plen.toNat + 8) = sent) ∧
    ∃ t, runSteps 5 s0 = .next t ∧ t.eng = .idle ∧ t.regs.errcode = .none ∧ t.regs.done = true ∧
      t.regs.busy = false ∧ t.regs.rvalid = true ∧ t.regs.attempts = 1 ∧ respCmd t.regs.resp = cmd ∧
      (respLenf t.regs.resp).toNat = p.length ∧ t.regs.respPlen.toNat = p.length ∧
      t.bytesAt 0xC0005 p.length = p ∧ t.env.portWrites = writes ∧ t.env.portReads = reads

/-! ## The host's sequences -/

/-- R225: the chunks of a transfer; and an upload launches its start exchange, one middle exchange for each chunk and its
end exchange, each with its command code and RETRIES (R214 to R216, R202), for every window of at least 1; a download of a
partition's source or of a loader image does so for every window that one payload can hold (R217, R208; that the loader's
exchanges all have the default RETRIES is the model's reading, log entry 21). A source or an image that cannot be read is IoError, and no transfer that is turned away makes a launch
(R217); that it goes from Start to Failed, and that IoError goes before the other errors, are the model's choices (log
entries 32 and 31). -/
def Obligations.TransferAccounting : Prop :=
  ∀ size w : Nat, 1 ≤ w →
    let cs := chunkSizes size w
    cs.length = (size + w - 1) / w ∧ cs.sum = size ∧
    (∀ k, k + 1 < cs.length → cs[k]? = some w) ∧
    (0 < size → cs.getLast? = some (size - w * ((size + w - 1) / w - 1))) ∧
    (∀ k, k < cs.length → (chunkOffsets 0 cs)[k]? = some (k * w)) ∧
    ∀ (P : HostParams) (name : List Half) (data : List Byte), name.length ≤ 36 →
      let count := (size + w - 1) / w
      (∃ script, upload P name size w = .ok script ∧
        script.filter HostOp.launches =
          transferLaunches P.codes.readFlashStart P.codes.readFlashMidst P.codes.readFlashEnd P.policy.transferRetries
            P.policy.defaultRetries P.policy.defaultRetries count) ∧
      (data.length = size → w ≤ 65535 →
        ∃ script, downloadPartition P name (some data) w = .ok script ∧
          script.filter HostOp.launches =
            transferLaunches P.codes.startData P.codes.midstData P.codes.endData P.policy.transferRetries
              P.policy.transferRetries P.policy.defaultRetries count) ∧
      (∀ addr : Nat, data.length = size → w ≤ 65535 →
        ∃ script, downloadImage P addr (some data) w = .ok script ∧
          script.filter HostOp.launches =
            transferLaunches P.codes.startData P.codes.midstData P.codes.endData P.policy.defaultRetries
              P.policy.defaultRetries P.policy.defaultRetries count) ∧
      downloadPartition P name none w = .error .ioError ∧
      (∀ addr : Nat, downloadImage P addr none w = .error .ioError) ∧
      ∀ (e : HostError) (h : HostState) (s : State), h.script = transferOps (.error e) →
        let one := hostStep h s
        let two := hostStep one.1 one.2
        two.2 = s ∧ two.1.script = [] ∧ two.1.failed = some e ∧ two.1.xfer = some (.failed e)

/-- R214: the start payload is 84 bytes: the name, zeros to byte 71, the size field at 72, zeros; a longer name is
ParamError. -/
def Obligations.StartPayloadLayout : Prop :=
  ∀ (name : List Half) (size : List Byte), size.length = 4 →
    (name.length ≤ 36 →
      ∃ p, startPayload name size = .ok p ∧ p.length = 84 ∧
        (∀ (k : Nat) (u : Half), name[k]? = some u → byteOf p (2 * k) = u.setWidth 8 ∧
          byteOf p (2 * k + 1) = (u >>> 8).setWidth 8) ∧
        (∀ k, 2 * name.length ≤ k → k < 72 → byteOf p k = 0) ∧ slice p 72 76 = size ∧
        (∀ k, 76 ≤ k → k < 84 → byteOf p k = 0)) ∧
    (36 < name.length → startPayload name size = .error .paramError)

/-- R203, R214, R218, R219, R220: a response check reads RESP and changes nothing in the block; an accepted code goes on,
and is logged when it is not the expected one (that the host logs every tolerated code is the model's reading, log entry
30); the refusal's code is SizeMismatch and any other code UnexpectedResponse, a transfer in Start, Transferring or End is
then failed, and the host sends nothing more. The first exchange of a download is launched with START_DATA, expects ACK and
has DOWN_SIZE_ERROR as its refusal; the first of an upload is launched with the upload start code and tolerates
DOWN_SIZE_ERROR. That an upload opens its sink before its first exchange, in
Start, is the model's choice (log entries 24 and 32). -/
def Obligations.ResponseCheckFails : Prop :=
  (∀ (h : HostState) (s : State) (accept : List Byte) (refusal : Option Byte) (rest : List HostOp),
    h.script = .checkResp accept refusal :: rest →
    (hostStep h s).2 = { s with env := { s.env with reply := .data s.regs.resp } } ∧
    (respCmd s.regs.resp ∈ accept →
      (hostStep h s).1 =
        { h with
          script := rest
          logged :=
            if accept.headD 0 = respCmd s.regs.resp then h.logged else h.logged ++ [respCmd s.regs.resp] }) ∧
    (respCmd s.regs.resp ∉ accept →
      (hostStep h s).1.script = [] ∧
      (refusal = some (respCmd s.regs.resp) →
        (hostStep h s).1.failed = some .sizeMismatch ∧
        (∀ x ∈ [XferState.start, .transferring, .end_], h.xfer = some x →
          (hostStep h s).1.xfer = some (.failed .sizeMismatch))) ∧
      (refusal ≠ some (respCmd s.regs.resp) →
        (hostStep h s).1.failed = some (.unexpectedResponse (accept.headD 0) (respCmd s.regs.resp)) ∧
        (∀ x ∈ [XferState.start, .transferring, .end_], h.xfer = some x →
          (hostStep h s).1.xfer =
            some (.failed (.unexpectedResponse (accept.headD 0) (respCmd s.regs.resp))))))) ∧
  (∀ (P : HostParams) (n : Byte) (start data : List Byte) (w : Nat),
    ∃ before after, download P n start data w =
        .xfer .start :: before ++ .checkResp [P.codes.ack] (some P.codes.downSizeError) :: after ∧
      (∀ op ∈ before, ∀ accept refusal, op ≠ .checkResp accept refusal) ∧
      before.filter HostOp.launches = [exchangeLaunch P.codes.startData n] ∧ .xfer .transferring ∈ after) ∧
  ∀ (P : HostParams) (name : List Half) (size w : Nat) (script : List HostOp), upload P name size w = .ok script →
    ∃ before after, script =
        [.xfer .start, .file] ++ before ++ .checkResp [P.codes.ack, P.codes.downSizeError] none :: after ∧
      (∀ op ∈ before, ∀ accept refusal, op ≠ .checkResp accept refusal) ∧
      before.filter HostOp.launches = [exchangeLaunch P.codes.readFlashStart P.policy.transferRetries] ∧
      .xfer .transferring ∈ after

/-- R201, R222, R223: every sequence of the bootstrap, of the transfers and of the block-device contract waits right after
each launch. The launches of a bootstrap with readable images and legal windows are those of R207, in its order, with their
codes and RETRIES (R202, R204, R205, R208, R209, R211; the loader downloads as in log entry 21). -/
def Obligations.HostSequencesWait : Prop :=
  ∀ (P : HostParams) (image1 image2 : Option (List Byte)) (op : CliOp) (d : BlockDevice) (bop : BlockOp) (script : List HostOp),
    conforming (bootstrap P image1 image2) = true ∧
    (cliOps P op = some (.ok script) → conforming script = true) ∧
    (blockOps P d bop = some (.ok script) → conforming script = true) ∧
    ∀ data1 data2 : List Byte, image1 = some data1 → image2 = some data2 →
      1 ≤ P.policy.window1 → P.policy.window1 ≤ 65535 → 1 ≤ P.policy.window2 → P.policy.window2 ≤ 65535 →
      let n := P.policy.defaultRetries
      let probeLaunch := HostOp.access (.write 32 0x004#21 (encode (.probe 0x00 P.policy.probeRetries)))
      let connect := exchangeLaunch 0x00 n
      let loader := transferLaunches P.codes.startData P.codes.midstData P.codes.endData n n n
      (bootstrap P image1 image2).filter HostOp.launches =
        [probeLaunch, connect] ++
        loader ((data1.length + P.policy.window1 - 1) / P.policy.window1) ++
        [exchangeLaunch P.codes.execData n, probeLaunch, connect] ++
        loader ((data2.length + P.policy.window2 - 1) / P.policy.window2) ++
        [exchangeLaunch P.codes.execData P.policy.execRetries]

/-- R201, R51: a host that waits right after each launch never makes the block set BUSYERR, whatever the port
answers. -/
def Obligations.WaitingHostNeverBusyErr : Prop :=
  ∀ (y z : System) (n : Nat), conforming y.host.script = true → y.block.Inv → y.block.eng = .idle →
    y.block.env.agenda = [] → y.block.regs.busyerr = false → systemRun n y = .next z →
    z.block.regs.busyerr = false
end

