-- ==== Sys2Proof/Laws/Checksum.lean ====
section
/-! SUPPORT. Bytes and checksums as numbers: the carry loop of the Internet sum keeps the value modulo 0xFFFF (R116). -/

namespace Sys2Proof.Machine

/-! ## Bytes -/

theorem be16_toNat (h l : Byte) : (be16 h l).toNat = h.toNat * 256 + l.toNat := by
  have := l.isLt
  unfold be16; rw [BitVec.toNat_append, ← Nat.shiftLeft_add_eq_or_of_lt (by omega), Nat.shiftLeft_eq]

/-- A value is made of its two bytes. -/
theorem be16_hiByte_loByte (v : Half) : be16 (hiByte v) (loByte v) = v := by
  apply BitVec.eq_of_toNat_eq
  have := v.isLt
  rw [be16_toNat]; simp [hiByte, loByte, Nat.shiftRight_eq_div_pow]; omega

theorem swap16_toNat (v : Half) : (swap16 v).toNat = v.toNat % 256 * 256 + v.toNat / 256 := by
  have := v.isLt
  rw [swap16, be16_toNat]; simp [loByte, hiByte, Nat.shiftRight_eq_div_pow]; omega

/-! ## The table -/

/-- The spec's table has 256 entries (R8, R111). -/
@[simp] theorem crc16Table_wf : crc16Table.wf = true := by simp [CrcTable.wf, crc16Table]

/-- Entry `b` of the spec's table is `g^8(b << 8)` (R111). -/
theorem crcEntry_crc16Table (b : Byte) : crcEntry crc16Table b = iterate crcShift 8 (b ++ 0#8) := by
  have := b.isLt
  simp [crcEntry, crc16Table, List.getD_eq_getElem?_getD, List.getElem?_range this]

/-! ## The Internet sum -/

theorem foldCarry_spec (fuel acc : Nat) (h : acc ≤ fuel) :
    foldCarry fuel acc ≤ 0xFFFF ∧ foldCarry fuel acc % 0xFFFF = acc % 0xFFFF ∧
      (foldCarry fuel acc = 0 ↔ acc = 0) := by
  induction fuel generalizing acc with
  | zero => simp [foldCarry]; omega
  | succ n ih =>
    simp only [foldCarry]
    split
    · have := ih (acc / 0x10000 + acc % 0x10000) (by omega)
      omega
    · omega

theorem isum_toNat (le : Bool) (bs : List Byte) : (isum le bs).toNat = foldCarry (wordSum le bs) (wordSum le bs) := by
  have := (foldCarry_spec (wordSum le bs) _ (Nat.le_refl _)).1
  simp [isum]; omega

/-- The sum keeps the value of the unfolded sum modulo 0xFFFF and is 0 only where that is 0 (R116). -/
theorem isum_spec (le : Bool) (bs : List Byte) :
    (isum le bs).toNat ≤ 0xFFFF ∧ (isum le bs).toNat % 0xFFFF = wordSum le bs % 0xFFFF ∧
      ((isum le bs).toNat = 0 ↔ wordSum le bs = 0) := by
  rw [isum_toNat]; exact foldCarry_spec _ _ (Nat.le_refl _)

end Sys2Proof.Machine
end

