-- ==== Sys2Proof/Laws/Encoding.lean ====
section
/-! SUPPORT. The command word: its fields give back what it was built from, and which words decode (R80 to R84). -/

namespace Sys2Proof.Machine

/-! ## Fields -/

theorem toNat_commandWord (a b c : Byte) : (commandWord a b c).toNat = a.toNat + 256 * b.toNat + 65536 * c.toNat := by
  have := a.isLt; have := b.isLt; have := c.isLt
  unfold commandWord
  rw [BitVec.toNat_append, BitVec.toNat_append, BitVec.toNat_append, ← Nat.shiftLeft_add_eq_or_of_lt (by omega),
    ← Nat.shiftLeft_add_eq_or_of_lt (by omega), ← Nat.shiftLeft_add_eq_or_of_lt (by omega)]
  simp [Nat.shiftLeft_eq]; omega

theorem toNat_opField (w : Word) : (opField w).toNat = w.toNat % 256 := by simp [opField]

theorem toNat_fcmdField (w : Word) : (fcmdField w).toNat = w.toNat / 256 % 256 := by
  simp [fcmdField, Nat.shiftRight_eq_div_pow]

theorem toNat_retriesField (w : Word) : (retriesField w).toNat = w.toNat / 65536 % 256 := by
  simp [retriesField, Nat.shiftRight_eq_div_pow]

theorem opField_commandWord (a b c : Byte) : opField (commandWord a b c) = a := by
  apply BitVec.eq_of_toNat_eq
  have := a.isLt
  rw [toNat_opField, toNat_commandWord]; omega

theorem fcmdField_commandWord (a b c : Byte) : fcmdField (commandWord a b c) = b := by
  apply BitVec.eq_of_toNat_eq
  have := a.isLt; have := b.isLt
  rw [toNat_fcmdField, toNat_commandWord]; omega

theorem retriesField_commandWord (a b c : Byte) : retriesField (commandWord a b c) = c := by
  apply BitVec.eq_of_toNat_eq
  have := a.isLt; have := b.isLt; have := c.isLt
  rw [toNat_retriesField, toNat_commandWord]; omega

/-- A word's fields make the word without its reserved bits (R80). -/
theorem commandWord_fields (w : Word) :
    commandWord (opField w) (fcmdField w) (retriesField w) = w &&& 0x00FFFFFF#32 := by
  apply BitVec.eq_of_toNat_eq
  have := w.isLt
  rw [toNat_commandWord, toNat_opField, toNat_fcmdField, toNat_retriesField, BitVec.toNat_and,
    show (0x00FFFFFF#32).toNat = 2 ^ 24 - 1 by rfl, Nat.and_two_pow_sub_one_eq_mod]
  omega

theorem opField_eq_setWidth (w : Word) : opField w = w.setWidth 8 := by
  apply BitVec.eq_of_toNat_eq; simp [opField]

theorem cmdOp_extractLsb (w : Word) : cmdOp (w.extractLsb' 0 24) = opField w := by
  apply BitVec.eq_of_toNat_eq; simp [cmdOp, opField]

/-! ## Which words decode -/

theorem opcode_range (x : Byte) :
    (1 ≤ x.toNat ∧ x.toNat ≤ 12) ↔
      x = 1 ∨ x = 2 ∨ x = 3 ∨ x = 4 ∨ x = 5 ∨ x = 6 ∨ x = 7 ∨ x = 8 ∨ x = 9 ∨ x = 0xA ∨ x = 0xB ∨ x = 0xC := by
  revert x; decide

theorem decode_of_legal (w : Word) (h1 : 1 ≤ (opField w).toNat) (h2 : (opField w).toNat ≤ 12) :
    ∃ i, decode w = .ok i := by
  unfold decode
  rcases (opcode_range _).1 ⟨h1, h2⟩ with h | h | h | h | h | h | h | h | h | h | h | h <;>
    (rw [h]; exact ⟨_, rfl⟩)

theorem decode_of_illegal (w : Word) (h : (opField w).toNat = 0 ∨ 12 < (opField w).toNat) :
    decode w = .error (.illegalOpcode (opField w)) := by
  have hx := (not_congr (opcode_range (opField w))).1 (by omega)
  simp only [not_or] at hx
  obtain ⟨h1, h2, h3, h4, h5, h6, h7, h8, h9, h10, h11, h12⟩ := hx
  simp only [decode]
  rw [if_neg h1, if_neg h2, if_neg h3, if_neg h4, if_neg h5, if_neg h6, if_neg h7, if_neg h8, if_neg h9, if_neg h10,
    if_neg h11, if_neg h12]

end Sys2Proof.Machine
end

