-- ==== Sys2Proof/Laws/HostProgram.lean ====
section
/-! SUPPORT. What the host's transfer builders and its operation on a local file can do; later proofs cite these instead
of unfolding them. -/

namespace Sys2Proof.Machine

/-- A download that has a sequence has a readable source, a start payload and a legal window, and is the download loop. -/
theorem downloadFrom_ok {P : HostParams} {n : Byte} {start : List Byte → Except HostError (List Byte)}
    {source : Option (List Byte)} {w : Nat} {script : List HostOp} (h : downloadFrom P n start source w = .ok script) :
    ∃ data payload, source = some data ∧ start data = .ok payload ∧ windowLegal w = true ∧
      script = download P n payload data w := by
  unfold downloadFrom at h
  split at h
  · cases h
  · split at h
    · cases h
    · split at h
      · cases h; exact ⟨_, _, rfl, ‹_›, ‹_›, rfl⟩
      · cases h

/-- A readable source with a start payload and a legal window has the download loop as its sequence. -/
theorem downloadFrom_some {P : HostParams} {n : Byte} {start : List Byte → Except HostError (List Byte)}
    {data payload : List Byte} {w : Nat} (hs : start data = .ok payload) (hw : windowLegal w = true) :
    downloadFrom P n start (some data) w = .ok (download P n payload data w) := by
  simp only [downloadFrom, hs, if_pos hw]

@[simp] theorem downloadFrom_none (P : HostParams) (n : Byte) (start : List Byte → Except HostError (List Byte)) (w : Nat) :
    downloadFrom P n start none w = .error .ioError := rfl

@[simp] theorem transferOps_ok (script : List HostOp) : transferOps (.ok script) = script := rfl
@[simp] theorem transferOps_error (e : HostError) : transferOps (.error e) = [.xfer .start, .raise e] := rfl

/-- An operation on a local file goes on, with the rest of the oracle, or fails with IoError (R220). -/
theorem HostState.fileOp_cases (h : HostState) (done : HostState → HostState) :
    (∃ files, h.fileOp done = done { h with files := files }) ∨
      ∃ files, h.fileOp done = { h with files := files }.fail .ioError := by
  unfold HostState.fileOp
  split
  · next hf => exact .inl ⟨[], by rw [← hf]⟩
  · exact .inl ⟨_, rfl⟩
  · exact .inr ⟨_, rfl⟩

/-- Writing payload bytes to BUF launches nothing. -/
@[simp] theorem wrb_launches (off : Nat) (bs : List Byte) : (wrb off bs).filter HostOp.launches = [] := by
  induction bs generalizing off with
  | nil => rfl
  | cons b bs ih => rw [wrb, List.filter_cons, ih]; rfl

/-- An exchange has one launch, that of EXCHANGE with its code and RETRIES (R223). -/
@[simp] theorem xchg_launches (P : HostParams) (code : Byte) (payload : List Byte) (n : Byte) (accept : List Byte)
    (refusal : Option Byte) :
    (xchg P code payload n accept refusal).filter HostOp.launches = [exchangeLaunch code n] := by
  rw [xchg, List.filter_append, wrb_launches]
  unfold waitOp
  split <;> rfl

end Sys2Proof.Machine
end

