-- ==== Sys2Proof/Laws/State.lean ====
section
/-! SUPPORT. What each named update of the state leaves in each field, so that no later proof unfolds an update: one
lemma per field per update, true by definition. -/

namespace Sys2Proof.Machine

@[simp] theorem State.setResult_regs (s : State) (v : Half) :
    (s.setResult v).regs = { s.regs with result := v } := rfl

@[simp] theorem State.setResult_buf (s : State) (v : Half) :
    (s.setResult v).buf = s.buf := rfl

@[simp] theorem State.setResult_eng (s : State) (v : Half) :
    (s.setResult v).eng = s.eng := rfl

@[simp] theorem State.setResult_env (s : State) (v : Half) :
    (s.setResult v).env = s.env := rfl

@[simp] theorem State.setOutlen_regs (s : State) (n : Nat) :
    (s.setOutlen n).regs = { s.regs with outlen := BitVec.ofNat 21 n } := rfl

@[simp] theorem State.setOutlen_buf (s : State) (n : Nat) :
    (s.setOutlen n).buf = s.buf := rfl

@[simp] theorem State.setOutlen_eng (s : State) (n : Nat) :
    (s.setOutlen n).eng = s.eng := rfl

@[simp] theorem State.setOutlen_env (s : State) (n : Nat) :
    (s.setOutlen n).env = s.env := rfl

@[simp] theorem State.setTxfLen_regs (s : State) (n : Nat) :
    (s.setTxfLen n).regs = { s.regs with txfLen := BitVec.ofNat 17 n } := rfl

@[simp] theorem State.setTxfLen_buf (s : State) (n : Nat) :
    (s.setTxfLen n).buf = s.buf := rfl

@[simp] theorem State.setTxfLen_eng (s : State) (n : Nat) :
    (s.setTxfLen n).eng = s.eng := rfl

@[simp] theorem State.setTxfLen_env (s : State) (n : Nat) :
    (s.setTxfLen n).env = s.env := rfl

@[simp] theorem State.setTxwLen_regs (s : State) (n : Nat) :
    (s.setTxwLen n).regs = { s.regs with txwLen := BitVec.ofNat 18 n } := rfl

@[simp] theorem State.setTxwLen_buf (s : State) (n : Nat) :
    (s.setTxwLen n).buf = s.buf := rfl

@[simp] theorem State.setTxwLen_eng (s : State) (n : Nat) :
    (s.setTxwLen n).eng = s.eng := rfl

@[simp] theorem State.setTxwLen_env (s : State) (n : Nat) :
    (s.setTxwLen n).env = s.env := rfl

@[simp] theorem State.setRxwLen_regs (s : State) (n : Nat) :
    (s.setRxwLen n).regs = { s.regs with rxwLen := BitVec.ofNat 19 n } := rfl

@[simp] theorem State.setRxwLen_buf (s : State) (n : Nat) :
    (s.setRxwLen n).buf = s.buf := rfl

@[simp] theorem State.setRxwLen_eng (s : State) (n : Nat) :
    (s.setRxwLen n).eng = s.eng := rfl

@[simp] theorem State.setRxwLen_env (s : State) (n : Nat) :
    (s.setRxwLen n).env = s.env := rfl

@[simp] theorem State.setRxfLen_regs (s : State) (n : Nat) :
    (s.setRxfLen n).regs = { s.regs with rxfLen := BitVec.ofNat 19 n } := rfl

@[simp] theorem State.setRxfLen_buf (s : State) (n : Nat) :
    (s.setRxfLen n).buf = s.buf := rfl

@[simp] theorem State.setRxfLen_eng (s : State) (n : Nat) :
    (s.setRxfLen n).eng = s.eng := rfl

@[simp] theorem State.setRxfLen_env (s : State) (n : Nat) :
    (s.setRxfLen n).env = s.env := rfl

@[simp] theorem State.setAttempts_regs (s : State) (k : Byte) :
    (s.setAttempts k).regs = { s.regs with attempts := k } := rfl

@[simp] theorem State.setAttempts_buf (s : State) (k : Byte) :
    (s.setAttempts k).buf = s.buf := rfl

@[simp] theorem State.setAttempts_eng (s : State) (k : Byte) :
    (s.setAttempts k).eng = s.eng := rfl

@[simp] theorem State.setAttempts_env (s : State) (k : Byte) :
    (s.setAttempts k).env = s.env := rfl

@[simp] theorem State.setBusyErr_regs (s : State) :
    s.setBusyErr.regs = { s.regs with busyerr := true } := rfl

@[simp] theorem State.setBusyErr_buf (s : State) :
    s.setBusyErr.buf = s.buf := rfl

@[simp] theorem State.setBusyErr_eng (s : State) :
    s.setBusyErr.eng = s.eng := rfl

@[simp] theorem State.setBusyErr_env (s : State) :
    s.setBusyErr.env = s.env := rfl

@[simp] theorem State.setResponse_regs (s : State) (w : Word) (c : Half) (n : Nat) :
    (s.setResponse w c n).regs = { s.regs with resp := w, respCks := c, respPlen := BitVec.ofNat 18 n, rvalid := true } := rfl

@[simp] theorem State.setResponse_buf (s : State) (w : Word) (c : Half) (n : Nat) :
    (s.setResponse w c n).buf = s.buf := rfl

@[simp] theorem State.setResponse_eng (s : State) (w : Word) (c : Half) (n : Nat) :
    (s.setResponse w c n).eng = s.eng := rfl

@[simp] theorem State.setResponse_env (s : State) (w : Word) (c : Half) (n : Nat) :
    (s.setResponse w c n).env = s.env := rfl

@[simp] theorem State.setReply_regs (s : State) (r : Reply) :
    (s.setReply r).regs = s.regs := rfl

@[simp] theorem State.setReply_buf (s : State) (r : Reply) :
    (s.setReply r).buf = s.buf := rfl

@[simp] theorem State.setReply_eng (s : State) (r : Reply) :
    (s.setReply r).eng = s.eng := rfl

@[simp] theorem State.setReply_env (s : State) (r : Reply) :
    (s.setReply r).env = { s.env with reply := r } := rfl

@[simp] theorem State.setAgenda_regs (s : State) (es : List Event) :
    (s.setAgenda es).regs = s.regs := rfl

@[simp] theorem State.setAgenda_buf (s : State) (es : List Event) :
    (s.setAgenda es).buf = s.buf := rfl

@[simp] theorem State.setAgenda_eng (s : State) (es : List Event) :
    (s.setAgenda es).eng = s.eng := rfl

@[simp] theorem State.setAgenda_env (s : State) (es : List Event) :
    (s.setAgenda es).env = { s.env with agenda := es } := rfl

@[simp] theorem State.setEng_regs (s : State) (e : Engine) :
    (s.setEng e).regs = s.regs := rfl

@[simp] theorem State.setEng_buf (s : State) (e : Engine) :
    (s.setEng e).buf = s.buf := rfl

@[simp] theorem State.setEng_eng (s : State) (e : Engine) :
    (s.setEng e).eng = e := rfl

@[simp] theorem State.setEng_env (s : State) (e : Engine) :
    (s.setEng e).env = s.env := rfl

@[simp] theorem finish_regs (e : ErrCode) (s : State) :
    (finish e s).regs = s.regs.finished e := rfl

@[simp] theorem finish_buf (e : ErrCode) (s : State) :
    (finish e s).buf = s.buf := rfl

@[simp] theorem finish_eng (e : ErrCode) (s : State) :
    (finish e s).eng = .idle := rfl

@[simp] theorem finish_env (e : ErrCode) (s : State) :
    (finish e s).env = s.env := rfl

@[simp] theorem launch_regs (w : Word) (s : State) :
    (launch w s).regs = s.regs.launched w := rfl

@[simp] theorem launch_buf (w : Word) (s : State) :
    (launch w s).buf = s.buf := rfl

@[simp] theorem launch_eng (w : Word) (s : State) :
    (launch w s).eng = .run (launchedJob s.regs w) .start := rfl

@[simp] theorem launch_env (w : Word) (s : State) :
    (launch w s).env = s.env := rfl

@[simp] theorem resetStep_regs (s : State) :
    (resetStep s).regs = Regs.reset := rfl

@[simp] theorem resetStep_buf (s : State) :
    (resetStep s).buf = ⟨[]⟩ := rfl

@[simp] theorem resetStep_eng (s : State) :
    (resetStep s).eng = .idle := rfl

@[simp] theorem resetStep_env (s : State) :
    (resetStep s).env = { discardRequest s.eng s.env with reply := .noAccess, epoch := s.env.epoch + 1 } := rfl

@[simp] theorem Regs.finished_mode (r : Regs) (e : ErrCode) :
    (r.finished e).mode = r.mode := rfl

@[simp] theorem Regs.finished_isumLe (r : Regs) (e : ErrCode) :
    (r.finished e).isumLe = r.isumLe := rfl

@[simp] theorem Regs.finished_ie (r : Regs) (e : ErrCode) :
    (r.finished e).ie = r.ie := rfl

@[simp] theorem Regs.finished_cmd (r : Regs) (e : ErrCode) :
    (r.finished e).cmd = r.cmd := rfl

@[simp] theorem Regs.finished_busy (r : Regs) (e : ErrCode) :
    (r.finished e).busy = false := rfl

@[simp] theorem Regs.finished_done (r : Regs) (e : ErrCode) :
    (r.finished e).done = true := rfl

@[simp] theorem Regs.finished_rvalid (r : Regs) (e : ErrCode) :
    (r.finished e).rvalid = r.rvalid := rfl

@[simp] theorem Regs.finished_busyerr (r : Regs) (e : ErrCode) :
    (r.finished e).busyerr = r.busyerr := rfl

@[simp] theorem Regs.finished_errcode (r : Regs) (e : ErrCode) :
    (r.finished e).errcode = e := rfl

@[simp] theorem Regs.finished_attempts (r : Regs) (e : ErrCode) :
    (r.finished e).attempts = r.attempts := rfl

@[simp] theorem Regs.finished_seed (r : Regs) (e : ErrCode) :
    (r.finished e).seed = r.seed := rfl

@[simp] theorem Regs.finished_result (r : Regs) (e : ErrCode) :
    (r.finished e).result = r.result := rfl

@[simp] theorem Regs.finished_src (r : Regs) (e : ErrCode) :
    (r.finished e).src = r.src := rfl

@[simp] theorem Regs.finished_dst (r : Regs) (e : ErrCode) :
    (r.finished e).dst = r.dst := rfl

@[simp] theorem Regs.finished_len (r : Regs) (e : ErrCode) :
    (r.finished e).len = r.len := rfl

@[simp] theorem Regs.finished_outlen (r : Regs) (e : ErrCode) :
    (r.finished e).outlen = r.outlen := rfl

@[simp] theorem Regs.finished_plen (r : Regs) (e : ErrCode) :
    (r.finished e).plen = r.plen := rfl

@[simp] theorem Regs.finished_txfLen (r : Regs) (e : ErrCode) :
    (r.finished e).txfLen = r.txfLen := rfl

@[simp] theorem Regs.finished_txwLen (r : Regs) (e : ErrCode) :
    (r.finished e).txwLen = r.txwLen := rfl

@[simp] theorem Regs.finished_rxwLen (r : Regs) (e : ErrCode) :
    (r.finished e).rxwLen = r.rxwLen := rfl

@[simp] theorem Regs.finished_rxfLen (r : Regs) (e : ErrCode) :
    (r.finished e).rxfLen = r.rxfLen := rfl

@[simp] theorem Regs.finished_resp (r : Regs) (e : ErrCode) :
    (r.finished e).resp = r.resp := rfl

@[simp] theorem Regs.finished_respCks (r : Regs) (e : ErrCode) :
    (r.finished e).respCks = r.respCks := rfl

@[simp] theorem Regs.finished_respPlen (r : Regs) (e : ErrCode) :
    (r.finished e).respPlen = r.respPlen := rfl

@[simp] theorem Regs.launched_mode (r : Regs) (w : Word) :
    (r.launched w).mode = r.mode := rfl

@[simp] theorem Regs.launched_isumLe (r : Regs) (w : Word) :
    (r.launched w).isumLe = r.isumLe := rfl

@[simp] theorem Regs.launched_ie (r : Regs) (w : Word) :
    (r.launched w).ie = r.ie := rfl

@[simp] theorem Regs.launched_cmd (r : Regs) (w : Word) :
    (r.launched w).cmd = w.extractLsb' 0 24 := rfl

@[simp] theorem Regs.launched_busy (r : Regs) (w : Word) :
    (r.launched w).busy = true := rfl

@[simp] theorem Regs.launched_done (r : Regs) (w : Word) :
    (r.launched w).done = false := rfl

@[simp] theorem Regs.launched_rvalid (r : Regs) (w : Word) :
    (r.launched w).rvalid = if clearsRvalid (opField w) then false else r.rvalid := rfl

@[simp] theorem Regs.launched_busyerr (r : Regs) (w : Word) :
    (r.launched w).busyerr = r.busyerr := rfl

@[simp] theorem Regs.launched_errcode (r : Regs) (w : Word) :
    (r.launched w).errcode = .none := rfl

@[simp] theorem Regs.launched_attempts (r : Regs) (w : Word) :
    (r.launched w).attempts = 0 := rfl

@[simp] theorem Regs.launched_seed (r : Regs) (w : Word) :
    (r.launched w).seed = r.seed := rfl

@[simp] theorem Regs.launched_result (r : Regs) (w : Word) :
    (r.launched w).result = r.result := rfl

@[simp] theorem Regs.launched_src (r : Regs) (w : Word) :
    (r.launched w).src = r.src := rfl

@[simp] theorem Regs.launched_dst (r : Regs) (w : Word) :
    (r.launched w).dst = r.dst := rfl

@[simp] theorem Regs.launched_len (r : Regs) (w : Word) :
    (r.launched w).len = r.len := rfl

@[simp] theorem Regs.launched_outlen (r : Regs) (w : Word) :
    (r.launched w).outlen = r.outlen := rfl

@[simp] theorem Regs.launched_plen (r : Regs) (w : Word) :
    (r.launched w).plen = r.plen := rfl

@[simp] theorem Regs.launched_txfLen (r : Regs) (w : Word) :
    (r.launched w).txfLen = r.txfLen := rfl

@[simp] theorem Regs.launched_txwLen (r : Regs) (w : Word) :
    (r.launched w).txwLen = r.txwLen := rfl

@[simp] theorem Regs.launched_rxwLen (r : Regs) (w : Word) :
    (r.launched w).rxwLen = r.rxwLen := rfl

@[simp] theorem Regs.launched_rxfLen (r : Regs) (w : Word) :
    (r.launched w).rxfLen = r.rxfLen := rfl

@[simp] theorem Regs.launched_resp (r : Regs) (w : Word) :
    (r.launched w).resp = r.resp := rfl

@[simp] theorem Regs.launched_respCks (r : Regs) (w : Word) :
    (r.launched w).respCks = r.respCks := rfl

@[simp] theorem Regs.launched_respPlen (r : Regs) (w : Word) :
    (r.launched w).respPlen = r.respPlen := rfl

@[simp] theorem launchedJob_op (r : Regs) (w : Word) :
    (launchedJob r w).op = opField w := rfl

@[simp] theorem launchedJob_k (r : Regs) (w : Word) :
    (launchedJob r w).k = 0 := rfl

@[simp] theorem launchedJob_lasterr (r : Regs) (w : Word) :
    (launchedJob r w).lasterr = .none := rfl

@[simp] theorem launchedJob_m (r : Regs) (w : Word) :
    (launchedJob r w).m = r.mode := rfl

@[simp] theorem launchedJob_le (r : Regs) (w : Word) :
    (launchedJob r w).le = r.isumLe := rfl

end Sys2Proof.Machine
end

