-- ==== Sys2Proof/Laws/Memory.lean ====
section
/-! SUPPORT. BUF: a byte reads as what was written last, a write leaves every other byte alone, and every memory
operation keeps the canonical form. -/

namespace Sys2Proof.Machine

/-! ## One byte -/

theorem lookup_insert (a b : Nat) (v : Byte) (l : List Host.Cell) :
    lookup (insert a v l) b = if a = b then some v else lookup l b := by
  induction l with
  | nil => simp [insert, lookup]
  | cons p l ih =>
    obtain ⟨x, c⟩ := p
    by_cases h1 : a < x
    · simp [insert, lookup, h1]
    · by_cases h2 : a = x
      · subst h2
        simp only [insert, lookup, if_neg h1, if_true]
        split <;> simp_all
      · simp only [insert, lookup, if_neg h1, if_neg h2, ih]
        split <;> split <;> simp_all

theorem Memory.byte?_write (m : Memory) (a b : Nat) (v : Byte) :
    (m.write a v).byte? b = if a = b then some v else m.byte? b := lookup_insert a b v m.cells

theorem Memory.byte_write (m : Memory) (e a b : Nat) (v : Byte) :
    (m.write a v).byte e b = if a = b then v else m.byte e b := by
  simp only [Memory.byte, Memory.byte?_write]; split <;> rfl

/-! ## Spans -/

theorem Memory.byte?_writeSpan (bs : List Byte) (m : Memory) (off b : Nat) :
    (m.writeSpan off bs).byte? b = if off ≤ b ∧ b < off + bs.length then bs[b - off]? else m.byte? b := by
  induction bs generalizing m off with
  | nil => simp only [Memory.writeSpan, List.length_nil]; rw [if_neg (by omega)]
  | cons v bs ih =>
    simp only [Memory.writeSpan, ih, Memory.byte?_write, List.length_cons]
    by_cases h : off = b
    · subst h; rw [if_neg (by omega), if_pos rfl, if_pos (by omega)]; simp
    · by_cases h2 : off + 1 ≤ b ∧ b < off + 1 + bs.length
      · rw [if_pos h2, if_pos (by omega), show b - off = b - (off + 1) + 1 by omega]; simp
      · rw [if_neg h2, if_neg h, if_neg (by omega)]

/-- A byte after a span is written: the span's own byte inside, the old one outside. -/
theorem Memory.byte_writeSpan (bs : List Byte) (m : Memory) (e off b : Nat) :
    (m.writeSpan off bs).byte e b =
      if off ≤ b ∧ b < off + bs.length then bs.getD (b - off) 0 else m.byte e b := by
  simp only [Memory.byte, Memory.byte?_writeSpan]
  split
  · next h =>
    have hl : b - off < bs.length := by omega
    simp [hl, List.getD]
  · rfl

theorem Memory.byte_writeSpan_outside (bs : List Byte) (m : Memory) (e off b : Nat)
    (h : b < off ∨ off + bs.length ≤ b) : (m.writeSpan off bs).byte e b = m.byte e b := by
  rw [Memory.byte_writeSpan, if_neg (by omega)]

@[simp] theorem Memory.length_readSpan (m : Memory) (e off n : Nat) : (m.readSpan e off n).length = n := by
  induction n generalizing off with
  | zero => rfl
  | succ n ih => simp [Memory.readSpan, ih]

theorem Memory.getElem_readSpan (m : Memory) (e off n i : Nat) (h : i < (m.readSpan e off n).length) :
    (m.readSpan e off n)[i] = m.byte e (off + i) := by
  induction n generalizing off i with
  | zero => simp [Memory.readSpan] at h
  | succ n ih =>
    cases i with
    | zero => simp [Memory.readSpan]
    | succ i =>
      simp only [Memory.readSpan, List.getElem_cons_succ, ih]
      rw [show off + 1 + i = off + (i + 1) by omega]

/-- Two contents that agree on a span read the same there. -/
theorem Memory.readSpan_congr (m m' : Memory) (e e' off off' n : Nat)
    (h : ∀ i, i < n → m.byte e (off + i) = m'.byte e' (off' + i)) :
    m.readSpan e off n = m'.readSpan e' off' n := by
  apply List.ext_getElem
  · simp
  · intro i h1 h2
    rw [Memory.getElem_readSpan, Memory.getElem_readSpan]
    exact h i (by simpa using h1)

/-- Reading a span that was just written gives the bytes written. -/
theorem Memory.readSpan_writeSpan (bs : List Byte) (m : Memory) (e off : Nat) :
    (m.writeSpan off bs).readSpan e off bs.length = bs := by
  apply List.ext_getElem
  · simp
  · intro i h1 h2
    rw [Memory.getElem_readSpan, Memory.byte_writeSpan, if_pos (by omega)]
    simp [List.getD, h2]

/-- A write outside a span leaves it alone. -/
theorem Memory.readSpan_writeSpan_outside (bs : List Byte) (m : Memory) (e off off' n : Nat)
    (h : off' + n ≤ off ∨ off + bs.length ≤ off') :
    (m.writeSpan off bs).readSpan e off' n = m.readSpan e off' n :=
  Memory.readSpan_congr _ _ _ _ _ _ _ fun i hi => Memory.byte_writeSpan_outside bs m e off _ (by omega)

theorem Memory.readSpan_append (m : Memory) (e off n k : Nat) :
    m.readSpan e off (n + k) = m.readSpan e off n ++ m.readSpan e (off + n) k := by
  induction n generalizing off with
  | zero => simp [Memory.readSpan]
  | succ n ih =>
    rw [show n + 1 + k = (n + k) + 1 by omega]
    simp only [Memory.readSpan, ih, List.cons_append]
    rw [show off + 1 + n = off + (n + 1) by omega]

@[simp] theorem State.length_bytesAt (s : State) (off n : Nat) : (s.bytesAt off n).length = n :=
  Memory.length_readSpan ..

/-! ## Canonical form -/

theorem risingFrom_mono (l : List Host.Cell) {lo lo' : Nat} (hle : lo' ≤ lo) (h : risingFrom lo l = true) :
    risingFrom lo' l = true := by
  cases l with
  | nil => rfl
  | cons p l =>
    simp only [risingFrom, Bool.and_eq_true, decide_eq_true_eq] at h ⊢
    exact ⟨⟨by omega, h.1.2⟩, h.2⟩

theorem risingFrom_insert (a : Nat) (v : Byte) (ha : a < Config.bufSize) (l : List Host.Cell) (lo : Nat)
    (hlo : lo ≤ a) (h : risingFrom lo l = true) : risingFrom lo (insert a v l) = true := by
  induction l generalizing lo with
  | nil => simp [insert, risingFrom, hlo, ha]
  | cons p l ih =>
    obtain ⟨x, c⟩ := p
    simp only [risingFrom, Bool.and_eq_true, decide_eq_true_eq] at h
    obtain ⟨⟨h1, h2⟩, h3⟩ := h
    by_cases c1 : a < x
    · simp [insert, c1, risingFrom, hlo, ha, h2, h3]
    · by_cases c2 : a = x
      · subst c2; simp [insert, risingFrom, h1, h2, h3]
      · simp only [insert, if_neg c1, if_neg c2, risingFrom, Bool.and_eq_true, decide_eq_true_eq]
        exact ⟨⟨h1, h2⟩, ih (x + 1) (by omega) h3⟩

theorem Memory.wf_write (m : Memory) (a : Nat) (v : Byte) (ha : a < Config.bufSize) (h : m.wf = true) :
    (m.write a v).wf = true := risingFrom_insert a v ha m.cells 0 (Nat.zero_le a) h

/-- Every write of a span inside BUF keeps the canonical form. -/
theorem Memory.wf_writeSpan (bs : List Byte) (m : Memory) (off : Nat) (hs : off + bs.length ≤ Config.bufSize)
    (h : m.wf = true) : (m.writeSpan off bs).wf = true := by
  induction bs generalizing m off with
  | nil => exact h
  | cons v bs ih =>
    simp only [List.length_cons] at hs
    exact ih _ _ (by omega) (Memory.wf_write m off v (by omega) h)

theorem State.reset_buf_wf : State.reset.buf.wf = true := rfl

theorem lookup_none_of_lt (l : List Host.Cell) (lo a : Nat) (h : risingFrom lo l = true) (ha : a < lo) :
    lookup l a = none := by
  induction l generalizing lo with
  | nil => rfl
  | cons p l ih =>
    obtain ⟨x, c⟩ := p
    simp only [risingFrom, Bool.and_eq_true, decide_eq_true_eq] at h
    rw [lookup, if_neg (by omega)]
    exact ih (x + 1) h.2 (by omega)

theorem cells_ext (l l' : List Host.Cell) (lo : Nat) (h : risingFrom lo l = true) (h' : risingFrom lo l' = true)
    (heq : ∀ a, lookup l a = lookup l' a) : l = l' := by
  induction l generalizing l' lo with
  | nil =>
    cases l' with
    | nil => rfl
    | cons p l' => obtain ⟨x, c⟩ := p; have := heq x; simp [lookup] at this
  | cons p l ih =>
    obtain ⟨x, c⟩ := p
    cases l' with
    | nil => have := heq x; simp [lookup] at this
    | cons p' l' =>
      obtain ⟨y, d⟩ := p'
      have hx := h; have hy := h'
      simp only [risingFrom, Bool.and_eq_true, decide_eq_true_eq] at hx hy
      have hxy : x = y := by
        rcases Nat.lt_trichotomy x y with hlt | he | hlt
        · have := heq x
          simp only [lookup, if_true, if_neg (show ¬ y = x by omega)] at this
          rw [lookup_none_of_lt l' (y + 1) x hy.2 (by omega)] at this; cases this
        · exact he
        · have := heq y
          simp only [lookup, if_true, if_neg (show ¬ x = y by omega)] at this
          rw [lookup_none_of_lt l (x + 1) y hx.2 (by omega)] at this; cases this
      subst hxy
      have hc : c = d := by have := heq x; simpa [lookup] using this
      subst hc
      congr 1
      refine ih l' (x + 1) hx.2 hy.2 fun a => ?_
      have := heq a
      simp only [lookup] at this
      by_cases hxa : x = a
      · subst hxa; rw [lookup_none_of_lt l (x + 1) x hx.2 (by omega), lookup_none_of_lt l' (x + 1) x hy.2 (by omega)]
      · simpa [hxa] using this

/-- Contents in canonical form that hold the same written bytes are the same data. -/
theorem Memory.ext_of_wf (m m' : Memory) (h : m.wf = true) (h' : m'.wf = true)
    (heq : ∀ a, m.byte? a = m'.byte? a) : m = m' := by
  have := cells_ext m.cells m'.cells 0 h h' heq
  cases m; cases m'; simp_all

end Sys2Proof.Machine
end

