-- ==== Sys2Proof/Laws/Ops.lean ====
section
/-! SUPPORT. One lemma per shared operation that says once what it can do; later proofs cite these instead of
unfolding the operation. -/

namespace Sys2Proof.Machine

/-! ## Sequencing, BUF access, finish, port requests -/

@[simp] theorem andThen_next (s : State) (k : State → Result) : andThen (.next s) k = k s := rfl

theorem andThen_eq_next {r : Result} {k : State → Result} {t : State} :
    andThen r k = .next t ↔ ∃ s, r = .next s ∧ k s = .next t := by
  cases r <;> simp [andThen]

theorem spanLegal_iff {off n : Nat} : spanLegal off n = true ↔ off + n ≤ Config.bufSize := by
  simp [spanLegal]

theorem spanLegal_false {off n : Nat} (h : ¬ off + n ≤ Config.bufSize) : spanLegal off n = false := by
  simpa [spanLegal] using h

theorem memReadThen_of_le {off n : Nat} (s : State) (k : List Byte → Result) (h : off + n ≤ Config.bufSize) :
    memReadThen off n s k = k (s.bytesAt off n) := by
  rw [memReadThen, if_pos (spanLegal_iff.2 h)]

theorem memReadThen_eq_next {off n : Nat} {s t : State} {k : List Byte → Result} :
    memReadThen off n s k = .next t ↔ off + n ≤ Config.bufSize ∧ k (s.bytesAt off n) = .next t := by
  unfold memReadThen; split <;> simp_all [spanLegal_iff]

theorem memWrite_of_le {off : Nat} {bs : List Byte} (s : State) (h : off + bs.length ≤ Config.bufSize) :
    memWrite off bs s = .next { s with buf := s.buf.writeSpan off bs } := by
  rw [memWrite, if_pos (spanLegal_iff.2 h)]

theorem memWrite_eq_next {off : Nat} {bs : List Byte} {s t : State} :
    memWrite off bs s = .next t ↔
      off + bs.length ≤ Config.bufSize ∧ t = { s with buf := s.buf.writeSpan off bs } := by
  unfold memWrite
  split
  · next h => simp only [Host.Outcome.next.injEq, spanLegal_iff.1 h, true_and]; exact eq_comm
  · next h => simp only [reduceCtorEq, false_iff, not_and]; exact fun h2 => absurd (spanLegal_iff.2 h2) h

@[simp] theorem finishWith_eq (e : ErrCode) (s : State) : finishWith e s = .next (finish e s) := rfl

@[simp] theorem portWrite_eq (bytes : List Byte) (j : Job) (s : State) :
    portWrite bytes j s = .next (s.setEng (.waitWrite bytes j)) := rfl

@[simp] theorem portRead_eq (j : Job) (s : State) :
    portRead j s = .next (s.setEng (.waitRead s.env.rxChunkMax j)) := rfl

theorem atStart_of_eng {s : State} {j : Job} (body : Job → Result) (h : s.eng = .run j .start) :
    atStart s body = body j := by rw [atStart, h]

/-- A body that runs whole from its start answers a next state only there. -/
theorem atStart_eq_next {s t : State} {body : Job → Result} (h : atStart s body = .next t) :
    ∃ j, s.eng = .run j .start ∧ body j = .next t := by
  unfold atStart at h
  split at h
  · next j heq => exact ⟨j, heq, h⟩
  · cases h
  · cases h

/-! ## Checksum and codec operations -/

/-- CRC16, ISUM and CKSUM: PARAM for an illegal span, else RESULT (R119 to R121). -/
theorem checksumOp_of_eng {s : State} {j : Job} (f : Job → List Byte → Half) (h : s.eng = .run j .start) :
    checksumOp f s =
      if s.regs.src.toNat + s.regs.len.toNat ≤ Config.bufSize then
        .next (finish .none (s.setResult (f j (s.bytesAt s.regs.src.toNat s.regs.len.toNat))))
      else .next (finish .param s) := by
  rw [checksumOp, atStart_of_eng _ h]
  by_cases hs : s.regs.src.toNat + s.regs.len.toNat ≤ Config.bufSize
  · rw [if_pos hs, spanLegal_iff.2 hs, memReadThen_of_le _ _ hs]; simp
  · rw [if_neg hs, spanLegal_false hs]; rfl

/-- The end of STUFF and UNSTUFF (R137, R138). -/
theorem storeOutput_eq (out : List Byte) (s : State) :
    storeOutput out s =
      if s.regs.dst.toNat + out.length ≤ Config.bufSize then
        .next (finish .none { s.setOutlen out.length with buf := s.buf.writeSpan s.regs.dst.toNat out })
      else .next (finish .param (s.setOutlen out.length)) := by
  by_cases hs : s.regs.dst.toNat + out.length ≤ Config.bufSize
  · have := memWrite_of_le (s.setOutlen out.length) hs
    simp_all [storeOutput, spanLegal_iff]
  · rw [if_neg hs]
    simp only [storeOutput, State.setOutlen_regs, spanLegal_false hs, Bool.not_false, if_true, finishWith_eq]

/-! ## Build and send -/

@[simp] theorem length_frameHead (cmd : Byte) (n : Half) : (frameHead cmd n).length = 5 := rfl

@[simp] theorem length_frameTail (c : Half) : (frameTail c).length = 3 := rfl

/-- What BUF holds after `build` (R155). -/
def builtBuf (cmd : Byte) (n c : Half) (m : Memory) : Memory :=
  (m.writeSpan Config.txfBase (frameHead cmd n)).writeSpan (Config.txfBase + 5 + n.toNat) (frameTail c)

/-- The bytes 1 to 4+n of the frame being built (R93): the head without its delimiter and the payload of TXF. -/
def builtRegion (cmd : Byte) (n : Half) (s : State) : List Byte :=
  (frameHead cmd n).drop 1 ++ s.bytesAt (Config.txfBase + 5) n.toNat

theorem readSpan_after_head (cmd : Byte) (n : Half) (s : State) :
    (s.buf.writeSpan Config.txfBase (frameHead cmd n)).readSpan s.env.epoch (Config.txfBase + 1) (n.toNat + 4) =
      builtRegion cmd n s := by
  rw [Nat.add_comm n.toNat 4, Memory.readSpan_append, builtRegion]
  congr 1
  · have h : frameHead cmd n = [Config.delimiter] ++ (frameHead cmd n).drop 1 := rfl
    have h2 : s.buf.writeSpan Config.txfBase (frameHead cmd n) =
        (s.buf.writeSpan Config.txfBase [Config.delimiter]).writeSpan (Config.txfBase + 1)
          ((frameHead cmd n).drop 1) := rfl
    rw [h2]
    exact Memory.readSpan_writeSpan ((frameHead cmd n).drop 1) _ _ _
  · exact Memory.readSpan_writeSpan_outside _ _ _ _ _ _ (Or.inr (by simp [Config.txfBase]))

/-- `build` always completes: every PLEN fits TXF (R156). -/
theorem build_eq (cmd : Byte) (n : Half) (m : ChecksumMode) (le : Bool) (s : State) :
    build cmd n m le s =
      .next (({ s with buf := builtBuf cmd n (checksum s.env.crcTable m le (builtRegion cmd n s)) s.buf }.setTxfLen
        (n.toNat + 8)).setResult (checksum s.env.crcTable m le (builtRegion cmd n s))) := by
  have hn := n.isLt
  rw [build, memWrite_of_le _ (by simp [Config.txfBase, Config.bufSize]), andThen_next,
    memReadThen_of_le _ _ (by simp only [Config.txfBase, Config.bufSize]; omega)]
  simp only [State.bytesAt, readSpan_after_head]
  rw [memWrite_of_le _ (by simp only [length_frameTail, Config.txfBase, Config.bufSize]; omega)]
  rfl

theorem length_escape_le (b : Byte) : (escape b).length ≤ 2 := by
  unfold escape; split
  · simp
  · split <;> simp

theorem length_escape_pos (b : Byte) : 1 ≤ (escape b).length := by
  unfold escape; split
  · simp
  · split <;> simp

theorem length_stuffRest_le (s : List Byte) : (stuffRest s).length ≤ 2 * s.length - 1 := by
  induction s with
  | nil => simp [stuffRest]
  | cons b s ih =>
    cases s with
    | nil => simp [stuffRest]
    | cons c s =>
      have := length_escape_le b
      simp only [stuffRest, List.length_append, List.length_cons] at ih ⊢; omega

/-- A wire frame is at most twice its logical frame less the two delimiters (R98). -/
theorem length_stuff_le (s : List Byte) : (stuff s).length ≤ 2 * s.length - 2 + (if s.length = 1 then 1 else 0) := by
  cases s with
  | nil => simp [stuff]
  | cons b s =>
    have := length_stuffRest_le s
    cases s with
    | nil => simp [stuff, stuffRest]
    | cons c s => simp only [stuff, List.length_cons] at this ⊢; split <;> omega

/-- `send` up to its request always completes: the wire form of every TXF_LEN fits TXW (R157). -/
theorem sendFrame_eq (j : Job) (s : State) :
    sendFrame j s =
      .next (({ s with buf := s.buf.writeSpan Config.txwBase
                        (stuff (s.bytesAt Config.txfBase s.regs.txfLen.toNat)) }.setTxwLen
          (stuff (s.bytesAt Config.txfBase s.regs.txfLen.toNat)).length).setEng
        (.waitWrite (stuff (s.bytesAt Config.txfBase s.regs.txfLen.toNat)) j)) := by
  have hn := s.regs.txfLen.isLt
  have hl := length_stuff_le (s.bytesAt Config.txfBase s.regs.txfLen.toNat)
  simp only [State.length_bytesAt] at hl
  rw [sendFrame, memReadThen_of_le _ _ (by simp only [Config.txfBase, Config.bufSize]; omega),
    memWrite_of_le _ (by simp only [Config.txwBase, Config.bufSize]; split at hl <;> omega)]
  rfl

/-! ## Receive -/

/-- Storing a chunk behind the bytes already received. -/
def State.storeChunk (s : State) (chunk : List Byte) : State :=
  { s with buf := s.buf.writeSpan (Config.rxwBase + s.regs.rxwLen.toNat) chunk }.setRxwLen
    (s.regs.rxwLen.toNat + chunk.length)

@[simp] theorem State.storeChunk_eng (s : State) (chunk : List Byte) : (s.storeChunk chunk).eng = s.eng := rfl
@[simp] theorem State.storeChunk_env (s : State) (chunk : List Byte) : (s.storeChunk chunk).env = s.env := rfl
@[simp] theorem State.storeChunk_buf (s : State) (chunk : List Byte) :
    (s.storeChunk chunk).buf = s.buf.writeSpan (Config.rxwBase + s.regs.rxwLen.toNat) chunk := rfl
@[simp] theorem State.storeChunk_regs (s : State) (chunk : List Byte) :
    (s.storeChunk chunk).regs =
      { s.regs with rxwLen := BitVec.ofNat 19 (s.regs.rxwLen.toNat + chunk.length) } := rfl

/-- The last of the accumulated bytes is the last byte of the chunk stored last. -/
theorem State.storeChunk_last (s : State) (chunk : List Byte) (hne : chunk ≠ [])
    (hfit : s.regs.rxwLen.toNat + chunk.length ≤ Config.regionSize) :
    (s.storeChunk chunk).byteAt (Config.rxwBase + (s.storeChunk chunk).regs.rxwLen.toNat - 1) =
      chunk.getLast hne := by
  have hpos := List.length_pos_of_ne_nil hne
  have hr : Config.regionSize = 262144 := rfl
  simp only [State.byteAt, State.storeChunk_buf, State.storeChunk_env, State.storeChunk_regs, BitVec.toNat_ofNat]
  rw [Nat.mod_eq_of_lt (by omega), Memory.byte_writeSpan, if_pos (by omega), List.getLast_eq_getElem]
  rw [show Config.rxwBase + (s.regs.rxwLen.toNat + chunk.length) - 1 - (Config.rxwBase + s.regs.rxwLen.toNat) =
    chunk.length - 1 by omega]
  simp [List.getD, hpos]

/-- Everything `receive_one` can do behind a `PortRead` (R160 to R162). -/
theorem receiveChunk_eq (a : ReadAnswer) (j : Job) (s : State) (k : ErrCode → State → Result) :
    receiveChunk a j s k =
      match a with
      | .err => k .transport s
      | .ok chunk =>
        if hne : chunk = [] then k .transport s
        else if s.regs.rxwLen.toNat + chunk.length > Config.regionSize then k .rxOverflow s
        else if chunk.getLast hne ≠ Config.escapeByte then k .none (s.storeChunk chunk)
        else .next ((s.storeChunk chunk).setEng (.waitRead s.env.rxChunkMax j)) := by
  cases a with
  | err => rfl
  | ok chunk =>
    simp only [receiveChunk]
    by_cases hne : chunk = []
    · simp [hne]
    · rw [dif_neg hne, if_neg (by simpa using hne)]
      split
      · rfl
      · next hfit =>
        have hl := State.storeChunk_last s chunk hne (by omega)
        have hr : Config.regionSize = 262144 := rfl
        rw [memWrite_of_le _ (by simp only [Config.rxwBase, Config.bufSize]; omega), andThen_next]
        simp only [State.storeChunk] at hl ⊢
        rw [hl]
        split <;> rfl

/-! ## Decode and verify -/

/-- The state behind `verify`: RESULT is written when the checksum is computed, the response when it matches. -/
def verified (m : ChecksumMode) (le : Bool) (f : List Byte) (s : State) : State :=
  match frameError s.env.crcTable m le f with
  | .none =>
    (s.setResult (checksum s.env.crcTable m le (slice f 1 (f.length - 3)))).setResponse (respOf f) (storedChecksum f)
      (f.length - 8)
  | .checksumMismatch => s.setResult (checksum s.env.crcTable m le (slice f 1 (f.length - 3)))
  | _ => s

theorem getLsbD_respOf (f : List Byte) (i : Nat) :
    (respOf f).getLsbD i =
      if i < 8 then (byteOf f 2).getLsbD i
      else if i - 8 < 8 then (byteOf f 1).getLsbD (i - 8)
      else (be16 (byteOf f 3) (byteOf f 4)).getLsbD (i - 8 - 8) := by
  unfold respOf
  exact (BitVec.getLsbD_append ..).trans (by rw [BitVec.getLsbD_append])

/-- The fields of the response that a verified frame gives (R47). -/
@[simp] theorem respCmd_respOf (f : List Byte) : respCmd (respOf f) = byteOf f 2 := by
  apply BitVec.eq_of_getLsbD_eq; intro i hi
  rw [respCmd, BitVec.getLsbD_extractLsb', getLsbD_respOf]; simp [hi]

@[simp] theorem respRsvd_respOf (f : List Byte) : respRsvd (respOf f) = byteOf f 1 := by
  apply BitVec.eq_of_getLsbD_eq; intro i hi
  rw [respRsvd, BitVec.getLsbD_extractLsb', getLsbD_respOf]; simp [hi]

@[simp] theorem respLenf_respOf (f : List Byte) : respLenf (respOf f) = be16 (byteOf f 3) (byteOf f 4) := by
  apply BitVec.eq_of_getLsbD_eq; intro i hi
  rw [respLenf, BitVec.getLsbD_extractLsb', getLsbD_respOf, if_neg (by omega), if_neg (by omega),
    show 16 + i - 8 - 8 = i by omega]
  simp [hi]

theorem verify_eq (m : ChecksumMode) (le : Bool) (f : List Byte) (s : State) (k : ErrCode → State → Result) :
    verify m le f s k = k (frameError s.env.crcTable m le f) (verified m le f s) := by
  unfold verify verified frameError storedChecksum respOf
  by_cases h1 : f.length = 0 ∨ byteOf f 0 ≠ Config.delimiter ∨ byteOf f (f.length - 1) ≠ Config.delimiter
  · simp only [if_pos h1]
  · simp only [if_neg h1]
    by_cases h2 : f.length < 8
    · simp only [if_pos h2]
    · simp only [if_neg h2]
      by_cases h3 : checksum s.env.crcTable m le (slice f 1 (f.length - 3)) ≠
          be16 (byteOf f (f.length - 3)) (byteOf f (f.length - 2))
      · simp only [if_pos h3]
      · simp only [if_neg h3]

theorem length_unstuff_le (w : List Byte) : (unstuff w).1.length ≤ w.length := by
  fun_induction unstuff w <;> simp_all <;> omega

/-- The state behind the unstuffing of RXW into RXF when it succeeds. -/
def unstuffedState (s : State) : State :=
  let f := (unstuff (s.bytesAt Config.rxwBase s.regs.rxwLen.toNat)).1
  { s with buf := s.buf.writeSpan Config.rxfBase f }.setRxfLen f.length

@[simp] theorem unstuffedState_eng (s : State) : (unstuffedState s).eng = s.eng := rfl
@[simp] theorem unstuffedState_env (s : State) : (unstuffedState s).env = s.env := rfl

/-- Everything `decode_verify` can do, for every RXW_LEN a receive can leave (R165). -/
theorem decodeVerify_eq (m : ChecksumMode) (le : Bool) (s : State) (k : ErrCode → State → Result)
    (h : s.regs.rxwLen.toNat ≤ Config.regionSize) :
    decodeVerify m le s k =
      let w := s.bytesAt Config.rxwBase s.regs.rxwLen.toNat
      if (unstuff w).2 ≠ .none then k (unstuff w).2 (s.setRxfLen 0)
      else k (frameError s.env.crcTable m le (unstuff w).1) (verified m le (unstuff w).1 (unstuffedState s)) := by
  have hr : Config.regionSize = 262144 := rfl
  have hl := length_unstuff_le (s.bytesAt Config.rxwBase s.regs.rxwLen.toNat)
  simp only [State.length_bytesAt] at hl
  simp only [decodeVerify]
  rw [memReadThen_of_le _ _ (by simp only [Config.rxwBase, Config.bufSize]; omega)]
  split
  · rfl
  · rw [memWrite_of_le _ (by simp only [Config.rxfBase, Config.bufSize]; omega), andThen_next, verify_eq]
    rfl

/-! ## Attempts -/

theorem attemptNext_eq (n : Byte) (j : Job) (s : State) :
    attemptNext n j s =
      if j.k < n then
        .next ((((s.setAttempts (j.k + 1)).setRxwLen 0)).setEng
          (.waitRead s.env.rxChunkMax { j with k := j.k + 1 }))
      else .next (finish j.lasterr s) := by
  unfold attemptNext; split <;> rfl

theorem attemptResult_none (n : Byte) (j : Job) (s : State) :
    attemptResult n j .none s = .next (finish .none s) := rfl

theorem attemptResult_error (n : Byte) (j : Job) (e : ErrCode) (s : State) (h : e ≠ .none) :
    attemptResult n j e s = attemptNext n { j with lasterr := e } s := by
  rw [attemptResult, if_neg h]

/-! ## The port and the host -/

/-- What the port's step can do (R153, R266). -/
theorem portStep_cases (s : State) :
    (∃ bytes j, s.eng = .waitWrite bytes j ∧
      portStep s = { s with eng := .run j (.wrote (answerWrite s.env).1), env := (answerWrite s.env).2 }) ∨
    (∃ n j, s.eng = .waitRead n j ∧
      portStep s = { s with eng := .run j (.got (answerRead n s.env).1), env := (answerRead n s.env).2 }) ∨
    ((s.eng = .idle ∨ ∃ j p, s.eng = .run j p) ∧ portStep s = s) := by
  unfold portStep
  split
  · next b j h => exact .inl ⟨b, j, h, rfl⟩
  · next n j h => exact .inr (.inl ⟨n, j, h, rfl⟩)
  · next h => exact .inr (.inr ⟨.inl h, rfl⟩)
  · next j p h => exact .inr (.inr ⟨.inr ⟨j, p, h⟩, rfl⟩)

/-- Every answer of the port to a read keeps the contract of R263. -/
theorem answerRead_length (n : Nat) (e : Env) (chunk : List Byte) (h : (answerRead n e).1 = .ok chunk) :
    chunk.length ≤ n := by
  unfold answerRead at h
  split at h
  · cases h
  · next c rest heq =>
    split at h
    · simp only [ReadAnswer.ok.injEq] at h; subst h; assumption
    · simp only [ReadAnswer.ok.injEq] at h; subst h; exact List.length_take_le ..
  · simp only [drawnRead] at h
    split at h
    · cases h
    · simp only [ReadAnswer.ok.injEq] at h; subst h; exact List.length_take_le ..

/-- An answer to a read changes nothing of the outside world but the port's own fields. -/
theorem answerRead_env (n : Nat) (e : Env) :
    (answerRead n e).2 = { e with portReads := (answerRead n e).2.portReads, draws := (answerRead n e).2.draws } := by
  unfold answerRead
  split
  · rfl
  · split <;> rfl
  · rfl

theorem answerWrite_env (e : Env) :
    (answerWrite e).2 = { e with portWrites := (answerWrite e).2.portWrites, draws := (answerWrite e).2.draws } := by
  unfold answerWrite; split <;> rfl

/-- A discarded request takes its answer with it and changes nothing else of the outside world (R266). -/
theorem discardRequest_env (eng : Engine) (e : Env) :
    discardRequest eng e =
      { e with
        portWrites := (discardRequest eng e).portWrites, portReads := (discardRequest eng e).portReads
        draws := (discardRequest eng e).draws } := by
  unfold discardRequest; split
  · rw [answerWrite_env]
  · rw [answerRead_env]
  · rfl
  · rfl

@[simp] theorem length_leBytes (n : Nat) (v : Word) : (leBytes n v).length = n := by
  induction n generalizing v with
  | zero => rfl
  | succ n ih => simp [leBytes, ih]

theorem bufAccessLegal_bytes {bits off : Nat} (h : bufAccessLegal bits off = true) :
    (bits / 8 = 1 ∨ bits / 8 = 2 ∧ off % 2 = 0 ∨ bits / 8 = 4 ∧ off % 4 = 0) := by
  simp only [bufAccessLegal, Bool.or_eq_true, Bool.and_eq_true, beq_iff_eq] at h
  rcases h with (h | ⟨h, h2⟩) | ⟨h, h2⟩ <;> subst h <;> simp_all

/-- What a register write can do to the block (R26, R32, R33, R51). -/
theorem writeReg_cases (reg : Option Reg) (v : Word) (s : State) :
    (writeReg reg v s = { s with regs := s.regs.writeStatus v }) ∨
    (s.eng = .idle ∧ writeReg reg v s = launch v s) ∨
    (writeReg reg v s = s.setBusyErr) ∨
    (s.regs.busy = false ∧ ∃ r, writeReg reg v s = { s with regs := s.regs.write v r }) ∨
    (writeReg reg v s = s) := by
  cases reg with
  | none => by_cases hb : s.regs.busy = true <;> simp [writeReg, hb]
  | some r =>
    by_cases hb : s.regs.busy = true <;> by_cases he : s.eng = .idle <;> cases r <;> simp_all [writeReg]

/-- What a host access can do to the block: nothing, set BUSYERR, write STATUS bits, launch, write a register field or
write bytes of BUF; the last two only while BUSY = 0 (R51, R66). -/
theorem busAccess_cases (a : Access) (s : State) :
    ∃ t rep, busAccess a s = t.setReply rep ∧
      ((t = s) ∨ (t = s.setBusyErr) ∨ (∃ v, t = { s with regs := s.regs.writeStatus v }) ∨
       (s.eng = .idle ∧ ∃ v, t = launch v s) ∨
       (s.regs.busy = false ∧ ∃ v r, t = { s with regs := s.regs.write v r }) ∨
       (s.regs.busy = false ∧ ∃ off bs, off + bs.length ≤ Config.bufSize ∧
          t = { s with buf := s.buf.writeSpan off bs })) := by
  cases a with
  | read bits off =>
    simp only [busAccess, busRead]
    split
    · split
      · split <;> exact ⟨s, _, rfl, .inl rfl⟩
      · exact ⟨s, _, rfl, .inl rfl⟩
    · split
      · exact ⟨s, _, rfl, .inl rfl⟩
      · split
        · split
          · exact ⟨_, _, rfl, .inr (.inl rfl)⟩
          · exact ⟨s, _, rfl, .inl rfl⟩
        · exact ⟨s, _, rfl, .inl rfl⟩
  | write bits off v =>
    simp only [busAccess, busWrite]
    split
    · split
      · refine ⟨_, _, rfl, ?_⟩
        rcases writeReg_cases (regAt off.toNat) v s with h | ⟨h1, h⟩ | h | ⟨h1, r, h⟩ | h
        · exact .inr (.inr (.inl ⟨v, h⟩))
        · exact .inr (.inr (.inr (.inl ⟨h1, v, h⟩)))
        · exact .inr (.inl h)
        · exact .inr (.inr (.inr (.inr (.inl ⟨h1, v, r, h⟩))))
        · exact .inl h
      · exact ⟨s, _, rfl, .inl rfl⟩
    · split
      · split
        · exact ⟨_, _, rfl, .inr (.inl rfl)⟩
        · exact ⟨s, _, rfl, .inl rfl⟩
      · split
        · next hl =>
          split
          · exact ⟨_, _, rfl, .inr (.inl rfl)⟩
          · next hb =>
            refine ⟨_, _, rfl, .inr (.inr (.inr (.inr (.inr ⟨by simpa using hb, _, _, ?_, rfl⟩))))⟩
            have hlt := off.isLt
            have hw : Config.bufWindow = 1048576 := rfl
            have hz : Config.bufSize = 1048576 := rfl
            rcases bufAccessLegal_bytes hl with h | ⟨h, h2⟩ | ⟨h, h2⟩ <;> rw [length_leBytes, h] <;> omega
        · exact ⟨s, _, rfl, .inl rfl⟩

end Sys2Proof.Machine
end

