-- ==== Sys2Proof/Laws/Operations.lean ====
section
/-! SUPPORT. What a step of an operation can do when the machine goes on, one inversion lemma per operation: a proof about
an operation takes these cases apart and never unfolds its meaning. -/

namespace Sys2Proof.Machine

theorem unstuff_error_mem (w : List Byte) : (unstuff w).2 ∈ [ErrCode.none, .escInvalid, .escTruncated] := by
  fun_induction unstuff w <;> simp_all

theorem frameError_mem (table : CrcTable) (m : ChecksumMode) (le : Bool) (f : List Byte) :
    frameError table m le f ∈ [ErrCode.none, .badDelimiter, .shortFrame, .checksumMismatch] := by
  unfold frameError; split <;> [simp; (split <;> [simp; (split <;> simp)])]

/-- The wire bytes that DECODE reads (R165). -/
def State.received (s : State) : List Byte := s.bytesAt Config.rxwBase s.regs.rxwLen.toNat

/-- Everything `decode_verify` does when the machine goes on, for any RXW_LEN (R165). -/
theorem decodeVerify_next {m : ChecksumMode} {le : Bool} {s t : State} {k : ErrCode → State → Result}
    (h : decodeVerify m le s k = .next t) :
    ((unstuff s.received).2 ∈ [ErrCode.escInvalid, .escTruncated] ∧
      k (unstuff s.received).2 (s.setRxfLen 0) = .next t) ∨
    ((unstuff s.received).2 = .none ∧ Config.rxfBase + (unstuff s.received).1.length ≤ Config.bufSize ∧
      k (frameError s.env.crcTable m le (unstuff s.received).1)
          (verified m le (unstuff s.received).1 (unstuffedState s)) = .next t) := by
  rw [decodeVerify, memReadThen_eq_next] at h
  obtain ⟨-, h⟩ := h
  have hm := unstuff_error_mem s.received
  unfold State.received at hm ⊢
  split at h
  · next he => exact .inl ⟨by simp_all, h⟩
  · next he =>
    rw [andThen_eq_next] at h
    obtain ⟨s', h1, h2⟩ := h
    obtain ⟨h3, rfl⟩ := memWrite_eq_next.1 h1
    rw [verify_eq] at h2
    exact .inr ⟨by simpa using he, h3, h2⟩

/-- Everything `receive_one` does behind a `PortRead` when the machine goes on (R160 to R162). -/
theorem receiveChunk_next {a : ReadAnswer} {j : Job} {s t : State} {k : ErrCode → State → Result}
    (h : receiveChunk a j s k = .next t) :
    (∃ e ∈ [ErrCode.transport, .rxOverflow], k e s = .next t) ∨
    (∃ chunk, a = .ok chunk ∧ chunk ≠ [] ∧ s.regs.rxwLen.toNat + chunk.length ≤ Config.regionSize ∧
      (k .none (s.storeChunk chunk) = .next t ∨
        chunk.getLast? = some Config.escapeByte ∧ t = (s.storeChunk chunk).setEng (.waitRead s.env.rxChunkMax j))) := by
  rw [receiveChunk_eq] at h
  cases a with
  | err => exact .inl ⟨_, by simp, h⟩
  | ok chunk =>
    simp only at h
    split at h
    · exact .inl ⟨_, by simp, h⟩
    · next hne =>
      split at h
      · exact .inl ⟨_, by simp, h⟩
      · next hfit =>
        refine .inr ⟨chunk, rfl, hne, by omega, ?_⟩
        split at h
        · exact .inl h
        · next hl =>
          refine .inr ⟨?_, (Host.Outcome.next.inj h).symm⟩
          rw [List.getLast?_eq_some_getLast hne]; simpa using hl

/-- The state in which an attempt of RECVX, EXCHANGE or PROBE ends, and its error code (R170, R176). -/
inductive AttemptEnds (j : Job) (a : ReadAnswer) (s : State) : ErrCode → State → Prop where
  | notReceived (e : ErrCode) (h : e ∈ [ErrCode.transport, .rxOverflow]) : AttemptEnds j a s e s
  | notUnstuffed (chunk : List Byte) (ha : a = .ok chunk) (hne : chunk ≠ [])
      (hfit : s.regs.rxwLen.toNat + chunk.length ≤ Config.regionSize)
      (h : (unstuff (s.storeChunk chunk).received).2 ∈ [ErrCode.escInvalid, .escTruncated]) :
      AttemptEnds j a s (unstuff (s.storeChunk chunk).received).2 ((s.storeChunk chunk).setRxfLen 0)
  | unstuffed (chunk : List Byte) (ha : a = .ok chunk) (hne : chunk ≠ [])
      (hfit : s.regs.rxwLen.toNat + chunk.length ≤ Config.regionSize)
      (he : (unstuff (s.storeChunk chunk).received).2 = .none)
      (hf : Config.rxfBase + (unstuff (s.storeChunk chunk).received).1.length ≤ Config.bufSize) :
      AttemptEnds j a s (frameError s.env.crcTable j.m j.le (unstuff (s.storeChunk chunk).received).1)
        (verified j.m j.le (unstuff (s.storeChunk chunk).received).1 (unstuffedState (s.storeChunk chunk)))

/-- Everything RECVX, EXCHANGE and PROBE do behind a `PortRead` when the machine goes on: another chunk, or the end of
the attempt (R160, R170). -/
theorem attemptsResume_next {n : Byte} {a : ReadAnswer} {j : Job} {s t : State}
    (h : attemptsResume n a j s = .next t) :
    (∃ chunk, a = .ok chunk ∧ chunk ≠ [] ∧ chunk.getLast? = some Config.escapeByte ∧
      s.regs.rxwLen.toNat + chunk.length ≤ Config.regionSize ∧
      t = (s.storeChunk chunk).setEng (.waitRead s.env.rxChunkMax j)) ∨
    (∃ e u, AttemptEnds j a s e u ∧ attemptResult n j e u = .next t) := by
  rcases receiveChunk_next h with ⟨e, he, h⟩ | ⟨chunk, ha, hne, hfit, h | ⟨hl, h⟩⟩
  · refine .inr ⟨e, s, .notReceived e he, ?_⟩
    rw [attemptReceived, if_neg (by rintro rfl; simp at he)] at h
    exact h
  · rw [attemptReceived, if_pos rfl] at h
    rcases decodeVerify_next h with ⟨he, h⟩ | ⟨he, hf, h⟩
    · exact .inr ⟨_, _, .notUnstuffed chunk ha hne hfit he, h⟩
    · exact .inr ⟨_, _, .unstuffed chunk ha hne hfit he hf, h⟩
  · exact .inl ⟨chunk, ha, hne, hl, hfit, h⟩

/-! ## The operations -/

/-- The state behind `build` (R155). -/
def builtState (cmd : Byte) (j : Job) (s : State) : State :=
  let c := checksum s.env.crcTable j.m j.le (builtRegion cmd s.regs.plen s)
  ({ s with buf := builtBuf cmd s.regs.plen c s.buf }.setTxfLen (s.regs.plen.toNat + 8)).setResult c

/-- The state in which `send` waits for the port (R157). -/
def sentState (j : Job) (s : State) : State :=
  ({ s with buf := s.buf.writeSpan Config.txwBase (stuff (s.bytesAt Config.txfBase s.regs.txfLen.toNat)) }.setTxwLen
    (stuff (s.bytesAt Config.txfBase s.regs.txfLen.toNat)).length).setEng
    (.waitWrite (stuff (s.bytesAt Config.txfBase s.regs.txfLen.toNat)) j)

/-- The state in which PROBE waits for the port (R174). -/
def probedState (j : Job) (s : State) : State :=
  ({ s with buf := s.buf.writeSpan Config.txwBase [Config.delimiter] }.setTxwLen 1).setEng
    (.waitWrite [Config.delimiter] j)

/-- The state in which the first receive attempt waits for the port (R160, R170). -/
def firstAttempt (j : Job) (s : State) : State :=
  ((s.setAttempts 1).setRxwLen 0).setEng (.waitRead s.env.rxChunkMax { j with k := 1 })

theorem attemptsBegin_eq (n : Byte) (j : Job) (s : State) (h : n ≠ 0) :
    attemptsBegin n j s = .next (firstAttempt j s) := by
  rw [attemptsBegin, attemptNext_eq, if_pos]
  · rfl
  · show (0 : Byte) < n
    rw [BitVec.lt_def]
    have : n.toNat ≠ 0 := fun h0 => h (BitVec.eq_of_toNat_eq (by simpa using h0))
    simp; omega

/-- CRC16, ISUM and CKSUM (R119 to R121). -/
theorem checksumOp_next {f : Job → List Byte → Half} {s t : State} (h : checksumOp f s = .next t) :
    t = finish .param s ∨ ∃ j, s.eng = .run j .start ∧
      t = finish .none (s.setResult (f j (s.bytesAt s.regs.src.toNat s.regs.len.toNat))) := by
  obtain ⟨j, hj, -⟩ := atStart_eq_next h
  rw [checksumOp_of_eng f hj] at h
  split at h <;> cases h
  · exact .inr ⟨j, hj, rfl⟩
  · exact .inl rfl

/-- The end of STUFF and UNSTUFF (R137, R138). -/
theorem storeOutput_next {out : List Byte} {s t : State} (h : storeOutput out s = .next t) :
    t = finish .param (s.setOutlen out.length) ∨
    s.regs.dst.toNat + out.length ≤ Config.bufSize ∧
      t = finish .none { s.setOutlen out.length with buf := s.buf.writeSpan s.regs.dst.toNat out } := by
  rw [storeOutput_eq] at h
  split at h <;> cases h
  · next h => exact .inr ⟨h, rfl⟩
  · exact .inl rfl

/-- Everything a step of STUFF (R137) can do when the machine goes on. -/
theorem execStuff_next {fcmd retries : Byte} {s t : State} (h : exec (.stuff fcmd retries) s = .next t) :
    (∃ j, s.eng = .run j .start) ∧
    (t = finish .param s ∨ storeOutput (stuff (s.bytesAt s.regs.src.toNat s.regs.len.toNat)) s = .next t) := by
  obtain ⟨j, hj, h⟩ := atStart_eq_next h
  refine ⟨⟨j, hj⟩, ?_⟩
  split at h
  · cases h; exact .inl rfl
  · exact .inr (memReadThen_eq_next.1 h).2

/-- Everything a step of UNSTUFF (R138) can do when the machine goes on. -/
theorem execUnstuff_next {fcmd retries : Byte} {s t : State} (h : exec (.unstuff fcmd retries) s = .next t) :
    (∃ j, s.eng = .run j .start) ∧
    (t = finish .param s ∨
      (unstuff (s.bytesAt s.regs.src.toNat s.regs.len.toNat)).2 ≠ .none ∧
        t = finish (unstuff (s.bytesAt s.regs.src.toNat s.regs.len.toNat)).2 (s.setOutlen 0) ∨
      (unstuff (s.bytesAt s.regs.src.toNat s.regs.len.toNat)).2 = .none ∧
        storeOutput (unstuff (s.bytesAt s.regs.src.toNat s.regs.len.toNat)).1 s = .next t) := by
  obtain ⟨j, hj, h⟩ := atStart_eq_next h
  refine ⟨⟨j, hj⟩, ?_⟩
  split at h
  · cases h; exact .inl rfl
  · have h := (memReadThen_eq_next.1 h).2
    split at h
    · next he => cases h; exact .inr (.inl ⟨he, rfl⟩)
    · next he => exact .inr (.inr ⟨by simpa using he, h⟩)

/-- Everything a step of BUILD (R156) can do when the machine goes on. -/
theorem execBuild_next {fcmd retries : Byte} {s t : State} (h : exec (.build fcmd retries) s = .next t) :
    ∃ j, s.eng = .run j .start ∧ t = finish .none (builtState fcmd j s) := by
  obtain ⟨j, hj, h⟩ := atStart_eq_next h
  rw [build_eq] at h
  cases h; exact ⟨j, hj, rfl⟩

/-- Everything a step of SEND (R158) can do when the machine goes on. -/
theorem execSend_next {fcmd retries : Byte} {s t : State} (h : exec (.send fcmd retries) s = .next t) :
    (∃ j, s.eng = .run j .start ∧ s.regs.txfLen = 0 ∧ t = finish .param s) ∨
    (∃ j, s.eng = .run j .start ∧ s.regs.txfLen ≠ 0 ∧ t = sentState j s) ∨
    (∃ j a, s.eng = .run j (.wrote a) ∧ t = finish a.errCode s) := by
  simp only [exec, execSend] at h
  split at h
  · next j hj =>
    split at h
    · next h0 => cases h; exact .inl ⟨j, hj, h0, rfl⟩
    · next h0 => rw [sendFrame_eq] at h; cases h; exact .inr (.inl ⟨j, hj, h0, rfl⟩)
  · next j a hj => cases h; exact .inr (.inr ⟨j, a, hj, rfl⟩)
  · cases h
  · cases h

/-- Everything a step of RECV (R163) can do when the machine goes on. -/
theorem execRecv_next {fcmd retries : Byte} {s t : State} (h : exec (.recv fcmd retries) s = .next t) :
    (∃ j, s.eng = .run j .start ∧
      t = ((s.setAttempts 1).setRxwLen 0).setEng (.waitRead s.env.rxChunkMax j)) ∨
    (∃ j a, s.eng = .run j (.got a) ∧ receiveChunk a j s finishWith = .next t) := by
  simp only [exec, execRecv] at h
  split at h
  · next j hj => cases h; exact .inl ⟨j, hj, rfl⟩
  · cases h
  · next j a hj => exact .inr ⟨j, a, hj, h⟩
  · cases h

/-- Everything a step of DECODE (R168) can do when the machine goes on. -/
theorem execDecode_next {fcmd retries : Byte} {s t : State} (h : exec (.decode fcmd retries) s = .next t) :
    ∃ j, s.eng = .run j .start ∧ decodeVerify j.m j.le s finishWith = .next t := atStart_eq_next h

/-- Everything a step of RECVX (R171) can do when the machine goes on. -/
theorem execRecvx_next {fcmd retries : Byte} {s t : State} (h : exec (.recvx fcmd retries) s = .next t) :
    (∃ j, s.eng = .run j .start ∧ retries = 0 ∧ t = finish .param s) ∨
    (∃ j, s.eng = .run j .start ∧ retries ≠ 0 ∧ t = firstAttempt j s) ∨
    (∃ j a, s.eng = .run j (.got a) ∧ attemptsResume retries a j s = .next t) := by
  simp only [exec, execRecvx] at h
  split at h
  · next j hj =>
    split at h
    · next h0 => cases h; exact .inl ⟨j, hj, h0, rfl⟩
    · next h0 => rw [attemptsBegin_eq _ _ _ h0] at h; cases h; exact .inr (.inl ⟨j, hj, h0, rfl⟩)
  · cases h
  · next j a hj => exact .inr (.inr ⟨j, a, hj, h⟩)
  · cases h

/-- Everything a step of EXCHANGE (R172) can do when the machine goes on. -/
theorem execExchange_next {fcmd retries : Byte} {s t : State} (h : exec (.exchange fcmd retries) s = .next t) :
    (∃ j, s.eng = .run j .start ∧ retries = 0 ∧ t = finish .param s) ∨
    (∃ j, s.eng = .run j .start ∧ retries ≠ 0 ∧ t = sentState j (builtState fcmd j s)) ∨
    (∃ j, s.eng = .run j (.wrote .err) ∧ t = finish .transport s) ∨
    (∃ j, s.eng = .run j (.wrote .ok) ∧ attemptsBegin retries j s = .next t) ∨
    (∃ j a, s.eng = .run j (.got a) ∧ attemptsResume retries a j s = .next t) := by
  simp only [exec, execExchange] at h
  split at h
  · next j hj =>
    split at h
    · next h0 => cases h; exact .inl ⟨j, hj, h0, rfl⟩
    · next h0 => rw [build_eq, andThen_next, sendFrame_eq] at h; cases h; exact .inr (.inl ⟨j, hj, h0, rfl⟩)
  · next j a hj =>
    cases a with
    | ok => exact .inr (.inr (.inr (.inl ⟨j, hj, h⟩)))
    | err => cases h; exact .inr (.inr (.inl ⟨j, hj, rfl⟩))
  · next j a hj => exact .inr (.inr (.inr (.inr ⟨j, a, hj, h⟩)))
  · cases h

/-- Everything a step of PROBE (R174) can do when the machine goes on. -/
theorem execProbe_next {fcmd retries : Byte} {s t : State} (h : exec (.probe fcmd retries) s = .next t) :
    (∃ j, s.eng = .run j .start ∧ retries = 0 ∧ t = finish .param s) ∨
    (∃ j, s.eng = .run j .start ∧ retries ≠ 0 ∧ t = probedState j s) ∨
    (∃ j, s.eng = .run j (.wrote .err) ∧ t = finish .transport s) ∨
    (∃ j, s.eng = .run j (.wrote .ok) ∧ attemptsBegin retries j s = .next t) ∨
    (∃ j a, s.eng = .run j (.got a) ∧ attemptsResume retries a j s = .next t) := by
  simp only [exec, execProbe] at h
  split at h
  · next j hj =>
    split at h
    · next h0 => cases h; exact .inl ⟨j, hj, h0, rfl⟩
    · next h0 =>
      rw [memWrite_of_le _ (by decide), andThen_next] at h
      cases h; exact .inr (.inl ⟨j, hj, h0, rfl⟩)
  · next j a hj =>
    cases a with
    | ok => exact .inr (.inr (.inr (.inl ⟨j, hj, h⟩)))
    | err => cases h; exact .inr (.inr (.inl ⟨j, hj, rfl⟩))
  · next j a hj => exact .inr (.inr (.inr (.inr ⟨j, a, hj, h⟩)))
  · cases h

/-- The end of an attempt: a finish, or the next attempt (R170). -/
theorem attemptResult_next {n : Byte} {j : Job} {e : ErrCode} {u t : State} (h : attemptResult n j e u = .next t) :
    (t = finish e u ∧ (e = .none ∨ ¬ j.k < n)) ∨
    (e ≠ .none ∧ j.k < n ∧
      t = ((u.setAttempts (j.k + 1)).setRxwLen 0).setEng
        (.waitRead u.env.rxChunkMax { j with k := j.k + 1, lasterr := e })) := by
  unfold attemptResult at h
  split at h
  · next he => cases h; subst he; exact .inl ⟨rfl, .inl rfl⟩
  · next he =>
    rw [attemptNext_eq] at h
    split at h
    · next hk => cases h; exact .inr ⟨he, hk, rfl⟩
    · next hk => cases h; exact .inl ⟨rfl, .inr hk⟩

/-- The head of the loop (R170). -/
theorem attemptsBegin_next {n : Byte} {j : Job} {s t : State} (h : attemptsBegin n j s = .next t) :
    (t = firstAttempt j s ∧ n ≠ 0) ∨ (t = finish j.lasterr s ∧ n = 0) := by
  by_cases h0 : n = 0
  · subst h0; rw [attemptsBegin, attemptNext_eq, if_neg (by simp)] at h; cases h; exact .inr ⟨rfl, rfl⟩
  · rw [attemptsBegin_eq _ _ _ h0] at h; cases h; exact .inl ⟨rfl, h0⟩

/-! ## What the end of an attempt leaves -/

/-- `verify` changes only RESULT and, where every check passes, the response (R165). -/
theorem verified_keeps (m : ChecksumMode) (le : Bool) (f : List Byte) (s : State) :
    (verified m le f s).eng = s.eng ∧ (verified m le f s).env = s.env ∧ (verified m le f s).buf = s.buf ∧
    ∃ result respCks resp rvalid respPlen,
      (verified m le f s).regs =
        { s.regs with result := result, respCks := respCks, resp := resp, rvalid := rvalid, respPlen := respPlen } ∧
      (frameError s.env.crcTable m le f ≠ .none →
        resp = s.regs.resp ∧ respCks = s.regs.respCks ∧ respPlen = s.regs.respPlen ∧ rvalid = s.regs.rvalid) ∧
      (frameError s.env.crcTable m le f = .none → rvalid = true) := by
  unfold verified
  split
  · next h => exact ⟨rfl, rfl, rfl, _, _, _, _, _, rfl, by simp [h], by simp⟩
  · next h => exact ⟨rfl, rfl, rfl, _, _, _, _, _, rfl, by simp, by simp [h]⟩
  · next h h2 => exact ⟨rfl, rfl, rfl, _, _, _, _, _, rfl, by simp, fun hh => absurd hh h⟩

/-- The end of an attempt changes only RESULT, RXW_LEN, RXF_LEN and, where the frame verified, the response (R170). -/
theorem attemptEnds_keeps {j : Job} {a : ReadAnswer} {s u : State} {e : ErrCode} (h : AttemptEnds j a s e u) :
    u.eng = s.eng ∧ u.env = s.env ∧
    ∃ result respCks resp rvalid respPlen rxwLen rxfLen,
      u.regs =
        { s.regs with
          result := result, respCks := respCks, resp := resp, rvalid := rvalid, respPlen := respPlen
          rxwLen := rxwLen, rxfLen := rxfLen } ∧
      (e ≠ .none →
        resp = s.regs.resp ∧ respCks = s.regs.respCks ∧ respPlen = s.regs.respPlen ∧ rvalid = s.regs.rvalid) ∧
      (e = .none → rvalid = true) := by
  cases h with
  | notReceived _ h => exact ⟨rfl, rfl, _, _, _, _, _, _, _, rfl, by simp, by rintro rfl; simp at h⟩
  | notUnstuffed chunk ha hne hfit h =>
    exact ⟨rfl, rfl, _, _, _, _, _, _, _, rfl, by simp, by intro h0; rw [h0] at h; simp at h⟩
  | unstuffed chunk ha hne hfit h =>
    obtain ⟨h1, h2, h3, r, c, q, v, p, h4, h5, h6⟩ :=
      verified_keeps j.m j.le (unstuff (s.storeChunk chunk).received).1 (unstuffedState (s.storeChunk chunk))
    exact ⟨h1, h2, r, c, q, v, p, _, _, by rw [h4]; rfl, h5, h6⟩

/-- The error codes of an attempt (R176). -/
theorem attemptEnds_error {j : Job} {a : ReadAnswer} {s u : State} {e : ErrCode} (h : AttemptEnds j a s e u) :
    e ∈ ErrCode.none :: receiveErrors := by
  cases h with
  | notReceived _ h => simp [receiveErrors] at *; tauto
  | notUnstuffed chunk ha hne hfit h => generalize (unstuff _).2 = e at *; simp [receiveErrors] at *; tauto
  | unstuffed chunk ha hne hfit h =>
    have := frameError_mem s.env.crcTable j.m j.le (unstuff (s.storeChunk chunk).received).1
    generalize frameError _ _ _ _ = e at *; simp [receiveErrors] at *; tauto

end Sys2Proof.Machine
end

