-- ==== Sys2Proof/Tests/Slice0.lean ====
section
/-! SUPPORT. Tests. Expected values are those of spec/95_test_vectors.md (the section stands at each group) or are
written out from the encoding rules R80 to R82. The second half shows, for every obligation with hypotheses, a concrete
state that meets them, one for each clause. -/

namespace Sys2Proof.Machine.Tests

open Sys2Proof Sys2Proof.Machine

/- One theorem at a time: each kernel evaluation would otherwise hold a thread of its own while it waits. -/
set_option Elab.async false

/-! ## Helpers -/

/-- The reset state with RX_CHUNK_MAX given a number, so that a test can be evaluated. -/
def idle0 : State := { State.reset with env := { State.reset.env with rxChunkMax := 0x40000 } }

/-- The state with a byte sequence in BUF. -/
def holding (off : Nat) (bs : List Byte) (s : State) : State := { s with buf := s.buf.writeSpan off bs }

/-- The state with SRC, LEN and DST set. -/
def spans (src : BitVec 20) (len : BitVec 21) (dst : BitVec 20) (s : State) : State :=
  { s with regs := { s.regs with src := src, len := len, dst := dst } }

/-- The state with RXW holding received bytes. -/
def received (bs : List Byte) (s : State) : State := (holding 0x80000 bs s).setRxwLen bs.length

/-- The state in which the operation has been launched and resumes at a point. -/
def running (i : Instr) (p : Point) (s : State) : State :=
  { launch (encode i) s with eng := .run (launchedJob s.regs (encode i)) p }

/-- The hidden state of `running`. -/
def jobOf (i : Instr) (s : State) : Job := launchedJob s.regs (encode i)

/-- The state in the `k`-th receive attempt of the operation. -/
def attempting (i : Instr) (k : Byte) (p : Point) (s : State) : State :=
  ((launch (encode i) s).setAttempts k).setEng (.run { jobOf i s with k := k } p)

/-- The state in which a started operation waits for its first chunk. -/
def waiting (i : Instr) (k : Byte) (s : State) : State :=
  ((launch (encode i) s).setAttempts k).setEng (.waitRead s.env.rxChunkMax { jobOf i s with k := k })

/-- A view of the next state, where there is one. -/
def look {α : Type} (f : State → α) : Result → Option α
  | .next s => some (f s)
  | _ => none

/-- STATUS as the host reads it. -/
def status (s : State) : Word := s.regs.statusWord

/-! ## Well-formedness: an ill-formed term for each check -/

theorem test_wf_recvx_zero : (Instr.recvx 0 0).wellFormed = false := by decide
theorem test_wf_exchange_zero : (Instr.exchange 0 0).wellFormed = false := by decide
theorem test_wf_probe_zero : (Instr.probe 0 0).wellFormed = false := by decide
theorem test_wf_recvx_one : (Instr.recvx 0 1).wellFormed = true := by decide
theorem test_wf_send_zero : (Instr.send 0 0).wellFormed = true := by decide

/-! ## Decoding: words written out from R80 to R82 (RETRIES, FCMD, OP from bit 23 down) -/

theorem test_decode_crc16 : decode 0b00000000_11111111_01110111_00000001#32 = .ok (.crc16 0x77 0xFF) := by decide
theorem test_decode_isum : decode 0b00000000_00000000_00000000_00000010#32 = .ok (.isum 0 0) := by decide
theorem test_decode_cksum : decode 0b00000000_00000000_00000000_00000011#32 = .ok (.cksum 0 0) := by decide
theorem test_decode_stuff : decode 0b00000000_00000000_00000000_00000100#32 = .ok (.stuff 0 0) := by decide
theorem test_decode_unstuff : decode 0b00000000_00000000_00000000_00000101#32 = .ok (.unstuff 0 0) := by decide
theorem test_decode_build : decode 0b00000000_00000000_10000000_00000110#32 = .ok (.build 0x80 0) := by decide
theorem test_decode_send : decode 0b00000000_00000000_00000000_00000111#32 = .ok (.send 0 0) := by decide
theorem test_decode_recv : decode 0b00000000_00000000_00000000_00001000#32 = .ok (.recv 0 0) := by decide
theorem test_decode_decode : decode 0b00000000_00000000_00000000_00001001#32 = .ok (.decode 0 0) := by decide
theorem test_decode_recvx : decode 0b00000000_00000011_00000000_00001010#32 = .ok (.recvx 0 3) := by decide
theorem test_decode_exchange : decode 0b00000000_00000101_00010001_00001011#32 = .ok (.exchange 0x11 5) := by decide
theorem test_decode_probe : decode 0b00000000_00000010_00000000_00001100#32 = .ok (.probe 0 2) := by decide
theorem test_decode_ignores_top : decode 0xFF000001#32 = .ok (.crc16 0 0) := by decide
theorem test_decode_rejects :
    decode 0x00000000#32 = .error (.illegalOpcode 0x00) ∧ decode 0x0000000D#32 = .error (.illegalOpcode 0x0D) ∧
    decode 0x000000FF#32 = .error (.illegalOpcode 0xFF) := by decide
theorem test_table_word :
    decodeTableWord 24 0x0005110B = some (.exchange 0x11 5) ∧ decodeTableWord 8 0x0C = some (.probe 0 0) ∧
    decodeTableWord 32 0x0D = none ∧ decodeTableWord 40 0x01 = none := by decide

/-! ## One step of each operation (95_test_vectors.md L1 and L2) -/

theorem test_crc16_check :
    look (fun t => (t.regs.result, status t))
      (step ((spans 0 9 0 (holding 0 [0x31, 0x32, 0x33, 0x34, 0x35, 0x36, 0x37, 0x38, 0x39] idle0)).withFetchWord 32 1))
      = some (0x31C3, 0x00000002) := by decide +kernel

theorem test_crc16_span :
    look (fun t => (t.regs.result, status t)) (step ((spans 0xFFFFF 2 0 idle0).withFetchWord 32 1))
      = some (0, 0x00000906) := by decide +kernel

theorem test_isum_carry :
    look (fun t => t.regs.result)
      (step ((spans 0x1000 8 0 (holding 0x1000 [0x00, 0x01, 0xF2, 0x03, 0xF4, 0xF5, 0xF6, 0xF7] idle0)).withFetchWord 32 2))
      = some 0xDDF2 := by decide +kernel

theorem test_isum_odd :
    look (fun t => t.regs.result)
      (step ((spans 0 3 0 (holding 0 [0x41, 0x42, 0x43]
        { idle0 with regs := { idle0.regs with isumLe := true } })).withFetchWord 32 2))
      = some 0x4284 := by decide +kernel

theorem test_cksum_ignores_seed :
    look (fun t => t.regs.result)
      (step ((spans 0 6 0 (holding 0 [0x00, 0x01, 0x00, 0x02, 0x7E, 0x7D]
        { idle0 with regs := { idle0.regs with seed := 0xFFFF } })).withFetchWord 32 3))
      = some 0x405D := by decide +kernel

theorem test_cksum_internet :
    look (fun t => t.regs.result)
      (step ((spans 0 3 0 (holding 0 [0x41, 0x42, 0x43]
        { idle0 with regs := { idle0.regs with mode := .internetSum } })).withFetchWord 32 3))
      = some 0x8442 := by decide +kernel

theorem test_stuff :
    look (fun t => (t.regs.outlen, t.bytesAt 0x2000 7, status t))
      (step ((spans 0x1000 5 0x2000 (holding 0x1000 [0x7E, 0x7E, 0x7D, 0x41, 0x7E] idle0)).withFetchWord 32 4))
      = some (7, [0x7E, 0x7D, 0x5E, 0x7D, 0x5D, 0x41, 0x7E], 0x00000002) := by decide +kernel

theorem test_stuff_destination :
    look (fun t => (t.regs.outlen, decide (t.buf = (holding 0 [0x7E, 0x7E, 0x7E] idle0).buf), t.regs.errcode))
      (step ((spans 0 3 0xFFFFD (holding 0 [0x7E, 0x7E, 0x7E] idle0)).withFetchWord 32 4))
      = some (4, true, .param) := by decide +kernel

theorem test_unstuff :
    look (fun t => (t.regs.outlen, t.bytesAt 0x3000 5))
      (step ((spans 0x2000 7 0x3000
        (holding 0x2000 [0x7E, 0x7D, 0x5E, 0x7D, 0x5D, 0x41, 0x7E] idle0)).withFetchWord 32 5))
      = some (5, [0x7E, 0x7E, 0x7D, 0x41, 0x7E]) := by decide +kernel

theorem test_unstuff_invalid :
    look (fun t => (t.regs.outlen, status t))
      (step ((spans 0 4 0 (holding 0 [0x7E, 0x7D, 0x41, 0x7E] idle0)).withFetchWord 32 5))
      = some (0, 0x00000506) := by decide +kernel

theorem test_build :
    look (fun t => (t.bytesAt 0 8, t.regs.result, t.regs.txfLen)) (step (idle0.withFetchWord 32 0x00008006))
      = some ([0x7E, 0x00, 0x80, 0x00, 0x00, 0x3B, 0x5A, 0x7E], 0x3B5A, 8) := by decide +kernel

theorem test_send :
    look (fun t => (t.eng, t.regs.txwLen))
      (step (((holding 0 [0x7E, 0x00, 0xDE, 0x00, 0x00, 0x7E, 0x95, 0x7E] idle0).setTxfLen 8).withFetchWord 32 7))
      = some (.waitWrite [0x7E, 0x00, 0xDE, 0x00, 0x00, 0x7D, 0x5E, 0x95, 0x7E] (jobOf (.send 0 0) idle0), 9) := by
  decide +kernel

theorem test_send_nothing_built : look status (step (idle0.withFetchWord 32 7)) = some 0x00000906 := by decide +kernel

theorem test_recv_reads_on :
    look (fun t => (t.eng, t.regs.rxwLen, t.bytesAt 0x80000 2))
      (step (running (.recv 0 0) (.got (.ok [0x7E, 0x7D])) idle0))
      = some (.waitRead 0x40000 (jobOf (.recv 0 0) idle0), 2, [0x7E, 0x7D]) := by decide +kernel

theorem test_recv_err :
    look (fun t => t.regs.errcode) (step (running (.recv 0 0) (.got .err) idle0)) = some .transport := by decide +kernel

theorem test_decode :
    look (fun t => (t.regs.resp, t.regs.respCks, t.regs.respPlen, status t))
      (step ((received [0x7E, 0x00, 0x80, 0x00, 0x00, 0x3B, 0x5A, 0x7E] idle0).withFetchWord 32 9))
      = some (0x00000080, 0x3B5A, 0, 0x0000000A) := by decide +kernel

theorem test_decode_empty : look status (step (idle0.withFetchWord 32 9)) = some 0x00000206 := by decide +kernel

theorem test_recvx_short_frame :
    look status
      (step (attempting (.recvx 0 1) 1 (.got (.ok [0x7E, 0x00, 0x01, 0x00, 0x02, 0x7D, 0x5E])) idle0))
      = some 0x00010406 := by decide +kernel

theorem test_recvx_no_attempts : look status (step (idle0.withFetchWord 32 0x0000000A)) = some 0x00000906 := by
  decide +kernel

theorem test_exchange_sends :
    look (fun t => t.eng) (step (idle0.withFetchWord 32 0x0005000B))
      = some (.waitWrite [0x7E, 0x00, 0x00, 0x00, 0x00, 0x00, 0x00, 0x7E] (jobOf (.exchange 0 5) idle0)) := by
  decide +kernel

theorem test_exchange_no_attempts :
    look (fun t => (status t, t.regs.txfLen)) (step (idle0.withFetchWord 32 0x0000000B)) = some (0x00000906, 0) := by
  decide +kernel

theorem test_probe_sends :
    look (fun t => (t.eng, t.regs.txwLen, t.regs.txfLen)) (step (idle0.withFetchWord 32 0x0002000C))
      = some (.waitWrite [0x7E] (jobOf (.probe 0 2) idle0), 1, 0) := by decide +kernel

theorem test_probe_refused_write :
    look status (step (running (.probe 0 2) (.wrote .err) idle0)) = some 0x00000106 := by decide +kernel

theorem test_illegal_opcode : look status (step (idle0.withFetchWord 32 0x0D)) = some 0x00000806 := by decide +kernel

/-! ## Registers, the bus, the interrupt, the host's payloads (95_test_vectors.md L1.10, L1.11, L2.5) -/

theorem test_crc_table :
    crcEntry crc16Table 0x01 = 0x1021 ∧ crcEntry crc16Table 0x40 = 0x48C4 ∧ crcEntry crc16Table 0x7D = 0xAF3A ∧
    crcEntry crc16Table 0xFF = 0x1EF0 := by decide +kernel

/-- The table is a parameter (R111): another one gives another sum. -/
theorem test_crc_other_table :
    look (fun t => t.regs.result)
      (step ((spans 0 1 0 (holding 0 [0x31]
        { idle0 with env := { idle0.env with crcTable := List.replicate 256 0xABCD } })).withFetchWord 32 3))
      = some 0xABCD := by decide +kernel

theorem test_reserved_command_bits :
    (busAccess (.read 32 0x004#21) (busAccess (.write 32 0x004#21 0xFF000001#32) idle0)).env.reply
      = .data 0x00000001 := by decide +kernel

theorem test_clr :
    (busAccess (.write 32 0x008#21 0x00000012#32)
      { idle0 with regs := { idle0.regs with done := true, errcode := .transport, attempts := 2 } }).regs.statusWord
      = 0x00020104 := by decide +kernel

theorem test_busy_write :
    let t := busAccess (.write 32 0x024#21 5#32) ((waiting (.recv 0 0) 0 idle0).setAttempts 1)
    (status t, t.regs.plen) = (0x00010011, 0) := by decide +kernel

theorem test_start_payload :
    startPayload [0x62, 0x6F, 0x6F, 0x74] readAllField =
      .ok ([0x62, 0x00, 0x6F, 0x00, 0x6F, 0x00, 0x74, 0x00] ++ List.replicate 64 0 ++ [0xFF, 0xFF, 0xFF, 0xFF] ++
        List.replicate 8 0) := by decide +kernel

/-! ## Witnesses: the hypotheses of every obligation are met

One theorem for each clause, at a boundary of its range where it has one. -/

/-- A view that answers shows a next state. -/
theorem next_of_look {α : Type} {f : State → α} {r : Result} {v : α} (h : look f r = some v) :
    ∃ t, r = .next t ∧ f t = v := by
  cases r with
  | next t => exact ⟨t, rfl, by simpa [look] using h⟩
  | fault e => cases h
  | refused e => cases h

theorem witness_DecodeOfEncode : decode 0xFFAB4501#32 = .ok (.crc16 0x45 0xAB) := by decide

theorem witness_DecoderIsTotal :
    (1 ≤ (0x01#32 &&& 0xFF#32).toNat ∧ (0x01#32 &&& 0xFF#32).toNat ≤ 12) ∧
    (1 ≤ (0x0C#32 &&& 0xFF#32).toNat ∧ (0x0C#32 &&& 0xFF#32).toNat ≤ 12) ∧
    (0x100#32 &&& 0xFF#32).toNat = 0 ∧ 12 < (0x0D#32 &&& 0xFF#32).toNat := by decide

theorem witness_StepRunsDecodedOperation :
    let i := Instr.exchange 0x11 5
    let s := running i .start idle0
    s.eng = .run (jobOf i idle0) .start ∧ decode (latchedWord (jobOf i idle0) s) = .ok i ∧ s.env.agenda = [] ∧
      (s.setAgenda [.engine, .reset]).env.agenda = .engine :: [.reset] ∧
      decode (latchedWord (jobOf i idle0) (s.setAgenda [.engine, .reset])) = .ok i := by decide

/-- StepRunsDecodedOperation: each kind of scheduled move, an engine move with nothing to run, and the wait phases with
nothing scheduled. -/
theorem witness_StepRunsDecodedOperation_moves :
    let read := waiting (.recv 0 0) 0 idle0
    let write := read.setEng (.waitWrite [0x7E] (jobOf (.probe 0 1) idle0))
    (∀ e ∈ [Event.engine, .host (.read 32 0x008#21), .port, .reset],
      (read.setAgenda [e, .port]).env.agenda = e :: [.port]) ∧
    (∀ s ∈ [idle0, read, write], (match s.eng with
      | .run _ _ => false
      | _ => true) = true) ∧
    idle0.eng = .idle ∧ read.eng = .waitRead 0x40000 (jobOf (.recv 0 0) idle0) ∧
    write.eng = .waitWrite [0x7E] (jobOf (.probe 0 1) idle0) ∧
    ∀ s ∈ [idle0, read, write], s.env.agenda = [] := by decide +kernel

theorem witness_IllegalOpcodeFinishes :
    idle0.eng = .idle ∧ idle0.env.agenda = [] ∧ (0xAABBCC00#32 &&& 0xFF#32).toNat = 0 ∧
      12 < (0x0D#32 &&& 0xFF#32).toNat := by decide

theorem witness_CmdWriteLaunches : idle0.eng = .idle := by decide

/-- The twelve operations with one attempt. -/
def allInstrs : List Instr :=
  [.crc16 0 1, .isum 0 1, .cksum 0 1, .stuff 0 1, .unstuff 0 1, .build 0 1, .send 0 1, .recv 0 1, .decode 0 1,
   .recvx 0 1, .exchange 0 1, .probe 0 1]

/-- OperationsKeepHostRegisters, OperationsKeepOtherResults, FinishCodesOfOperations: every operation has a next
state from its launch, and its last error is then NONE. -/
theorem witness_every_operation_goes_on :
    ∀ i ∈ allInstrs, look (fun _ => ()) (exec i (running i .start idle0)) = some () ∧
      (jobOf i idle0).lasterr ∈ ErrCode.none :: receiveErrors := by decide +kernel

theorem witness_OperationsEndByFinish :
    look (fun t => t.eng) (exec (.crc16 0 0) (running (.crc16 0 0) .start idle0)) = some .idle ∧
    look (fun t => decide (t.eng ≠ .idle)) (exec (.recv 0 0) (running (.recv 0 0) .start idle0)) = some true := by
  decide +kernel

theorem witness_ResponseOnlyFromVerify :
    look (fun t => t.regs.rvalid)
      (exec (.decode 0 0) (running (.decode 0 0) .start
        (received [0x7E, 0x00, 0x80, 0x00, 0x00, 0x3B, 0x5A, 0x7E] idle0))) = some true ∧
    look (fun t => t.regs.rvalid) (exec (.decode 0 0) (running (.decode 0 0) .start idle0)) = some false := by
  decide +kernel

/-- The first byte behind a built frame, and the bytes around a destination span. -/
theorem witness_OperationsKeepOtherBytes :
    ¬ mayWrite (.build 0 0) (running (.build 0 0) .start idle0) 8 ∧
    mayWrite (.build 0 0) (running (.build 0 0) .start idle0) 7 ∧
    ¬ mayWrite (.stuff 0 0) (running (.stuff 0 0) .start (spans 0 1 0x10 (holding 0 [0x7D] idle0))) 0x0F ∧
    ¬ mayWrite (.stuff 0 0) (running (.stuff 0 0) .start (spans 0 1 0x10 (holding 0 [0x7D] idle0))) 0x11 := by
  simp only [mayWrite]
  decide +kernel

theorem witness_CrcWidthIrrelevant : 16 ≤ 16 ∧ 16 ≤ 64 := by decide

theorem wordSum_replicate (n : Nat) : wordSum false (List.replicate n [0xFF#8, 0xFF#8]).flatten = 0xFFFF * n := by
  induction n with
  | zero => rfl
  | succ n ih =>
    simp only [List.replicate_succ, List.flatten_cons, List.cons_append, List.nil_append, wordSum, ih]
    have : wordOf false 0xFF#8 0xFF#8 = 0xFFFF := by decide
    omega

/-- Both cases of the closed form, and the largest sum of the two-step fold. -/
theorem witness_IsumClosedForm :
    wordSum false [0x00, 0x00, 0x00] = 0 ∧ 0 < wordSum true [0x01] ∧ ∃ bs, wordSum false bs = 0xFFFFFFFF :=
  ⟨by decide, by decide, _, (wordSum_replicate 0x10001).trans (by norm_num)⟩

theorem witness_IsumIgnoresWordOrder :
    ([(0x01, 0x02), (0x03, 0x04)] : List (Byte × Byte)).Perm [(0x03, 0x04), (0x01, 0x02)] := by decide

/-- Crc16Result, IsumResult, CksumResult: the last legal span and the first illegal one. -/
theorem witness_checksum_spans :
    ∀ i ∈ [Instr.crc16 0 0, .isum 0 0, .cksum 0 0],
      let legal := running i .start (spans 0xFFFFF 1 0 idle0)
      let illegal := running i .start (spans 0xFFFFF 2 0 idle0)
      (legal.eng = .run (jobOf i idle0) .start ∧ legal.regs.src.toNat + legal.regs.len.toNat ≤ 0x100000) ∧
      (illegal.eng = .run (jobOf i idle0) .start ∧ 0x100000 < illegal.regs.src.toNat + illegal.regs.len.toNat) := by
  decide

/-- CksumResult: both modes. -/
theorem witness_CksumResult_modes :
    (jobOf (.cksum 0 0) idle0).m = .crc ∧
    (jobOf (.cksum 0 0) { idle0 with regs := { idle0.regs with mode := .internetSum } }).m ≠ .crc := by decide

theorem witness_StuffLength : 2 ≤ ([0x7D, 0x7D] : List Byte).length := by decide

theorem witness_UnstuffOfStuff :
    ([0x7E, 0x7D, 0x7E] : List Byte).head? ≠ some 0x7D ∧ ([0x7E, 0x7D, 0x7E] : List Byte).getLast? ≠ some 0x7D ∧
    ([0x7D, 0x41] : List Byte).head? = some 0x7D ∧ ([0x41, 0x7D] : List Byte).getLast? = some 0x7D := by decide

/-- UnstuffAccepts: a success and both errors, the first of two errors ending the scan. -/
theorem witness_UnstuffAccepts :
    unstuff [0x7E, 0x7D, 0x5E, 0x7D, 0x5D] = ([0x7E, 0x7E, 0x7D], .none) ∧
    unstuff [0x7E, 0x7D] = ([0x7E], .escTruncated) ∧ unstuff [0x7E, 0x7D, 0x7D] = ([0x7E], .escInvalid) := by decide

/-- StuffResult: an illegal source span, and the last legal and the first illegal destination span. -/
theorem witness_StuffResult :
    let i := Instr.stuff 0 0
    let far := running i .start (spans 0 0x100001 0 idle0)
    let fits := running i .start (spans 0 3 0xFFFFC (holding 0 [0x7E, 0x7E, 0x7E] idle0))
    let past := running i .start (spans 0 3 0xFFFFD (holding 0 [0x7E, 0x7E, 0x7E] idle0))
    (far.eng = .run (jobOf i idle0) .start ∧ 0x100000 < far.regs.src.toNat + far.regs.len.toNat) ∧
    (fits.eng = .run (jobOf i idle0) .start ∧ fits.regs.src.toNat + fits.regs.len.toNat ≤ 0x100000 ∧
      fits.regs.dst.toNat + (stuff (fits.bytesAt fits.regs.src.toNat fits.regs.len.toNat)).length = 0x100000) ∧
    (past.regs.src.toNat + past.regs.len.toNat ≤ 0x100000 ∧
      past.regs.dst.toNat + (stuff (past.bytesAt past.regs.src.toNat past.regs.len.toNat)).length = 0x100001) := by
  decide +kernel

/-- UnstuffResult: an illegal source span, an escape error, and the destination span at its limit. -/
theorem witness_UnstuffResult :
    let i := Instr.unstuff 0 0
    let far := running i .start (spans 0 0x100001 0 idle0)
    let bad := running i .start (spans 0 1 0 (holding 0 [0x7D] idle0))
    let fits := running i .start (spans 0 2 0xFFFFF (holding 0 [0x7D, 0x5E] idle0))
    let past := running i .start (spans 0 2 0xFFFFF (holding 0 [0x7E, 0x7E] idle0))
    (far.eng = .run (jobOf i idle0) .start ∧ 0x100000 < far.regs.src.toNat + far.regs.len.toNat) ∧
    (bad.eng = .run (jobOf i idle0) .start ∧ bad.regs.src.toNat + bad.regs.len.toNat ≤ 0x100000 ∧
      (unstuff (bad.bytesAt 0 1)).2 ≠ .none) ∧
    (fits.regs.src.toNat + fits.regs.len.toNat ≤ 0x100000 ∧ (unstuff (fits.bytesAt 0 2)).2 = .none ∧
      fits.regs.dst.toNat + (unstuff (fits.bytesAt 0 2)).1.length = 0x100000) ∧
    ((unstuff (past.bytesAt 0 2)).2 = .none ∧
      past.regs.dst.toNat + (unstuff (past.bytesAt 0 2)).1.length = 0x100001) := by decide +kernel

theorem witness_LogicalFrameLayout : (List.replicate 65535 (0x7E : Byte)).length ≤ 65535 :=
  Nat.le_of_eq List.length_replicate

theorem witness_BuildResult :
    (running (.build 0 0) .start idle0).eng = .run (jobOf (.build 0 0) idle0) .start := by decide

theorem witness_SendResult :
    let i := Instr.send 0 0
    let built := idle0.setTxfLen 8
    ((running i .start idle0).eng = .run (jobOf i idle0) .start ∧ (running i .start idle0).regs.txfLen = 0) ∧
    ((running i .start built).eng = .run (jobOf i idle0) .start ∧ (running i .start built).regs.txfLen ≠ 0) ∧
    (running i (.wrote .ok) built).eng = .run (jobOf i idle0) (.wrote .ok) ∧
    (running i (.wrote .err) built).eng = .run (jobOf i idle0) (.wrote .err) := by decide +kernel

/-- RecvResult: every clause; the last chunk that fits and the first that does not. -/
theorem witness_RecvResult :
    let i := Instr.recv 0 0
    let j := jobOf i idle0
    let full := idle0.setRxwLen 0x3FFFF
    (running i .start idle0).eng = .run j .start ∧
    (running i (.got .err) idle0).eng = .run j (.got .err) ∧
    (running i (.got (.ok [])) idle0).eng = .run j (.got (.ok [])) ∧
    ((running i (.got (.ok [0x41, 0x42])) full).eng = .run j (.got (.ok [0x41, 0x42])) ∧
      (running i (.got (.ok [0x41, 0x42])) full).regs.rxwLen.toNat + 2 = 0x40001) ∧
    ((running i (.got (.ok [0x7D])) full).eng = .run j (.got (.ok [0x7D])) ∧
      (running i (.got (.ok [0x7D])) full).regs.rxwLen.toNat + 1 = 0x40000 ∧
      ([0x7D] : List Byte).getLast? = some 0x7D) ∧
    ((running i (.got (.ok [0x7D, 0x5E])) idle0).eng = .run j (.got (.ok [0x7D, 0x5E])) ∧
      ([0x7D, 0x5E] : List Byte).getLast? ≠ some 0x7D) := by decide +kernel

/-- A launched DECODE over received bytes. -/
def decoding (bs : List Byte) : State := running (.decode 0 0) .start (received bs idle0)

/-- DecodeResult: an escape error, and for each check of R166 a frame that fails it first; 8 bytes are the shortest
frame. -/
theorem witness_DecodeResult :
    (∀ bs ∈ [[0x7D], [], [0x7E, 0x00, 0x7E], [0x7E, 0x00, 0x80, 0x00, 0x00, 0x3B, 0x5B, 0x7E],
        [0x7E, 0x00, 0x80, 0x00, 0x00, 0x3B, 0x5A, 0x7E]],
      (decoding bs).eng = .run (jobOf (.decode 0 0) idle0) .start ∧ (decoding bs).regs.rxwLen.toNat ≤ 0x40000 ∧
      (decoding bs).bytesAt 0x80000 (decoding bs).regs.rxwLen.toNat = bs) ∧
    (unstuff [0x7D]).2 ≠ .none ∧ frameError crc16Table .crc false [] = .badDelimiter ∧
    frameError crc16Table .crc false [0x7E, 0x00, 0x7E] = .shortFrame ∧
    frameError crc16Table .crc false [0x7E, 0x00, 0x80, 0x00, 0x00, 0x3B, 0x5B, 0x7E] = .checksumMismatch ∧
    frameError crc16Table .crc false [0x7E, 0x00, 0x80, 0x00, 0x00, 0x3B, 0x5A, 0x7E] = .none := by decide +kernel

/-- RecvxStart, ExchangeStart, ProbeStart: RETRIES = 0 and the smallest legal count; both answers to the write. -/
theorem witness_attempt_starts :
    ∀ r ∈ [0x00#8, 0x01#8, 0xFF#8], ∀ i ∈ attemptInstrs 0 r,
      (running i .start idle0).eng = .run (jobOf i idle0) .start ∧
      (running i (.wrote .ok) idle0).eng = .run (jobOf i idle0) (.wrote .ok) ∧
      (running i (.wrote .err) idle0).eng = .run (jobOf i idle0) (.wrote .err) := by decide +kernel

/-- AttemptReadsOn: the chunk that fills RXW. -/
theorem witness_AttemptReadsOn :
    ∀ i ∈ attemptInstrs 0 1,
      let s := attempting i 1 (.got (.ok [0x7D])) (idle0.setRxwLen 0x3FFFF)
      s.eng = .run { jobOf i idle0 with k := 1 } (.got (.ok [0x7D])) ∧ ([0x7D] : List Byte).getLast? = some 0x7D ∧
      s.regs.rxwLen.toNat + 1 = 0x40000 := by decide +kernel

/-- FailedReadIsRetried: each failed read, with an attempt left and with none. -/
theorem witness_FailedReadIsRetried :
    ∀ i ∈ attemptInstrs 0 2,
      let full := idle0.setRxwLen 0x40000
      (attempting i 1 (.got .err) idle0).eng = .run { jobOf i idle0 with k := 1 } (.got .err) ∧
      (attempting i 2 (.got (.ok [])) idle0).eng = .run { jobOf i idle0 with k := 2 } (.got (.ok [])) ∧
      (attempting i 2 (.got (.ok [0x41])) full).eng = .run { jobOf i idle0 with k := 2 } (.got (.ok [0x41])) ∧
      0x40000 < (attempting i 2 (.got (.ok [0x41])) full).regs.rxwLen.toNat + 1 ∧ 0x01#8 < 0x02#8 ∧
      ¬ 0x02#8 < 0x02#8 := by decide +kernel

/-- CompleteReceiveIsVerified: a frame that verifies, one that does not, and an escape error, with an attempt left and
with none. -/
theorem witness_CompleteReceiveIsVerified :
    (∀ i ∈ attemptInstrs 0 2, ∀ k ∈ [0x01#8, 0x02#8],
      ∀ c ∈ [[0x7E, 0x00, 0x80, 0x00, 0x00, 0x3B, 0x5A, 0x7E], [0x7E, 0x41, 0x7E], [0x7D, 0x41]],
        (attempting i k (.got (.ok c)) idle0).eng = .run { jobOf i idle0 with k := k } (.got (.ok c)) ∧ c ≠ [] ∧
        c.getLast? ≠ some 0x7D ∧ (attempting i k (.got (.ok c)) idle0).regs.rxwLen.toNat + c.length ≤ 0x40000) ∧
    frameError crc16Table .crc false (unstuff [0x7E, 0x00, 0x80, 0x00, 0x00, 0x3B, 0x5A, 0x7E]).1 = .none ∧
    frameError crc16Table .crc false (unstuff [0x7E, 0x41, 0x7E]).1 ≠ .none ∧ (unstuff [0x7D, 0x41]).2 ≠ .none := by
  decide +kernel

/-- The whole reply of an EXCHANGE leaves TXF_LEN, TXW_LEN and the frame in TXF alone (R26, R172). -/
theorem test_reply_keeps_send_side :
    let s := attempting (.exchange 0 2) 1 (.got (.ok [0x7E, 0x00, 0x80, 0x00, 0x00, 0x3B, 0x5A, 0x7E]))
      { idle0 with
        regs := { idle0.regs with txfLen := 8, txwLen := 9 }
        buf := idle0.buf.writeSpan Config.txfBase [0x7E, 0x01] }
    look (fun t => (t.regs.txfLen, t.regs.txwLen, t.bytesAt 0 2, t.regs.errcode)) (exec (.exchange 0 2) s) =
      some (8, 9, [0x7E, 0x01], .none) := by decide +kernel

theorem witness_LastErrorAfterAllAttempts :
    ∀ i ∈ attemptInstrs 0 2,
      let s := attempting i 2 (.got .err) idle0
      s.eng = .run { jobOf i idle0 with k := 2 } (.got .err) ∧ 0x02#8 = s.regs.attempts ∧ 0x02#8 ≤ 0x02#8 ∧
      look (fun t => (t.eng, t.regs.errcode)) (exec i s) = some (.idle, .transport) := by decide +kernel

/-- PortAnswersRequest: an outstanding read and write, with the oracle answers of each clause; no request. -/
theorem witness_PortAnswersRequest :
    let s := waiting (.recv 0 0) 0 idle0
    let w := s.setEng (.waitWrite [0x7E] (jobOf (.probe 0 1) idle0))
    s.eng = .waitRead 0x40000 (jobOf (.recv 0 0) idle0) ∧ w.eng = .waitWrite [0x7E] (jobOf (.probe 0 1) idle0) ∧
    ({ s with env := { s.env with portReads := [.ok [0x41], .err] } } : State).env.portReads =
      .ok [0x41] :: [.err] ∧ ([0x41] : List Byte).length ≤ 0x40000 ∧
    ({ s with env := { s.env with portReads := [.err] } } : State).env.portReads = .err :: [] ∧
    ({ w with env := { w.env with portWrites := [.err] } } : State).env.portWrites = .err :: [] ∧
    idle0.eng = .idle := by decide +kernel

/-- BusyAccessesAreIgnored: the first and the last register offset, BUF's first and last byte. -/
theorem witness_BusyAccessesAreIgnored :
    let s := waiting (.recv 0 0) 0 idle0
    s.regs.busy = true ∧ s.eng ≠ .idle ∧
    ((0x000#21).toNat < 0x100 ∧ (0x000#21).toNat % 4 = 0 ∧ (0x000#21).toNat ≠ 0x008) ∧
    ((0x0FC#21).toNat < 0x100 ∧ (0x0FC#21).toNat % 4 = 0 ∧ (0x0FC#21).toNat ≠ 0x008) ∧
    (0x100000 ≤ (0x100000#21).toNat ∧ bufAccessLegal 8 (0x100000#21).toNat = true) ∧
    (0x100000 ≤ (0x1FFFFF#21).toNat ∧ bufAccessLegal 8 (0x1FFFFF#21).toNat = true) ∧
    regAt (0x040#21).toNat = some .respPlen := by decide +kernel

theorem witness_RegisterWriteReadsBack : idle0.regs.busy = false := by decide

/-- BusErrorChangesNothing: a wrong width and a misaligned offset in both spaces. -/
theorem witness_BusErrorChangesNothing :
    ((0x0FC#21).toNat < 0x100 ∧ (16 ≠ 32 ∨ (0x0FC#21).toNat % 4 ≠ 0)) ∧
    ((0x0FF#21).toNat < 0x100 ∧ (32 ≠ 32 ∨ (0x0FF#21).toNat % 4 ≠ 0)) ∧
    (0x100000 ≤ (0x100000#21).toNat ∧ ((64 ≠ 8 ∧ 64 ≠ 16 ∧ 64 ≠ 32) ∨ (0x100000#21).toNat % (64 / 8) ≠ 0)) ∧
    (0x100000 ≤ (0x1FFFFE#21).toNat ∧ ((32 ≠ 8 ∧ 32 ≠ 16 ∧ 32 ≠ 32) ∨ (0x1FFFFE#21).toNat % (32 / 8) ≠ 0)) := by
  decide

theorem witness_ReservedReadsZero :
    idle0.regs.busy = false ∧
    (0x044 ≤ (0x044#21).toNat ∧ (0x044#21).toNat < 0x100000 ∧ (0x044#21).toNat % 4 = 0) ∧
    (0x044 ≤ (0x0FFFFC#21).toNat ∧ (0x0FFFFC#21).toNat < 0x100000 ∧ (0x0FFFFC#21).toNat % 4 = 0) := by
  decide +kernel

/-- BufAccessIsLittleEndian: the first word of BUF, its last word and its last byte. -/
theorem witness_BufAccessIsLittleEndian :
    idle0.regs.busy = false ∧
    (0x100000 ≤ (0x100000#21).toNat ∧ bufAccessLegal 32 (0x100000#21).toNat = true) ∧
    (0x100000 ≤ (0x1FFFFC#21).toNat ∧ bufAccessLegal 32 (0x1FFFFC#21).toNat = true) ∧
    (0x100000 ≤ (0x1FFFFE#21).toNat ∧ bufAccessLegal 16 (0x1FFFFE#21).toNat = true) ∧
    (0x100000 ≤ (0x1FFFFF#21).toNat ∧ bufAccessLegal 8 (0x1FFFFF#21).toNat = true) := by decide +kernel

theorem witness_InterruptLevel : idle0.regs.busy = false := by decide

/-- ResetInputAnyTime: idle, an outstanding read whose longest legal answer stands in the oracle sequence, an outstanding
write. -/
theorem witness_ResetInputAnyTime :
    let s := ({ waiting (.recv 0 0) 0 idle0 with
      env := { idle0.env with portReads := [.ok [0x41], .err], portWrites := [.err, .ok] } }).setAgenda [.reset, .engine]
    let w := s.setEng (.waitWrite [0x7E] (jobOf (.probe 0 1) idle0))
    s.env.agenda = .reset :: [.engine] ∧ s.eng = .waitRead 0x40000 (jobOf (.recv 0 0) idle0) ∧
    s.env.portReads = .ok [0x41] :: [.err] ∧ ([0x41] : List Byte).length ≤ 0x40000 ∧
    w.eng = .waitWrite [0x7E] (jobOf (.probe 0 1) idle0) ∧ w.env.portWrites = .err :: [.ok] ∧
    (s.setEng .idle).eng = .idle ∧ (running (.recv 0 0) .start s).eng = .run (jobOf (.recv 0 0) idle0) .start := by
  decide +kernel

/-- The answer that a reset finds on its way is dropped (R266): the next request gets the one behind it. -/
theorem test_reset_drops_answer :
    look (fun t => (t.eng, t.env.portReads, t.regs.busy))
      (step (({ waiting (.recv 0 0) 0 idle0 with
        env := { idle0.env with portReads := [.ok [0x41], .err] } }).setAgenda [.reset]))
      = some (.idle, [.err], false) := by decide +kernel

/-- The invariant holds in an idle state and in a state that waits for a chunk in its second attempt. -/
theorem inv_idle0 : idle0.Inv := by
  constructor
  case engine => trivial
  all_goals decide +kernel

theorem inv_waiting : (waiting (.recvx 0 2) 2 idle0).Inv := by
  constructor
  case engine => exact ⟨by constructor <;> decide, by decide, fun _ => by decide, by left; decide, rfl⟩
  all_goals decide +kernel

/-- StepKeepsInv, StepNeverStops, OperationsEnd: a state of the invariant that is not idle, with a next state. -/
theorem witness_step_of_inv :
    let s := { waiting (.recvx 0 2) 2 idle0 with
      env := { (waiting (.recvx 0 2) 2 idle0).env with portReads := [.err] } }
    s.Inv ∧ s.env.agenda = [] ∧ s.eng ≠ .idle ∧ look (fun _ => ()) (step s) = some () := by
  refine ⟨?_, by decide, by decide, by decide +kernel⟩
  constructor
  case engine => exact ⟨by constructor <;> decide, by decide, fun _ => by decide, by left; decide, rfl⟩
  all_goals decide +kernel

/-- A frame split inside an escape pair; the bytes behind it stay in the port. -/
theorem witness_ReceiveReassembles :
    let i := Instr.recv 0 0
    let s := running i .start { idle0 with env := { idle0.env with
      portReads := [.ok [0x7E, 0x7D], .ok [0x5E, 0x7E], .err] } }
    s.env.agenda = [] ∧ s.eng = .run (jobOf i idle0) .start ∧ (jobOf i idle0).op = 0x08 ∧
    (∀ c ∈ [[0x7E#8, 0x7D#8]], c.getLast? = some 0x7D) ∧ [0x5E#8, 0x7E#8].getLast? ≠ some 0x7D ∧
    (∀ c ∈ [[0x5E#8, 0x7E#8], [0x7E, 0x7D]], c.length ≤ s.env.rxChunkMax) ∧
    ([[0x7E#8, 0x7D#8]].flatten ++ [0x5E, 0x7E]).length ≤ 0x40000 ∧ [0x5E#8, 0x7E#8] ≠ [] ∧
    s.env.portReads = [[0x7E, 0x7D]].map ReadAnswer.ok ++ .ok [0x5E, 0x7E] :: [.err] := by decide

/-- The frame of an empty payload, and the frame with its last region byte changed. -/
theorem witness_BuiltFrameVerifies :
    let f := logicalFrame crc16Table .crc false 0x80 []
    let bad := f.set 4 0x01
    ((decoding (stuff f)).eng = .run (jobOf (.decode 0 0) idle0) .start ∧
      (decoding (stuff f)).bytesAt 0x80000 (decoding (stuff f)).regs.rxwLen.toNat = stuff f ∧
      (decoding (stuff f)).regs.rxwLen.toNat ≤ 0x40000) ∧
    ((jobOf (.decode 0 0) idle0).m ≠ .internetSum ∧ (decoding (stuff bad)).env.crcTable = crc16Table ∧
      1 ≤ 4 ∧ 4 < ([] : List Byte).length + 5 ∧ 0x01#8 ≠ byteOf f 4 ∧
      (decoding (stuff bad)).regs.rxwLen.toNat ≤ 0x40000 ∧
      (decoding (stuff bad)).bytesAt 0x80000 (decoding (stuff bad)).regs.rxwLen.toNat = stuff bad) := by
  decide +kernel

theorem witness_ExchangeOfGoodReply :
    let s := { idle0 with env := { idle0.env with
      portWrites := [.ok], portReads := [.ok (stuff (logicalFrame crc16Table .crc false 0x80 [])), .err] } }
    s.eng = .idle ∧ s.env.agenda = [] ∧ 0x01#8 ≠ 0 ∧ ([] : List Byte).length ≤ 65535 ∧
    s.env.portWrites = .ok :: [] ∧
    s.env.portReads = .ok (stuff (logicalFrame s.env.crcTable s.regs.mode s.regs.isumLe 0x80 [])) :: [.err] ∧
    (stuff (logicalFrame s.env.crcTable s.regs.mode s.regs.isumLe 0x80 [])).length ≤ s.env.rxChunkMax := by decide +kernel

theorem witness_TransferAccounting :
    (HostState.begin (transferOps (.error .ioError))).script = transferOps (.error .ioError) ∧
    1 ≤ 1 ∧ 0 < 5 ∧ 0 + 1 < (chunkSizes 5 2).length ∧ 2 < (chunkSizes 5 2).length ∧
    (List.replicate 36 (0x41 : Half)).length ≤ 36 ∧ ([1, 2, 3, 4, 5] : List Byte).length = 5 ∧ 65535 ≤ 65535 := by decide

theorem witness_StartPayloadLayout :
    readAllField.length = 4 ∧ (List.replicate 36 (0x41 : Half)).length ≤ 36 ∧
    36 < (List.replicate 37 (0x41 : Half)).length := by decide

/-- Host parameters with distinct codes. -/
def params0 : HostParams :=
  { codes := ⟨1, 2, 3, 4, 5, 6, 7, 0x80, 0x93, 0x82, 0x83⟩, policy := sourcePolicy, isumLe := false, u32High := true,
    irq := false, loader1Addr := 0, loader2Addr := 0, blockBytes := 512, blockCount := 4096 }

theorem test_params_distinct : params0.codes.distinct = true := by decide

/-- A window that no download payload can hold: the download refuses it, the upload does not (R215, R217, R225). -/
theorem test_large_window :
    (match upload params0 [0x41] 70000 65536 with
      | .ok script => (script.filter HostOp.launches).length == 4
      | .error _ => false) = true ∧
    downloadPartition params0 [0x41] (some [1, 2]) 65536 = .error .paramError := by decide +kernel

/-- ResponseCheckFails: the expected code, a tolerated one, the refusal's code, another code; a transfer in each state that can fail. -/
theorem witness_ResponseCheckFails :
    (HostState.begin [.checkResp [0x80] (some 0x82), .readPlen]).script = .checkResp [0x80] (some 0x82) :: [.readPlen] ∧
    respCmd 0x00000080 ∈ [0x80#8] ∧ respCmd 0x00000082 ∉ [0x80#8] ∧ some 0x82#8 = some (respCmd 0x00000082) ∧
    respCmd 0x00000083 ∉ [0x80#8] ∧ some 0x82#8 ≠ some (respCmd 0x00000083) ∧
    ([0x80#8, 0x82].headD 0 = respCmd 0x00000080 ∧ respCmd 0x00000080 ∈ [0x80#8, 0x82]) ∧
    ([0x80#8, 0x82].headD 0 ≠ respCmd 0x00000082 ∧ respCmd 0x00000082 ∈ [0x80#8, 0x82]) ∧
    XferState.start ∈ [XferState.start, .transferring, .end_] ∧ XferState.end_ ∈ [XferState.start, .transferring, .end_] ∧
    ({ HostState.begin [] with xfer := some .start } : HostState).xfer = some .start ∧
    ({ HostState.begin [] with xfer := some .transferring } : HostState).xfer = some .transferring ∧
    ({ HostState.begin [] with xfer := some .end_ } : HostState).xfer = some .end_ ∧
    ∃ script, upload params0 [0x41] 5 2 = .ok script :=
  ⟨by decide, by decide, by decide, by decide, by decide, by decide, by decide, by decide, by decide, by decide, rfl, rfl, rfl,
    _, rfl⟩

/-- A tolerated DOWN_SIZE_ERROR is logged and the host goes on (R214). -/
theorem test_tolerated_code_is_logged :
    let h := (hostStep (HostState.begin [.checkResp [0x80, 0x82] none, .readPlen])
      { idle0 with regs := { idle0.regs with resp := 0x00000082 } }).1
    (h.logged, h.script, h.failed) = ([0x82], [.readPlen], none) := by decide +kernel

/-- A first-stage image that cannot be read: the bootstrap aborts with IoError before any exchange of the download (R207,
R217). -/
theorem test_unreadable_image :
    let h := { HostState.begin ((bootRows params0 none none).flatMap fun row =>
        if row.1 = .stage1Loaded then row.2 else []) with boot := some .connected }
    let one := hostStep h idle0
    let two := hostStep one.1 one.2
    two.2 = idle0 ∧ two.1.boot = some (.aborted .ioError) ∧ two.1.xfer = some (.failed .ioError) ∧ two.1.script = [] := by
  decide +kernel

/-- A sink file that cannot be opened: IoError in the state Start (R219, R220). -/
theorem test_failed_sink_open :
    let h := { HostState.begin [.xfer .start, .file, .readPlen] with files := [false] }
    let two := (hostStep (hostStep h idle0).1 idle0).1
    (two.failed, two.xfer, two.script) = (some .ioError, some (.failed .ioError), []) := by decide +kernel

/-- A sink file that cannot be written (R220). -/
theorem test_failed_sink_write :
    let h := { HostState.begin [.sink 0, .advance 1 none] with
      files := [false], chunk := [0x41], xfer := some .transferring }
    ((hostStep h idle0).1.failed, (hostStep h idle0).1.sink, (hostStep h idle0).1.xfer)
      = (some .ioError, [], some (.failed .ioError)) := by decide +kernel

/-- Waiting for the interrupt makes no access, and ends with the interrupt (R223). -/
theorem test_wait_for_interrupt :
    let s := { idle0 with regs := { idle0.regs with ie := true } }
    let done := { s with regs := { s.regs with done := true } }
    let h := HostState.begin [.waitIrq, .checkStatus]
    hostStep h s = (h, s) ∧ hostStep h done = (h.pop [.checkStatus], done) := by decide +kernel

/-- The launches of an upload of three chunks: start, middle, end, with their codes and RETRIES (R202, R214 to R216). -/
theorem test_upload_launches :
    (match upload params0 [0x41] 5 2 with
      | .ok script => script.filter HostOp.launches
      | .error _ => []) =
      [wr .cmd 0x0005050B, wr .cmd 0x0005060B, wr .cmd 0x0005060B, wr .cmd 0x0005060B, wr .cmd 0x0005070B] := by decide +kernel

/-- The device of a block read. -/
def device0 : BlockDevice := { name := [0x41], window := 512, blockBytes := 512, blockCount := 4096 }

theorem witness_HostSequencesWait :
    (∃ script, cliOps params0 (.read [0x41] 5 2) = some (.ok script)) ∧
    (∃ script, cliOps params0 (.write [0x41] (some [1, 2, 3]) 2) = some (.ok script)) ∧
    (∃ script, cliOps params0 (.ready (some []) none) = some (.ok script)) ∧
    (∃ script, blockOps params0 device0 (.readBlock 3 2) = some (.ok script)) ∧
    (∃ script, blockOps params0 device0 .close = some (.ok script)) ∧
    (let P := { sourcePolicy with window1 := 1, window2 := 65535 }
     1 ≤ P.window1 ∧ P.window1 ≤ 65535 ∧ 1 ≤ P.window2 ∧ P.window2 ≤ 65535) :=
  ⟨⟨_, rfl⟩, ⟨_, rfl⟩, ⟨_, rfl⟩, ⟨_, rfl⟩, ⟨_, rfl⟩, by decide⟩

/-- What the contract fixes of a block device (R222). -/
theorem test_block_device :
    blockOpen params0 [0x41] 512 = .ok device0 ∧ blockOps params0 device0 (.writeBlock 0 []) = none := by decide

/-- A host that probes. -/
def system0 : System := { block := idle0, host := HostState.begin (probeOps params0 2), hostTurn := true }

theorem witness_WaitingHostNeverBusyErr :
    conforming system0.host.script = true ∧ system0.block.Inv ∧ system0.block.eng = .idle ∧
    system0.block.env.agenda = [] ∧ system0.block.regs.busyerr = false ∧
    (match systemRun 4 system0 with
      | .next z => z.block.regs.busy
      | _ => false) = true :=
  ⟨by decide, inv_idle0, by decide, by decide, by decide, by decide +kernel⟩

end Sys2Proof.Machine.Tests
end

/-! SUPPORT. The machine's invariant, cut into the part that speaks of the data alone and the part that a running
operation adds to it: what each update of the state keeps of either part, and how the invariant is made of them again. -/

namespace Sys2Proof.Machine

/-! ## The two parts of the invariant -/

/-- The clauses of `State.Inv` that hold in every phase of the engine (R8, R37, R45, R46, R48, R49). -/
structure State.DataOk (s : State) : Prop where
  buf : s.buf.wf = true
  txfLen : s.regs.txfLen.toNat = 0 ∨ 8 ≤ s.regs.txfLen.toNat ∧ s.regs.txfLen.toNat ≤ 65543
  txwLen : s.regs.txwLen.toNat ≤ 131084
  rxwLen : s.regs.rxwLen.toNat ≤ Config.regionSize
  rxfLen : s.regs.rxfLen.toNat ≤ Config.regionSize
  response : s.regs.rvalid = true → s.regs.respPlen.toNat + 8 = s.regs.rxfLen.toNat
  chunkMax : 1 ≤ s.env.rxChunkMax ∧ s.env.rxChunkMax ≤ Config.regionSize
  crcTable : s.env.crcTable.wf = true

/-- What holds beside it while the operation with hidden state `j` runs (R23, R24, R35, R36). The state's phase is left
open, so that it can be said of the states inside one engine step. -/
structure State.Active (s : State) (j : Job) : Prop where
  data : s.DataOk
  busy : s.regs.busy = true
  done : s.regs.done = false
  errcode : s.regs.errcode = .none
  job : JobOk s.regs j

/-- The engine makes port reads for the operation, and an attempt under way has been counted (R39, R170, R178). -/
structure Job.Reads (j : Job) : Prop where
  op : opReads j.op = true
  counted : opAttempts j.op = true → 1 ≤ j.k.toNat

theorem State.Inv.data {s : State} (h : s.Inv) : s.DataOk := { h with }

/-- An idle block meets the invariant when its data does. -/
theorem State.DataOk.inv_of_idle {s : State} (h : s.DataOk) (he : s.eng = .idle) (hb : s.regs.busy = false) :
    s.Inv :=
  { h with
    busy := by simp [he, hb]
    running := by simp [hb]
    engine := by simp [State.engineOk, he] }

/-- In phases other than idle the invariant is that of a running operation and the clause of the phase. -/
theorem State.Active.inv {s : State} {j : Job} (h : s.Active j) (hne : s.eng ≠ .idle) (he : s.engineOk) : s.Inv :=
  { h.data with
    busy := by simp [h.busy, hne]
    running := fun _ => ⟨h.done, h.errcode⟩
    engine := he }

theorem State.Inv.active_of_job {s : State} (h : s.Inv) {j : Job} (hne : s.eng ≠ .idle) (hj : JobOk s.regs j) :
    s.Active j :=
  have hb := h.busy.2 hne
  ⟨h.data, hb, (h.running hb).1, (h.running hb).2, hj⟩

theorem State.Inv.active_run {s : State} (h : s.Inv) {j : Job} {p : Point} (he : s.eng = .run j p) : s.Active j := by
  have hp := h.engine
  apply h.active_of_job (by simp [he])
  cases p <;> simp only [State.engineOk, he] at hp
  case start => exact hp
  case wrote => exact hp.1
  case got => exact hp.1

theorem State.Inv.waitWrite {s : State} (h : s.Inv) {bytes : List Byte} {j : Job} (he : s.eng = .waitWrite bytes j) :
    s.Active j ∧ opWrites j.op = true := by
  have hp := h.engine
  simp only [State.engineOk, he] at hp
  exact ⟨h.active_of_job (by simp [he]) hp.1, hp.2.1⟩

theorem State.Inv.waitRead {s : State} (h : s.Inv) {n : Nat} {j : Job} (he : s.eng = .waitRead n j) :
    s.Active j ∧ j.Reads ∧ s.receiving ∧ n = s.env.rxChunkMax := by
  have hp := h.engine
  simp only [State.engineOk, he] at hp
  obtain ⟨hj, hop, hk, hr, hn⟩ := hp
  exact ⟨h.active_of_job (by simp [he]) hj, ⟨hop, hk⟩, hr, hn⟩

theorem State.Inv.reads_of_got {s : State} (h : s.Inv) {j : Job} {a : ReadAnswer} (he : s.eng = .run j (.got a)) :
    j.Reads := by
  have hp := h.engine
  simp only [State.engineOk, he] at hp
  exact ⟨hp.2.1, hp.2.2.1⟩

theorem State.Inv.idle_of_not_busy {s : State} (h : s.Inv) (hb : s.regs.busy = false) : s.eng = .idle := by
  simpa [hb] using h.busy

/-! ## Operations that read also clear RVALID at their launch -/

theorem opReads_of_opAttempts {op : Byte} (h : opAttempts op = true) : opReads op = true := by
  simp only [opAttempts, opReads, Bool.or_eq_true] at h ⊢; tauto

theorem clearsRvalid_of_opReads {op : Byte} (h : opReads op = true) : clearsRvalid op = true := by
  simp only [opReads, clearsRvalid, Bool.or_eq_true] at h ⊢; tauto

/-! ## What an update keeps of the data -/

theorem State.DataOk.setResult {s : State} (h : s.DataOk) (v : Half) : (s.setResult v).DataOk := { h with }

theorem State.DataOk.setOutlen {s : State} (h : s.DataOk) (n : Nat) : (s.setOutlen n).DataOk := { h with }

theorem State.DataOk.setAttempts {s : State} (h : s.DataOk) (k : Byte) : (s.setAttempts k).DataOk := { h with }

theorem State.DataOk.setEng {s : State} (h : s.DataOk) (e : Engine) : (s.setEng e).DataOk := { h with }

theorem State.DataOk.writeSpan {s : State} (h : s.DataOk) {off : Nat} {bs : List Byte}
    (hs : off + bs.length ≤ Config.bufSize) : { s with buf := s.buf.writeSpan off bs }.DataOk :=
  { h with buf := Memory.wf_writeSpan bs s.buf off hs h.buf }

theorem State.DataOk.setTxfLen {s : State} (h : s.DataOk) {n : Nat} (h1 : 8 ≤ n) (h2 : n ≤ 65543) :
    (s.setTxfLen n).DataOk :=
  { h with txfLen := .inr (by simp; omega) }

theorem State.DataOk.setTxwLen {s : State} (h : s.DataOk) {n : Nat} (hn : n ≤ 131084) : (s.setTxwLen n).DataOk :=
  { h with txwLen := by simp; omega }

theorem State.DataOk.setRxwLen {s : State} (h : s.DataOk) {n : Nat} (hn : n ≤ Config.regionSize) :
    (s.setRxwLen n).DataOk :=
  { h with rxwLen := by simp only [State.setRxwLen_regs, BitVec.toNat_ofNat]; omega }

/-- RXF_LEN changes only while no response is valid (R37). -/
theorem State.DataOk.setRxfLen {s : State} (h : s.DataOk) (hv : s.regs.rvalid = false) {n : Nat}
    (hn : n ≤ Config.regionSize) : (s.setRxfLen n).DataOk :=
  { h with
    rxfLen := by simp only [State.setRxfLen_regs, BitVec.toNat_ofNat]; omega
    response := by simp [hv] }

/-- A response is made valid for the frame that RXF holds (R48). -/
theorem State.DataOk.setResponse {s : State} (h : s.DataOk) (w : Word) (c : Half) {n : Nat}
    (hn : n + 8 = s.regs.rxfLen.toNat) : (s.setResponse w c n).DataOk :=
  { h with
    response := fun _ => by
      have := h.rxfLen
      simp [Config.regionSize] at this ⊢; omega }

theorem State.DataOk.regsWrite {s : State} (h : s.DataOk) (v : Word) (r : Reg) :
    { s with regs := s.regs.write v r }.DataOk := by
  cases r <;> exact { h with }

/-- The end of an operation (R151). -/
theorem State.DataOk.inv_finish {s : State} (h : s.DataOk) (e : ErrCode) : (finish e s).Inv :=
  have hf : (finish e s).DataOk := { h with }
  hf.inv_of_idle rfl rfl

/-! ## What an update keeps of a running operation -/

theorem State.Active.setResult {s : State} {j : Job} (h : s.Active j) (v : Half) : (s.setResult v).Active j :=
  { h with data := h.data.setResult v, job := { h.job with } }

theorem State.Active.writeSpan {s : State} {j : Job} (h : s.Active j) {off : Nat} {bs : List Byte}
    (hs : off + bs.length ≤ Config.bufSize) : { s with buf := s.buf.writeSpan off bs }.Active j :=
  { h with data := h.data.writeSpan hs }

theorem State.Active.setTxfLen {s : State} {j : Job} (h : s.Active j) {n : Nat} (h1 : 8 ≤ n) (h2 : n ≤ 65543) :
    (s.setTxfLen n).Active j :=
  { h with data := h.data.setTxfLen h1 h2, job := { h.job with } }

theorem State.Active.setTxwLen {s : State} {j : Job} (h : s.Active j) {n : Nat} (hn : n ≤ 131084) :
    (s.setTxwLen n).Active j :=
  { h with data := h.data.setTxwLen hn, job := { h.job with } }

theorem State.Active.setRxwLen {s : State} {j : Job} (h : s.Active j) {n : Nat} (hn : n ≤ Config.regionSize) :
    (s.setRxwLen n).Active j :=
  { h with data := h.data.setRxwLen hn, job := { h.job with } }

/-- RXF_LEN is written by the operations that cleared RVALID at their launch (R37). -/
theorem State.Active.setRxfLen {s : State} {j : Job} (h : s.Active j) (hc : clearsRvalid j.op = true) {n : Nat}
    (hn : n ≤ Config.regionSize) : (s.setRxfLen n).Active j :=
  { h with data := h.data.setRxfLen (h.job.rvalid hc) hn, job := { h.job with } }

theorem State.Active.setLasterr {s : State} {j : Job} (h : s.Active j) {e : ErrCode}
    (he : e ∈ ErrCode.none :: receiveErrors) : s.Active { j with lasterr := e } :=
  { h with job := { h.job with lasterr := he } }

/-- ATTEMPTS of an operation without counted attempts is free (R163). -/
theorem State.Active.setAttempts {s : State} {j : Job} (h : s.Active j) (hop : opAttempts j.op = false) (k : Byte) :
    (s.setAttempts k).Active j :=
  { h with
    data := h.data.setAttempts k
    job := { h.job with mirrored := by simp [hop], bounded := by simp [hop] } }

/-- The attempt counter and its mirror move together, up to CMD.RETRIES (R24, R39). -/
theorem State.Active.count {s : State} {j : Job} (h : s.Active j) {k : Byte}
    (hk : k.toNat ≤ (cmdRetries s.regs.cmd).toNat) : (s.setAttempts k).Active { j with k := k } :=
  { h with
    data := h.data.setAttempts k
    job := { h.job with mirrored := fun _ => rfl, bounded := fun _ => hk } }

/-- A port request to write keeps the contract (R54, R262). -/
theorem State.Active.inv_waitWrite {s : State} {j : Job} (h : s.Active j) {bytes : List Byte}
    (hop : opWrites j.op = true) (h1 : 1 ≤ bytes.length) (h2 : bytes.length ≤ 131084) :
    (s.setEng (.waitWrite bytes j)).Inv :=
  have h' : (s.setEng (.waitWrite bytes j)).Active j := { h with data := h.data.setEng _ }
  h'.inv (by simp) ⟨h.job, hop, h1, h2⟩

/-- A port request to read keeps the contract (R54, R263). -/
theorem State.Active.inv_waitRead {s : State} {j : Job} (h : s.Active j) (hr : j.Reads) (hrec : s.receiving) :
    (s.setEng (.waitRead s.env.rxChunkMax j)).Inv :=
  have h' : (s.setEng (.waitRead s.env.rxChunkMax j)).Active j := { h with data := h.data.setEng _ }
  h'.inv (by simp) ⟨h.job, hr.op, hr.counted, hrec, rfl⟩

/-- The beginning of `receive_one` keeps the invariant (R160). -/
theorem State.Active.inv_receiveBegin {s : State} {j : Job} (h : s.Active j) (hr : j.Reads) :
    ((s.setRxwLen 0).setEng (.waitRead s.env.rxChunkMax j)).Inv :=
  (h.setRxwLen (Nat.zero_le _)).inv_waitRead hr (.inl rfl)

/-! ## What the shared operations keep -/

/-- `build` leaves a frame length in TXF_LEN (R94, R155). -/
theorem State.Active.built {s : State} {j : Job} (h : s.Active j) (cmd : Byte) : (builtState cmd j s).Active j := by
  have hn := s.regs.plen.isLt
  have hhead := h.writeSpan (off := Config.txfBase) (bs := frameHead cmd s.regs.plen)
    (by simp [Config.txfBase, Config.bufSize])
  have htail := hhead.writeSpan (off := Config.txfBase + 5 + s.regs.plen.toNat)
    (bs := frameTail (checksum s.env.crcTable j.m j.le (builtRegion cmd s.regs.plen s)))
    (by simp only [length_frameTail, Config.txfBase, Config.bufSize]; omega)
  exact (htail.setTxfLen (n := s.regs.plen.toNat + 8) (by omega) (by omega)).setResult _

theorem builtState_txfLen_ne_zero (cmd : Byte) (j : Job) (s : State) : (builtState cmd j s).regs.txfLen ≠ 0 := by
  intro h
  have hn := s.regs.plen.isLt
  have h0 : (s.regs.plen.toNat + 8) % 2 ^ 17 = 0 := congrArg BitVec.toNat h
  omega

theorem length_stuff_pos {bs : List Byte} (h : bs ≠ []) : 1 ≤ (stuff bs).length := by
  cases bs with
  | nil => exact absurd rfl h
  | cons b bs => simp [stuff]

/-- `send` hands the port a non-empty wire frame of legal length (R98, R157). -/
theorem State.Active.inv_sent {s : State} {j : Job} (h : s.Active j) (hop : opWrites j.op = true)
    (h0 : s.regs.txfLen ≠ 0) : (sentState j s).Inv := by
  have hpos : 0 < s.regs.txfLen.toNat := Nat.pos_of_ne_zero fun h => h0 (BitVec.eq_of_toNat_eq h)
  have hframe := h.data.txfLen
  have hlen := length_stuff_le (s.bytesAt Config.txfBase s.regs.txfLen.toNat)
  have hone : 1 ≤ (stuff (s.bytesAt Config.txfBase s.regs.txfLen.toNat)).length :=
    length_stuff_pos (List.ne_nil_of_length_pos (by simpa using hpos))
  rw [State.length_bytesAt, if_neg (by omega)] at hlen
  have hw := h.writeSpan (off := Config.txwBase) (bs := stuff (s.bytesAt Config.txfBase s.regs.txfLen.toNat))
    (by simp only [Config.txwBase, Config.bufSize]; omega)
  exact (hw.setTxwLen (by omega)).inv_waitWrite hop hone (by omega)

/-- PROBE hands the port its one byte (R102, R174). -/
theorem State.Active.inv_probed {s : State} {j : Job} (h : s.Active j) (hop : opWrites j.op = true) :
    (probedState j s).Inv :=
  have hw := h.writeSpan (off := Config.txwBase) (bs := [Config.delimiter]) (by decide)
  (hw.setTxwLen (n := 1) (by decide)).inv_waitWrite hop (by decide) (by decide)

theorem State.Active.storeChunk {s : State} {j : Job} (h : s.Active j) {chunk : List Byte}
    (hfit : s.regs.rxwLen.toNat + chunk.length ≤ Config.regionSize) : (s.storeChunk chunk).Active j := by
  have hw := h.writeSpan (off := Config.rxwBase + s.regs.rxwLen.toNat) (bs := chunk)
    (by simp only [Config.regionSize, Config.rxwBase, Config.bufSize] at hfit ⊢; omega)
  exact hw.setRxwLen hfit

/-- A chunk that ends in the escape byte makes the next request (R160). -/
theorem State.Active.inv_nextChunk {s : State} {j : Job} (h : s.Active j) (hr : j.Reads) {chunk : List Byte}
    (hne : chunk ≠ []) (hfit : s.regs.rxwLen.toNat + chunk.length ≤ Config.regionSize)
    (hlast : chunk.getLast? = some Config.escapeByte) :
    ((s.storeChunk chunk).setEng (.waitRead s.env.rxChunkMax j)).Inv := by
  rw [List.getLast?_eq_some_getLast hne, Option.some.injEq] at hlast
  exact (h.storeChunk hfit).inv_waitRead hr (.inr ((s.storeChunk_last chunk hne hfit).trans hlast))

/-- RXF holds at most as many bytes as RXW (R46, R165). -/
theorem length_unstuff_received {s : State} (h : s.DataOk) :
    (unstuff s.received).1.length ≤ Config.regionSize := by
  have hlen := length_unstuff_le s.received
  rw [State.received, State.length_bytesAt] at hlen
  exact hlen.trans h.rxwLen

theorem State.Active.unstuffed {s : State} {j : Job} (h : s.Active j) (hc : clearsRvalid j.op = true) :
    (unstuffedState s).Active j := by
  have hlen := length_unstuff_received h.data
  have hw := h.writeSpan (off := Config.rxfBase) (bs := (unstuff s.received).1)
    (by simp only [Config.regionSize, Config.rxfBase, Config.bufSize] at hlen ⊢; omega)
  exact hw.setRxfLen hc hlen

/-- A frame that fails a check leaves no response (R166). -/
theorem verified_of_error {m : ChecksumMode} {le : Bool} {f : List Byte} {s : State}
    (h : frameError s.env.crcTable m le f ≠ .none) : ∃ v, verified m le f s = s.setResult v := by
  unfold verified
  split
  · next h0 => exact absurd h0 h
  · exact ⟨_, rfl⟩
  · exact ⟨s.regs.result, rfl⟩

/-- A frame that passes every check has 8 bytes or more and leaves its response (R165, R166). -/
theorem verified_of_none {m : ChecksumMode} {le : Bool} {f : List Byte} {s : State}
    (h : frameError s.env.crcTable m le f = .none) :
    8 ≤ f.length ∧
      ∃ v, verified m le f s = (s.setResult v).setResponse (respOf f) (storedChecksum f) (f.length - 8) := by
  refine ⟨?_, _, by unfold verified; rw [h]⟩
  unfold frameError at h
  split at h
  · cases h
  · split at h
    · cases h
    · omega

/-- The checks keep the data when RXF_LEN is the length of the frame they are made on (R48, R165). -/
theorem State.DataOk.verified {s : State} (h : s.DataOk) {f : List Byte} (hlen : s.regs.rxfLen.toNat = f.length)
    (m : ChecksumMode) (le : Bool) : (verified m le f s).DataOk := by
  by_cases he : frameError s.env.crcTable m le f = .none
  · obtain ⟨h8, v, hv⟩ := verified_of_none he
    rw [hv]
    exact (h.setResult v).setResponse _ _ (by rw [State.setResult_regs, hlen]; omega)
  · obtain ⟨v, hv⟩ := verified_of_error he
    rw [hv]
    exact h.setResult v

theorem State.Active.verified_of_error {s : State} {j : Job} (h : s.Active j) {m : ChecksumMode} {le : Bool}
    {f : List Byte} (he : frameError s.env.crcTable m le f ≠ .none) : (verified m le f s).Active j := by
  obtain ⟨v, hv⟩ := Machine.verified_of_error he
  rw [hv]
  exact h.setResult v

theorem unstuffedState_rxfLen {s : State} (h : s.DataOk) :
    (unstuffedState s).regs.rxfLen.toNat = (unstuff s.received).1.length := by
  have hlt : (unstuff s.received).1.length < 2 ^ 19 := (length_unstuff_received h).trans_lt (by decide)
  exact Nat.mod_eq_of_lt hlt

/-- Unstuffing and the checks behind it keep the data (R165). -/
theorem State.Active.unstuffed_verified {s : State} {j : Job} (h : s.Active j) (hc : clearsRvalid j.op = true)
    (m : ChecksumMode) (le : Bool) : (Machine.verified m le (unstuff s.received).1 (unstuffedState s)).DataOk :=
  (h.unstuffed hc).data.verified (unstuffedState_rxfLen h.data) m le

/-! ## Receive attempts -/

/-- The end of an attempt keeps the data, and the operation may go on when it failed (R170, R176). -/
theorem attemptEnds_ok {j : Job} {a : ReadAnswer} {s u : State} {e : ErrCode} (hs : s.Active j)
    (hc : clearsRvalid j.op = true) (h : AttemptEnds j a s e u) : u.DataOk ∧ (e ≠ .none → u.Active j) := by
  cases h with
  | notReceived _ h => exact ⟨hs.data, fun _ => hs⟩
  | notUnstuffed chunk ha hne hfit h =>
    have hu := (hs.storeChunk hfit).setRxfLen hc (Nat.zero_le _)
    exact ⟨hu.data, fun _ => hu⟩
  | unstuffed chunk ha hne hfit he hf =>
    have hst := hs.storeChunk hfit
    exact ⟨hst.unstuffed_verified hc j.m j.le, fun he => (hst.unstuffed hc).verified_of_error he⟩

/-- The head of the loop of attempts (R170): the next attempt is counted and its first chunk requested. -/
theorem State.Active.inv_nextAttempt {s : State} {j : Job} (h : s.Active j) (hop : opAttempts j.op = true)
    (hk : j.k < cmdRetries s.regs.cmd) :
    (((s.setAttempts (j.k + 1)).setRxwLen 0).setEng
      (.waitRead s.env.rxChunkMax { j with k := j.k + 1 })).Inv := by
  have hlt := (cmdRetries s.regs.cmd).isLt
  have hk' : j.k.toNat < (cmdRetries s.regs.cmd).toNat := hk
  have hsucc : (j.k + 1).toNat = j.k.toNat + 1 := by
    rw [BitVec.toNat_add]; simp; omega
  exact (h.count (k := j.k + 1) (by omega)).inv_receiveBegin
    ⟨opReads_of_opAttempts hop, fun _ => by simp only [hsucc]; omega⟩

theorem State.Active.inv_firstAttempt {s : State} {j : Job} (h : s.Active j) (hop : opAttempts j.op = true)
    (h0 : cmdRetries s.regs.cmd ≠ 0) : (firstAttempt j s).Inv := by
  have hpos : 0 < (cmdRetries s.regs.cmd).toNat := Nat.pos_of_ne_zero fun hz => h0 (BitVec.eq_of_toNat_eq hz)
  exact (h.count (k := 1) hpos).inv_receiveBegin ⟨opReads_of_opAttempts hop, fun _ => by simp⟩

/-- `attempts` from its beginning (R170). -/
theorem attemptsBegin_inv {j : Job} {s t : State} (hs : s.Active j) (hop : opAttempts j.op = true)
    (h : attemptsBegin (cmdRetries s.regs.cmd) j s = .next t) : t.Inv := by
  rcases attemptsBegin_next h with ⟨rfl, h0⟩ | ⟨rfl, -⟩
  · exact hs.inv_firstAttempt hop h0
  · exact hs.data.inv_finish _

/-- `attempts` behind a `PortRead`: the next chunk, the next attempt or the end (R160, R170). -/
theorem attemptsResume_inv {j : Job} {a : ReadAnswer} {s t : State} (hs : s.Active j) (hr : j.Reads)
    (hop : opAttempts j.op = true) (h : attemptsResume (cmdRetries s.regs.cmd) a j s = .next t) : t.Inv := by
  rcases attemptsResume_next h with ⟨chunk, -, hne, hlast, hfit, rfl⟩ | ⟨e, u, hends, h⟩
  · exact hs.inv_nextChunk hr hne hfit hlast
  · obtain ⟨hdata, hactive⟩ := attemptEnds_ok hs (clearsRvalid_of_opReads hr.op) hends
    rcases attemptResult_next h with ⟨rfl, -⟩ | ⟨he, hk, rfl⟩
    · exact hdata.inv_finish _
    · obtain ⟨-, -, _, _, _, _, _, _, _, hregs, -⟩ := attemptEnds_keeps hends
      have hu := (hactive he).setLasterr (attemptEnds_error hends)
      exact hu.inv_nextAttempt hop (by rw [hregs]; exact hk)

end Sys2Proof.Machine

/-! SUPPORT. StepKeepsInv: the invariant is kept by the engine's step of every operation, by every host access, by the
port's answers and by the reset input. -/

namespace Sys2Proof.Machine

/-! ## The operation that runs -/

/-- A word that decodes is the encoding of its operation but for the reserved bits (R80, R82). -/
theorem commandWord_of_decode {w : Word} {i : Instr} (h : decode w = .ok i) :
    commandWord (opField w) (fcmdField w) (retriesField w) = encode i := by
  by_cases hl : 1 ≤ (opField w).toNat ∧ (opField w).toNat ≤ 12
  · unfold decode at h
    rcases (opcode_range _).1 hl with hop | hop | hop | hop | hop | hop | hop | hop | hop | hop | hop | hop <;>
      (rw [hop] at h ⊢; obtain rfl := Except.ok.inj h; rfl)
  · rw [decode_of_illegal w (by omega)] at h
    cases h

/-- A running operation is the one that its hidden state and CMD name (R24, R72). -/
def State.Runs (s : State) (i : Instr) : Prop := ∀ j p, s.eng = .run j p → encode i = latchedWord j s

theorem runs_of_decode {s : State} {i : Instr} {j : Job} {p : Point} (he : s.eng = .run j p)
    (h : decode (latchedWord j s) = .ok i) : s.Runs i := by
  intro j' p' he'
  obtain ⟨rfl, rfl⟩ : j = j' ∧ p = p' := by simpa using he.symm.trans he'
  rw [← commandWord_of_decode h]
  simp only [latchedWord, opField_commandWord, fcmdField_commandWord, retriesField_commandWord]

theorem State.Runs.op {s : State} {i : Instr} {j : Job} {p : Point} (h : s.Runs i) (he : s.eng = .run j p) :
    j.op = opField (encode i) := by
  rw [h j p he, latchedWord, opField_commandWord]

theorem State.Runs.retries {s : State} {i : Instr} {j : Job} {p : Point} (h : s.Runs i) (he : s.eng = .run j p) :
    retriesField (encode i) = cmdRetries s.regs.cmd := by
  rw [h j p he, latchedWord, retriesField_commandWord]

/-! ## The engine's step of each operation -/

theorem checksumOp_inv {f : Job → List Byte → Half} {s t : State} (hs : s.Inv) (h : checksumOp f s = .next t) :
    t.Inv := by
  rcases checksumOp_next h with rfl | ⟨j, -, rfl⟩
  · exact hs.data.inv_finish _
  · exact (hs.data.setResult _).inv_finish _

theorem storeOutput_inv {out : List Byte} {s t : State} (hs : s.Inv) (h : storeOutput out s = .next t) : t.Inv := by
  rcases storeOutput_next h with rfl | ⟨hfit, rfl⟩
  · exact (hs.data.setOutlen _).inv_finish _
  · exact ((hs.data.setOutlen _).writeSpan hfit).inv_finish _

theorem execStuff_inv {fcmd retries : Byte} {s t : State} (hs : s.Inv) (h : exec (.stuff fcmd retries) s = .next t) :
    t.Inv := by
  obtain ⟨-, rfl | h⟩ := execStuff_next h
  · exact hs.data.inv_finish _
  · exact storeOutput_inv hs h

theorem execUnstuff_inv {fcmd retries : Byte} {s t : State} (hs : s.Inv)
    (h : exec (.unstuff fcmd retries) s = .next t) : t.Inv := by
  obtain ⟨-, rfl | ⟨-, rfl⟩ | ⟨-, h⟩⟩ := execUnstuff_next h
  · exact hs.data.inv_finish _
  · exact (hs.data.setOutlen _).inv_finish _
  · exact storeOutput_inv hs h

theorem execBuild_inv {fcmd retries : Byte} {s t : State} (hs : s.Inv) (h : exec (.build fcmd retries) s = .next t) :
    t.Inv := by
  obtain ⟨j, he, rfl⟩ := execBuild_next h
  exact ((hs.active_run he).built fcmd).data.inv_finish _

theorem execSend_inv {fcmd retries : Byte} {s t : State} (hs : s.Inv) (hi : s.Runs (.send fcmd retries))
    (h : exec (.send fcmd retries) s = .next t) : t.Inv := by
  rcases execSend_next h with ⟨j, -, -, rfl⟩ | ⟨j, he, h0, rfl⟩ | ⟨j, a, -, rfl⟩
  · exact hs.data.inv_finish _
  · exact (hs.active_run he).inv_sent (by simp [hi.op he, encode, opField_commandWord, opWrites]) h0
  · exact hs.data.inv_finish _

theorem execRecv_inv {fcmd retries : Byte} {s t : State} (hs : s.Inv) (hi : s.Runs (.recv fcmd retries))
    (h : exec (.recv fcmd retries) s = .next t) : t.Inv := by
  rcases execRecv_next h with ⟨j, he, rfl⟩ | ⟨j, a, he, h⟩
  · have hop : j.op = 0x08 := by rw [hi.op he, encode, opField_commandWord]
    have hna : opAttempts j.op = false := by simp [hop, opAttempts]
    exact ((hs.active_run he).setAttempts hna 1).inv_receiveBegin ⟨by simp [hop, opReads], by simp [hna]⟩
  · have ha := hs.active_run he
    rcases receiveChunk_next h with ⟨e, -, h⟩ | ⟨chunk, -, hne, hfit, h | ⟨hlast, rfl⟩⟩
    · cases h; exact ha.data.inv_finish _
    · cases h; exact (ha.storeChunk hfit).data.inv_finish _
    · exact ha.inv_nextChunk (hs.reads_of_got he) hne hfit hlast

theorem execDecode_inv {fcmd retries : Byte} {s t : State} (hs : s.Inv) (hi : s.Runs (.decode fcmd retries))
    (h : exec (.decode fcmd retries) s = .next t) : t.Inv := by
  obtain ⟨j, he, h⟩ := execDecode_next h
  have ha := hs.active_run he
  have hc : clearsRvalid j.op = true := by simp [hi.op he, encode, opField_commandWord, clearsRvalid]
  rcases decodeVerify_next h with ⟨-, h⟩ | ⟨-, -, h⟩
  · cases h; exact (ha.setRxfLen hc (Nat.zero_le _)).data.inv_finish _
  · cases h; exact (ha.unstuffed_verified hc j.m j.le).inv_finish _

/-- Of the operations with counted attempts: their opcode counts attempts, and their limit is CMD.RETRIES (R39). -/
theorem State.Runs.attempts {s : State} {i : Instr} {fcmd retries : Byte} {j : Job} {p : Point} (h : s.Runs i)
    (hi : i ∈ attemptInstrs fcmd retries) (he : s.eng = .run j p) :
    opAttempts j.op = true ∧ retries = cmdRetries s.regs.cmd := by
  rw [h.op he, ← h.retries he]
  simp only [attemptInstrs, List.mem_cons, List.not_mem_nil, or_false] at hi
  rcases hi with rfl | rfl | rfl <;>
    simp [encode, opField_commandWord, retriesField_commandWord, opAttempts]

/-- EXCHANGE and PROBE behind their port write (R172, R174). -/
theorem attemptsBegin_inv_of_runs {i : Instr} {fcmd retries : Byte} {j : Job} {p : Point} {s t : State} (hs : s.Inv)
    (hr : s.Runs i) (hi : i ∈ attemptInstrs fcmd retries) (he : s.eng = .run j p)
    (h : attemptsBegin retries j s = .next t) : t.Inv := by
  obtain ⟨hop, rfl⟩ := hr.attempts hi he
  exact attemptsBegin_inv (hs.active_run he) hop h

/-- RECVX, EXCHANGE and PROBE behind a port read (R171, R172, R174). -/
theorem attemptsResume_inv_of_runs {i : Instr} {fcmd retries : Byte} {j : Job} {a : ReadAnswer} {s t : State}
    (hs : s.Inv) (hr : s.Runs i) (hi : i ∈ attemptInstrs fcmd retries) (he : s.eng = .run j (.got a))
    (h : attemptsResume retries a j s = .next t) : t.Inv := by
  obtain ⟨hop, rfl⟩ := hr.attempts hi he
  exact attemptsResume_inv (hs.active_run he) (hs.reads_of_got he) hop h

theorem execRecvx_inv {fcmd retries : Byte} {s t : State} (hs : s.Inv) (hr : s.Runs (.recvx fcmd retries))
    (h : exec (.recvx fcmd retries) s = .next t) : t.Inv := by
  have hi : .recvx fcmd retries ∈ attemptInstrs fcmd retries := by simp [attemptInstrs]
  rcases execRecvx_next h with ⟨j, -, -, rfl⟩ | ⟨j, he, h0, rfl⟩ | ⟨j, a, he, h⟩
  · exact hs.data.inv_finish _
  · obtain ⟨hop, rfl⟩ := hr.attempts hi he
    exact (hs.active_run he).inv_firstAttempt hop h0
  · exact attemptsResume_inv_of_runs hs hr hi he h

theorem execExchange_inv {fcmd retries : Byte} {s t : State} (hs : s.Inv) (hr : s.Runs (.exchange fcmd retries))
    (h : exec (.exchange fcmd retries) s = .next t) : t.Inv := by
  have hi : .exchange fcmd retries ∈ attemptInstrs fcmd retries := by simp [attemptInstrs]
  rcases execExchange_next h with ⟨j, -, -, rfl⟩ | ⟨j, he, -, rfl⟩ | ⟨j, -, rfl⟩ | ⟨j, he, h⟩ | ⟨j, a, he, h⟩
  · exact hs.data.inv_finish _
  · have hop : opWrites j.op = true := by simp [hr.op he, encode, opField_commandWord, opWrites]
    exact ((hs.active_run he).built fcmd).inv_sent hop (builtState_txfLen_ne_zero fcmd j s)
  · exact hs.data.inv_finish _
  · exact attemptsBegin_inv_of_runs hs hr hi he h
  · exact attemptsResume_inv_of_runs hs hr hi he h

theorem execProbe_inv {fcmd retries : Byte} {s t : State} (hs : s.Inv) (hr : s.Runs (.probe fcmd retries))
    (h : exec (.probe fcmd retries) s = .next t) : t.Inv := by
  have hi : .probe fcmd retries ∈ attemptInstrs fcmd retries := by simp [attemptInstrs]
  rcases execProbe_next h with ⟨j, -, -, rfl⟩ | ⟨j, he, -, rfl⟩ | ⟨j, -, rfl⟩ | ⟨j, he, h⟩ | ⟨j, a, he, h⟩
  · exact hs.data.inv_finish _
  · have hop : opWrites j.op = true := by simp [hr.op he, encode, opField_commandWord, opWrites]
    exact (hs.active_run he).inv_probed hop
  · exact hs.data.inv_finish _
  · exact attemptsBegin_inv_of_runs hs hr hi he h
  · exact attemptsResume_inv_of_runs hs hr hi he h

/-- The engine's step of any operation keeps the invariant (R153). -/
theorem exec_inv {i : Instr} {s t : State} (hs : s.Inv) (hr : s.Runs i) (h : exec i s = .next t) : t.Inv := by
  cases i with
  | crc16 fcmd retries => exact checksumOp_inv hs h
  | isum fcmd retries => exact checksumOp_inv hs h
  | cksum fcmd retries => exact checksumOp_inv hs h
  | stuff fcmd retries => exact execStuff_inv hs h
  | unstuff fcmd retries => exact execUnstuff_inv hs h
  | build fcmd retries => exact execBuild_inv hs h
  | send fcmd retries => exact execSend_inv hs hr h
  | recv fcmd retries => exact execRecv_inv hs hr h
  | decode fcmd retries => exact execDecode_inv hs hr h
  | recvx fcmd retries => exact execRecvx_inv hs hr h
  | exchange fcmd retries => exact execExchange_inv hs hr h
  | probe fcmd retries => exact execProbe_inv hs hr h

/-- The engine's move keeps the invariant, an illegal opcode included (R83, R153). -/
theorem engineStep_inv {s t : State} (hs : s.Inv) (h : engineStep s = .next t) : t.Inv := by
  unfold engineStep at h
  split at h
  · next j p he =>
    split at h
    · next i hi => exact exec_inv hs (runs_of_decode he hi) h
    · cases h; exact hs.data.inv_finish _
  · cases h; exact hs
  · cases h; exact hs
  · cases h; exact hs

/-! ## The other agents -/

/-- The port's answer keeps the contract and changes nothing else that the invariant speaks of (R153, R262, R263). -/
theorem portStep_inv {s : State} (hs : s.Inv) : (portStep s).Inv := by
  rcases portStep_cases s with ⟨bytes, j, he, h⟩ | ⟨n, j, he, h⟩ | ⟨-, h⟩
  · obtain ⟨ha, hop⟩ := hs.waitWrite he
    rw [h, answerWrite_env]
    exact State.Active.inv (j := j) { ha with data := { ha.data with } } (by simp) ⟨ha.job, hop⟩
  · obtain ⟨ha, hr, hrec, rfl⟩ := hs.waitRead he
    rw [h, answerRead_env]
    exact State.Active.inv (j := j) { ha with data := { ha.data with } } (by simp)
      ⟨ha.job, hr.op, hr.counted, hrec, answerRead_length _ _⟩
  · rw [h]; exact hs

/-- An update that keeps the phase, BUF, RXW_LEN and the agreement of the registers with the hidden state keeps the
clause of the phase. -/
theorem State.engineOk_of_frame {s t : State} (h : s.engineOk) (heng : t.eng = s.eng) (hbuf : t.buf = s.buf)
    (hrxw : t.regs.rxwLen = s.regs.rxwLen) (hepoch : t.env.epoch = s.env.epoch)
    (hmax : t.env.rxChunkMax = s.env.rxChunkMax) (hjob : ∀ j, JobOk s.regs j → JobOk t.regs j) : t.engineOk := by
  have hrec : s.receiving → t.receiving := by
    simp only [State.receiving, State.byteAt, hbuf, hrxw, hepoch]; exact id
  unfold State.engineOk at h ⊢
  rw [heng]
  split at h
  · trivial
  · exact hjob _ h
  · exact ⟨hjob _ h.1, h.2⟩
  · obtain ⟨hj, hop, hk, hr, hchunk⟩ := h
    exact ⟨hjob _ hj, hop, hk, hrec hr, hmax ▸ hchunk⟩
  · exact ⟨hjob _ h.1, h.2⟩
  · obtain ⟨hj, hop, hk, hr, hn⟩ := h
    exact ⟨hjob _ hj, hop, hk, hrec hr, hmax ▸ hn⟩

theorem State.Inv.setReply {s : State} (h : s.Inv) (r : Reply) : (s.setReply r).Inv :=
  { h with engine := State.engineOk_of_frame h.engine rfl rfl rfl rfl rfl fun _ hj => hj }

theorem State.Inv.setAgenda {s : State} (h : s.Inv) (es : List Event) : (s.setAgenda es).Inv :=
  { h with engine := State.engineOk_of_frame h.engine rfl rfl rfl rfl rfl fun _ hj => hj }

theorem State.Inv.setBusyErr {s : State} (h : s.Inv) : s.setBusyErr.Inv :=
  { h with engine := State.engineOk_of_frame h.engine rfl rfl rfl rfl rfl fun _ hj => { hj with } }

/-- A write to STATUS can only clear DONE and BUSYERR (R33). -/
theorem State.Inv.writeStatus {s : State} (h : s.Inv) (v : Word) : { s with regs := s.regs.writeStatus v }.Inv :=
  { h with
    running := fun hb => ⟨by simp [Regs.writeStatus, (h.running hb).1], (h.running hb).2⟩
    engine := State.engineOk_of_frame h.engine rfl rfl rfl rfl rfl fun _ hj => { hj with } }

/-- The hidden state at a launch agrees with the registers (R24, R150, R152). -/
theorem jobOk_launched (r : Regs) (w : Word) : JobOk (r.launched w) (launchedJob r w) where
  op := (cmdOp_extractLsb w).symm
  m := rfl
  le := rfl
  rvalid h := by simp [show clearsRvalid (opField w) = true from h]
  lasterr := by simp
  mirrored _ := rfl
  bounded _ := Nat.zero_le _

/-- A launch keeps the invariant (R150). -/
theorem State.DataOk.inv_launch {s : State} (h : s.DataOk) (w : Word) : (launch w s).Inv := by
  have hdata : (launch w s).DataOk :=
    { h with
      response := fun hv => h.response (by
        rw [launch_regs, Regs.launched_rvalid] at hv
        split at hv <;> simp_all) }
  exact State.Active.inv ⟨hdata, rfl, rfl, rfl, jobOk_launched s.regs w⟩ (by simp) (jobOk_launched s.regs w)

/-- Every host access keeps the invariant (R33, R51, R66). -/
theorem busAccess_inv {s : State} (hs : s.Inv) (a : Access) : (busAccess a s).Inv := by
  obtain ⟨t, rep, h, ht⟩ := busAccess_cases a s
  rw [h]
  apply State.Inv.setReply
  rcases ht with rfl | rfl | ⟨v, rfl⟩ | ⟨he, v, rfl⟩ | ⟨hb, v, r, rfl⟩ | ⟨hb, off, bs, hfit, rfl⟩
  · exact hs
  · exact hs.setBusyErr
  · exact hs.writeStatus v
  · exact hs.data.inv_launch v
  · exact (hs.data.regsWrite v r).inv_of_idle (hs.idle_of_not_busy hb) (by rw [← hb]; cases r <;> rfl)
  · exact (hs.data.writeSpan hfit).inv_of_idle (hs.idle_of_not_busy hb) hb

/-- The reset input leads back to the reset state's registers and keeps the parameters (R8, R280). -/
theorem resetStep_inv {s : State} (hs : s.Inv) : (resetStep s).Inv := by
  have hdata : (resetStep s).DataOk := by
    constructor
    case chunkMax => rw [resetStep_env, discardRequest_env]; exact hs.chunkMax
    case crcTable => rw [resetStep_env, discardRequest_env]; exact hs.crcTable
    all_goals simp [Regs.reset, Memory.wf, risingFrom]
  exact hdata.inv_of_idle rfl rfl

/-! ## Every step -/

theorem perform_inv {e : Event} {s t : State} (hs : s.Inv) (h : perform e s = .next t) : t.Inv := by
  cases e with
  | reset => cases h; exact resetStep_inv hs
  | host a => cases h; exact busAccess_inv hs a
  | engine => exact engineStep_inv hs h
  | port => cases h; exact portStep_inv hs

theorem runOn_inv {s t : State} (hs : s.Inv) (h : runOn s = .next t) : t.Inv := by
  unfold runOn at h
  split at h
  · exact engineStep_inv hs h
  · cases h; exact portStep_inv hs
  · cases h; exact portStep_inv hs
  · cases h; exact hs

/-- Settles O50: it holds, agent by agent; the engine's part operation by operation (`exec_inv`). -/
theorem stepKeepsInv : Obligations.StepKeepsInv := by
  intro s t hs h
  unfold step at h
  split at h
  · exact runOn_inv hs h
  · exact perform_inv (hs.setAgenda _) h

end Sys2Proof.Machine

/-! SUPPORT. What an engine step of an operation leaves alone: one equation for the registers that an operation of a given
opcode may write, with the outside world unchanged. The statements about single registers are read off it. -/

namespace Sys2Proof.Machine

/-! ## The register frame of an operation -/

/-- The opcodes of RECVX, EXCHANGE and PROBE, which make counted receive attempts (R39). -/
def attemptOpcodes : List Byte := [0x0A#8, 0x0B#8, 0x0C#8]

/-- The opcodes of RECV and the attempts operations, which receive into RXW (R46). -/
def receiveOpcodes : List Byte := [0x08#8, 0x0A#8, 0x0B#8, 0x0C#8]

/-- The opcodes of DECODE and the attempts operations, which verify a frame (R37, R46). -/
def verifyOpcodes : List Byte := [0x09#8, 0x0A#8, 0x0B#8, 0x0C#8]

/-- The registers `r` with the result registers of the opcode as `r'` has them (R37, R39, R41, R43, R45 to R48); BUSY, DONE
and ERRCODE belong to every operation (R151). -/
def Regs.resultsFrom (r r' : Regs) (op : Byte) : Regs :=
  { r with
    busy := r'.busy
    done := r'.done
    errcode := r'.errcode
    result := if op ∈ [0x04#8, 0x05#8, 0x07#8, 0x08#8] then r.result else r'.result
    outlen := if op ∈ [0x04#8, 0x05#8] then r'.outlen else r.outlen
    txfLen := if op ∈ [0x06#8, 0x0B#8] then r'.txfLen else r.txfLen
    txwLen := if op ∈ [0x07#8, 0x0B#8, 0x0C#8] then r'.txwLen else r.txwLen
    rxwLen := if op ∈ receiveOpcodes then r'.rxwLen else r.rxwLen
    attempts := if op ∈ receiveOpcodes then r'.attempts else r.attempts
    rxfLen := if op ∈ verifyOpcodes then r'.rxfLen else r.rxfLen
    resp := if op ∈ verifyOpcodes then r'.resp else r.resp
    respCks := if op ∈ verifyOpcodes then r'.respCks else r.respCks
    respPlen := if op ∈ verifyOpcodes then r'.respPlen else r.respPlen
    rvalid := if op ∈ verifyOpcodes then r'.rvalid else r.rvalid }

/-- From `s` to `t` an operation of the opcode has written its own result registers and nothing of the outside world. -/
structure OpFrame (op : Byte) (s t : State) : Prop where
  regs : t.regs = s.regs.resultsFrom t.regs op
  env : t.env = s.env

/-- The frame of a finish with nothing written is that of every operation. -/
theorem OpFrame.finish (op : Byte) (e : ErrCode) (s : State) : OpFrame op s (finish e s) :=
  ⟨by simp [Regs.resultsFrom, Regs.finished], rfl⟩

theorem checksumOp_frame {f : Job → List Byte → Half} {s t : State} {op : Byte} (hop : op ∈ [0x01#8, 0x02#8, 0x03#8])
    (h : checksumOp f s = .next t) : OpFrame op s t := by
  rcases checksumOp_next h with rfl | ⟨j, -, rfl⟩
  · exact .finish ..
  · simp only [List.mem_cons, List.not_mem_nil, or_false] at hop
    rcases hop with rfl | rfl | rfl <;> exact ⟨rfl, rfl⟩

theorem storeOutput_frame {out : List Byte} {s t : State} {op : Byte} (hop : op ∈ [0x04#8, 0x05#8])
    (h : storeOutput out s = .next t) : OpFrame op s t := by
  simp only [List.mem_cons, List.not_mem_nil, or_false] at hop
  rcases storeOutput_next h with rfl | ⟨-, rfl⟩ <;> rcases hop with rfl | rfl <;> exact ⟨rfl, rfl⟩

theorem execStuff_frame {fcmd retries : Byte} {s t : State} (h : exec (.stuff fcmd retries) s = .next t) :
    OpFrame 0x04 s t := by
  obtain ⟨-, rfl | h⟩ := execStuff_next h
  · exact .finish ..
  · exact storeOutput_frame (by simp) h

theorem execUnstuff_frame {fcmd retries : Byte} {s t : State} (h : exec (.unstuff fcmd retries) s = .next t) :
    OpFrame 0x05 s t := by
  obtain ⟨-, rfl | ⟨-, rfl⟩ | ⟨-, h⟩⟩ := execUnstuff_next h
  · exact .finish ..
  · exact ⟨rfl, rfl⟩
  · exact storeOutput_frame (by simp) h

theorem execBuild_frame {fcmd retries : Byte} {s t : State} (h : exec (.build fcmd retries) s = .next t) :
    OpFrame 0x06 s t := by
  obtain ⟨j, -, rfl⟩ := execBuild_next h
  exact ⟨rfl, rfl⟩

theorem execSend_frame {fcmd retries : Byte} {s t : State} (h : exec (.send fcmd retries) s = .next t) :
    OpFrame 0x07 s t := by
  rcases execSend_next h with ⟨j, -, -, rfl⟩ | ⟨j, -, -, rfl⟩ | ⟨j, a, -, rfl⟩
  · exact .finish ..
  · exact ⟨rfl, rfl⟩
  · exact .finish ..

theorem execRecv_frame {fcmd retries : Byte} {s t : State} (h : exec (.recv fcmd retries) s = .next t) :
    OpFrame 0x08 s t := by
  rcases execRecv_next h with ⟨j, -, rfl⟩ | ⟨j, a, -, h⟩
  · exact ⟨rfl, rfl⟩
  · rcases receiveChunk_next h with ⟨e, -, h⟩ | ⟨chunk, -, -, -, h | ⟨-, rfl⟩⟩
    · cases h; exact .finish ..
    · cases h; exact ⟨rfl, rfl⟩
    · exact ⟨rfl, rfl⟩

theorem execDecode_frame {fcmd retries : Byte} {s t : State} (h : exec (.decode fcmd retries) s = .next t) :
    OpFrame 0x09 s t := by
  obtain ⟨j, -, h⟩ := execDecode_next h
  rcases decodeVerify_next h with ⟨-, h⟩ | ⟨-, -, h⟩
  · cases h; exact ⟨rfl, rfl⟩
  · cases h
    obtain ⟨-, henv, -, _, _, _, _, _, hregs, -⟩ :=
      verified_keeps j.m j.le (unstuff s.received).1 (unstuffedState s)
    exact ⟨by rw [finish_regs, hregs]; rfl, henv⟩

/-! ## The attempts operations -/

theorem attemptsBegin_frame {n : Byte} {j : Job} {s t : State} {op : Byte} (hop : op ∈ attemptOpcodes)
    (h : attemptsBegin n j s = .next t) : OpFrame op s t := by
  simp only [attemptOpcodes, List.mem_cons, List.not_mem_nil, or_false] at hop
  rcases attemptsBegin_next h with ⟨rfl, -⟩ | ⟨rfl, -⟩
  · rcases hop with rfl | rfl | rfl <;> exact ⟨rfl, rfl⟩
  · exact .finish ..

theorem attemptsResume_frame {n : Byte} {a : ReadAnswer} {j : Job} {s t : State} {op : Byte}
    (hop : op ∈ attemptOpcodes) (h : attemptsResume n a j s = .next t) : OpFrame op s t := by
  simp only [attemptOpcodes, List.mem_cons, List.not_mem_nil, or_false] at hop
  rcases attemptsResume_next h with ⟨chunk, -, -, -, -, rfl⟩ | ⟨e, u, hends, h⟩
  · rcases hop with rfl | rfl | rfl <;> exact ⟨rfl, rfl⟩
  · obtain ⟨-, henv, _, _, _, _, _, _, _, hregs, -⟩ := attemptEnds_keeps hends
    rcases attemptResult_next h with ⟨rfl, -⟩ | ⟨-, -, rfl⟩
    · refine ⟨?_, henv⟩
      rw [finish_regs, hregs]
      rcases hop with rfl | rfl | rfl <;> rfl
    · refine ⟨?_, henv⟩
      rw [State.setEng_regs, State.setRxwLen_regs, State.setAttempts_regs, hregs]
      rcases hop with rfl | rfl | rfl <;> rfl

theorem execRecvx_frame {fcmd retries : Byte} {s t : State} (h : exec (.recvx fcmd retries) s = .next t) :
    OpFrame 0x0A s t := by
  rcases execRecvx_next h with ⟨j, -, -, rfl⟩ | ⟨j, -, -, rfl⟩ | ⟨j, a, -, h⟩
  · exact .finish ..
  · exact ⟨rfl, rfl⟩
  · exact attemptsResume_frame (by decide) h

theorem execExchange_frame {fcmd retries : Byte} {s t : State} (h : exec (.exchange fcmd retries) s = .next t) :
    OpFrame 0x0B s t := by
  rcases execExchange_next h with ⟨j, -, -, rfl⟩ | ⟨j, -, -, rfl⟩ | ⟨j, -, rfl⟩ | ⟨j, -, h⟩ | ⟨j, a, -, h⟩
  · exact .finish ..
  · exact ⟨rfl, rfl⟩
  · exact .finish ..
  · exact attemptsBegin_frame (by decide) h
  · exact attemptsResume_frame (by decide) h

theorem execProbe_frame {fcmd retries : Byte} {s t : State} (h : exec (.probe fcmd retries) s = .next t) :
    OpFrame 0x0C s t := by
  rcases execProbe_next h with ⟨j, -, -, rfl⟩ | ⟨j, -, -, rfl⟩ | ⟨j, -, rfl⟩ | ⟨j, -, h⟩ | ⟨j, a, -, h⟩
  · exact .finish ..
  · exact ⟨rfl, rfl⟩
  · exact .finish ..
  · exact attemptsBegin_frame (by decide) h
  · exact attemptsResume_frame (by decide) h

/-! ## Every operation -/

/-- The opcode of each operation (R82). -/
def opcodeOf : Instr → Byte
  | .crc16 _ _ => 0x01
  | .isum _ _ => 0x02
  | .cksum _ _ => 0x03
  | .stuff _ _ => 0x04
  | .unstuff _ _ => 0x05
  | .build _ _ => 0x06
  | .send _ _ => 0x07
  | .recv _ _ => 0x08
  | .decode _ _ => 0x09
  | .recvx _ _ => 0x0A
  | .exchange _ _ => 0x0B
  | .probe _ _ => 0x0C

theorem opField_encode (i : Instr) : opField (encode i) = opcodeOf i := by
  cases i <;> exact opField_commandWord ..

/-- The frame of every operation's engine step (R251). -/
theorem exec_frame {i : Instr} {s t : State} (h : exec i s = .next t) : OpFrame (opField (encode i)) s t := by
  rw [opField_encode]
  cases i with
  | crc16 fcmd retries => exact checksumOp_frame (by simp [opcodeOf]) h
  | isum fcmd retries => exact checksumOp_frame (by simp [opcodeOf]) h
  | cksum fcmd retries => exact checksumOp_frame (by simp [opcodeOf]) h
  | stuff fcmd retries => exact execStuff_frame h
  | unstuff fcmd retries => exact execUnstuff_frame h
  | build fcmd retries => exact execBuild_frame h
  | send fcmd retries => exact execSend_frame h
  | recv fcmd retries => exact execRecv_frame h
  | decode fcmd retries => exact execDecode_frame h
  | recvx fcmd retries => exact execRecvx_frame h
  | exchange fcmd retries => exact execExchange_frame h
  | probe fcmd retries => exact execProbe_frame h

/-- Settles O9: it holds; no register that only the host writes stands in the frame of an operation (`exec_frame`). -/
theorem operationsKeepHostRegisters : Obligations.OperationsKeepHostRegisters := by
  intro i s t h
  obtain ⟨hregs, henv⟩ := exec_frame h
  rw [hregs]
  exact ⟨rfl, rfl, rfl, rfl, rfl, rfl, rfl, rfl, rfl, rfl, henv⟩

/-- Settles O11: it holds; each clause is a field of the frame of an operation (`exec_frame`). -/
theorem operationsKeepOtherResults : Obligations.OperationsKeepOtherResults := by
  intro i s t h
  have hregs := (exec_frame h).regs
  refine ⟨fun hop => ?_, fun hop => ?_, fun hop => ?_, fun hop => ⟨?_, ?_⟩, fun hop => ?_, fun hop => ?_⟩
  · exact (congrArg Regs.outlen hregs).trans (if_neg hop)
  · exact (congrArg Regs.txfLen hregs).trans (if_neg hop)
  · exact (congrArg Regs.txwLen hregs).trans (if_neg hop)
  · exact (congrArg Regs.rxwLen hregs).trans (if_neg hop)
  · exact (congrArg Regs.attempts hregs).trans (if_neg hop)
  · exact (congrArg Regs.rxfLen hregs).trans (if_neg hop)
  · exact (congrArg Regs.result hregs).trans (if_pos hop)

end Sys2Proof.Machine

/-! SUPPORT. Where the response comes from: an operation leaves RESP, RESP_CKS, RESP_PLEN and RVALID alone, or ends with the
response of the frame that it has just unstuffed into RXF and that passed every check (R37, R47, R48, R165). -/

namespace Sys2Proof.Machine

/-! ## The two outcomes -/

/-- The response registers and RVALID are unchanged. -/
def SameResponse (s t : State) : Prop :=
  t.regs.resp = s.regs.resp ∧ t.regs.respCks = s.regs.respCks ∧ t.regs.respPlen = s.regs.respPlen ∧
    t.regs.rvalid = s.regs.rvalid

/-- The operation has ended with NONE in `t`, and the response is that of the frame in RXF, which passes every check. -/
def Responded (table : CrcTable) (j : Job) (t : State) : Prop :=
  let f := t.bytesAt 0xC0000 t.regs.rxfLen.toNat
  frameError table j.m j.le f = .none ∧ respCmd t.regs.resp = byteOf f 2 ∧
    respRsvd t.regs.resp = byteOf f 1 ∧ respLenf t.regs.resp = be16 (byteOf f 3) (byteOf f 4) ∧
    t.regs.respCks = storedChecksum f ∧ t.regs.respPlen.toNat + 8 = f.length ∧
    t.regs.rvalid = true ∧ t.regs.errcode = .none ∧ t.eng = .idle

/-- The response after a step of the running operation with hidden state `j`. -/
def ResponseAfter (j : Job) (s t : State) : Prop := SameResponse s t ∨ Responded s.env.crcTable j t

theorem SameResponse.finish (e : ErrCode) (s : State) : SameResponse s (finish e s) := ⟨rfl, rfl, rfl, rfl⟩

theorem SameResponse.firstAttempt (j : Job) (s : State) : SameResponse s (firstAttempt j s) := ⟨rfl, rfl, rfl, rfl⟩

theorem attemptsBegin_sameResponse {n : Byte} {j : Job} {s t : State} (h : attemptsBegin n j s = .next t) :
    SameResponse s t := by
  rcases attemptsBegin_next h with ⟨rfl, -⟩ | ⟨rfl, -⟩
  · exact .firstAttempt ..
  · exact .finish ..

/-! ## Decode and verify -/

/-- RXF holds the unstuffed bytes, and RXF_LEN is their number (R165). -/
theorem unstuffedState_frame {s : State} (hfit : Config.rxfBase + (unstuff s.received).1.length ≤ Config.bufSize) :
    (unstuffedState s).regs.rxfLen.toNat = (unstuff s.received).1.length ∧
    (unstuffedState s).bytesAt 0xC0000 (unstuff s.received).1.length = (unstuff s.received).1 := by
  simp only [Config.rxfBase, Config.bufSize] at hfit
  have hlt : (unstuff s.received).1.length < 2 ^ 19 := by omega
  exact ⟨Nat.mod_eq_of_lt hlt, Memory.readSpan_writeSpan ..⟩

/-- A verify that succeeds reports the frame in RXF (R165, R167). -/
theorem responded_of_verified {j : Job} {s : State}
    (hfit : Config.rxfBase + (unstuff s.received).1.length ≤ Config.bufSize)
    (he : frameError s.env.crcTable j.m j.le (unstuff s.received).1 = .none) :
    Responded s.env.crcTable j (finish .none (verified j.m j.le (unstuff s.received).1 (unstuffedState s))) := by
  obtain ⟨hlen, hbytes⟩ := unstuffedState_frame hfit
  obtain ⟨h8, v, hv⟩ := verified_of_none (s := unstuffedState s) he
  generalize (unstuff s.received).1 = f at *
  have hf : ((finish .none (verified j.m j.le f (unstuffedState s))).bytesAt 0xC0000
      (finish .none (verified j.m j.le f (unstuffedState s))).regs.rxfLen.toNat) = f := by
    rw [hv]; exact (congrArg _ hlen).trans hbytes
  simp only [Config.rxfBase, Config.bufSize] at hfit
  unfold Responded
  rw [hf, hv]
  refine ⟨he, respCmd_respOf f, respRsvd_respOf f, respLenf_respOf f, rfl, ?_, rfl, rfl, rfl⟩
  have hplen : (BitVec.ofNat 18 (f.length - 8)).toNat = f.length - 8 := Nat.mod_eq_of_lt (by omega)
  exact (congrArg (· + 8) hplen).trans (by omega)

/-- DECODE (R168). -/
theorem execDecode_response {fcmd retries : Byte} {s t : State} (h : exec (.decode fcmd retries) s = .next t) :
    ∃ j p, s.eng = .run j p ∧ ResponseAfter j s t := by
  obtain ⟨j, hj, h⟩ := execDecode_next h
  refine ⟨j, _, hj, ?_⟩
  rcases decodeVerify_next h with ⟨-, h⟩ | ⟨-, hfit, h⟩
  · cases h; exact .inl (.finish ..)
  · by_cases he : frameError s.env.crcTable j.m j.le (unstuff s.received).1 = .none
    · rw [he] at h; cases h
      exact .inr (responded_of_verified hfit he)
    · obtain ⟨v, hv⟩ := verified_of_error (s := unstuffedState s) he
      rw [hv] at h; cases h
      exact .inl (.finish ..)

/-! ## Receive attempts -/

/-- An attempt that ends without an error has verified its frame (R170). -/
theorem responded_of_attemptEnds {j : Job} {a : ReadAnswer} {s u : State} {e : ErrCode} (h : AttemptEnds j a s e u)
    (he : e = .none) : Responded s.env.crcTable j (finish .none u) := by
  cases h with
  | notReceived _ h => subst he; simp at h
  | notUnstuffed chunk ha hne hfit h => rw [he] at h; simp at h
  | unstuffed chunk ha hne hfit _ hf => exact responded_of_verified hf he

theorem attemptsResume_response {n : Byte} {a : ReadAnswer} {j : Job} {s t : State}
    (h : attemptsResume n a j s = .next t) : ResponseAfter j s t := by
  rcases attemptsResume_next h with ⟨chunk, -, -, -, -, rfl⟩ | ⟨e, u, hends, h⟩
  · exact .inl ⟨rfl, rfl, rfl, rfl⟩
  · by_cases he : e = .none
    · rw [he] at h; cases h
      exact .inr (responded_of_attemptEnds hends he)
    · obtain ⟨-, -, _, _, _, _, _, _, _, hregs, hkeep, -⟩ := attemptEnds_keeps hends
      obtain ⟨hresp, hcks, hplen, hvalid⟩ := hkeep he
      have hu : SameResponse s u := by rw [SameResponse, hregs]; exact ⟨hresp, hcks, hplen, hvalid⟩
      rcases attemptResult_next h with ⟨rfl, -⟩ | ⟨-, -, rfl⟩ <;> exact .inl hu

theorem execRecvx_response {fcmd retries : Byte} {s t : State} (h : exec (.recvx fcmd retries) s = .next t) :
    ∃ j p, s.eng = .run j p ∧ ResponseAfter j s t := by
  rcases execRecvx_next h with ⟨j, hj, -, rfl⟩ | ⟨j, hj, -, rfl⟩ | ⟨j, a, hj, h⟩ <;> refine ⟨j, _, hj, ?_⟩
  · exact .inl (.finish ..)
  · exact .inl (.firstAttempt ..)
  · exact attemptsResume_response h

theorem execExchange_response {fcmd retries : Byte} {s t : State} (h : exec (.exchange fcmd retries) s = .next t) :
    ∃ j p, s.eng = .run j p ∧ ResponseAfter j s t := by
  rcases execExchange_next h with ⟨j, hj, -, rfl⟩ | ⟨j, hj, -, rfl⟩ | ⟨j, hj, rfl⟩ | ⟨j, hj, h⟩ | ⟨j, a, hj, h⟩ <;>
    refine ⟨j, _, hj, ?_⟩
  · exact .inl (.finish ..)
  · exact .inl ⟨rfl, rfl, rfl, rfl⟩
  · exact .inl (.finish ..)
  · exact .inl (attemptsBegin_sameResponse h)
  · exact attemptsResume_response h

theorem execProbe_response {fcmd retries : Byte} {s t : State} (h : exec (.probe fcmd retries) s = .next t) :
    ∃ j p, s.eng = .run j p ∧ ResponseAfter j s t := by
  rcases execProbe_next h with ⟨j, hj, -, rfl⟩ | ⟨j, hj, -, rfl⟩ | ⟨j, hj, rfl⟩ | ⟨j, hj, h⟩ | ⟨j, a, hj, h⟩ <;>
    refine ⟨j, _, hj, ?_⟩
  · exact .inl (.finish ..)
  · exact .inl ⟨rfl, rfl, rfl, rfl⟩
  · exact .inl (.finish ..)
  · exact .inl (attemptsBegin_sameResponse h)
  · exact attemptsResume_response h

/-! ## Every operation -/

theorem exec_sameResponse {i : Instr} {s t : State} (h : exec i s = .next t) (hop : opField (encode i) ∉ verifyOpcodes) :
    SameResponse s t := by
  have hregs := (exec_frame h).regs
  exact ⟨(congrArg Regs.resp hregs).trans (if_neg hop), (congrArg Regs.respCks hregs).trans (if_neg hop),
    (congrArg Regs.respPlen hregs).trans (if_neg hop), (congrArg Regs.rvalid hregs).trans (if_neg hop)⟩

theorem exec_response {i : Instr} {s t : State} (h : exec i s = .next t) (hop : opField (encode i) ∈ verifyOpcodes) :
    ∃ j p, s.eng = .run j p ∧ ResponseAfter j s t := by
  rw [opField_encode] at hop
  cases i with
  | decode fcmd retries => exact execDecode_response h
  | recvx fcmd retries => exact execRecvx_response h
  | exchange fcmd retries => exact execExchange_response h
  | probe fcmd retries => exact execProbe_response h
  | _ => simp [opcodeOf, verifyOpcodes] at hop

/-- Settles O10: it holds; outside the verifying operations by their frame, inside them because a response is written only
behind a verify that passed every check. -/
theorem responseOnlyFromVerify : Obligations.ResponseOnlyFromVerify := by
  intro i s t h
  by_cases hop : opField (encode i) ∈ verifyOpcodes
  · obtain ⟨j, p, hj, hsame | hresponded⟩ := exec_response h hop
    · exact .inl hsame
    · exact .inr ⟨hop, j, p, hj, hresponded⟩
  · exact .inl (exec_sameResponse h hop)

end Sys2Proof.Machine

/-! SUPPORT. Which bytes of BUF an engine step of an operation leaves alone: those outside the regions that it writes (R50,
R67, R137, R138, R155). -/

namespace Sys2Proof.Machine

/-! ## Offsets of the regions -/

/-- The offsets of TXF that BUILD writes: the frame's head and its last three bytes (R90, R155). -/
def InTxf (s : State) (a : Nat) : Prop := a < 5 ∨ 5 + s.regs.plen.toNat ≤ a ∧ a < 8 + s.regs.plen.toNat

def InTxw (a : Nat) : Prop := Config.txwBase ≤ a ∧ a < Config.rxwBase

def InRxw (a : Nat) : Prop := Config.rxwBase ≤ a ∧ a < Config.rxfBase

def InRxf (a : Nat) : Prop := Config.rxfBase ≤ a ∧ a < Config.bufSize

/-- The `n` offsets from DST on (R137, R138). -/
def InDst (s : State) (n a : Nat) : Prop := s.regs.dst.toNat ≤ a ∧ a < s.regs.dst.toNat + n

/-! ## The shared operations -/

theorem byteAt_of_writeSpan {s t : State} {off a : Nat} {bs : List Byte} (hbuf : t.buf = s.buf.writeSpan off bs)
    (henv : t.env = s.env) (ha : ¬ (off ≤ a ∧ a < off + bs.length)) : t.byteAt a = s.byteAt a := by
  rw [State.byteAt, State.byteAt, hbuf, henv, Memory.byte_writeSpan, if_neg ha]

theorem storeOutput_byteAt {out : List Byte} {s t : State} {a : Nat} (h : storeOutput out s = .next t)
    (ha : ¬ InDst s out.length a) : t.byteAt a = s.byteAt a := by
  rcases storeOutput_next h with rfl | ⟨-, rfl⟩
  · rfl
  · exact byteAt_of_writeSpan rfl rfl ha

theorem builtState_byteAt (cmd : Byte) (j : Job) (s : State) {a : Nat} (ha : ¬ InTxf s a) :
    (builtState cmd j s).byteAt a = s.byteAt a := by
  simp only [InTxf] at ha
  calc (builtState cmd j s).byteAt a
      = (s.buf.writeSpan Config.txfBase (frameHead cmd s.regs.plen)).byte s.env.epoch a :=
        Memory.byte_writeSpan_outside _ _ _ _ _ (by simp only [length_frameTail, Config.txfBase]; omega)
    _ = s.byteAt a := Memory.byte_writeSpan_outside _ _ _ _ _ (by simp only [length_frameHead, Config.txfBase]; omega)

/-- The wire form of every frame fits TXW (R157). -/
theorem sentState_byteAt (j : Job) (s : State) {a : Nat} (ha : ¬ InTxw a) : (sentState j s).byteAt a = s.byteAt a := by
  have hlen := length_stuff_le (s.bytesAt Config.txfBase s.regs.txfLen.toNat)
  have hlt := s.regs.txfLen.isLt
  rw [State.length_bytesAt] at hlen
  simp only [InTxw, Config.txwBase, Config.rxwBase] at ha
  refine byteAt_of_writeSpan rfl rfl ?_
  simp only [Config.txwBase]
  split at hlen <;> omega

theorem probedState_byteAt (j : Job) (s : State) {a : Nat} (ha : a ≠ Config.txwBase) :
    (probedState j s).byteAt a = s.byteAt a :=
  byteAt_of_writeSpan rfl rfl (by simp only [List.length_singleton]; omega)

theorem State.storeChunk_byteAt {s : State} {chunk : List Byte}
    (hfit : s.regs.rxwLen.toNat + chunk.length ≤ Config.regionSize) {a : Nat} (ha : ¬ InRxw a) :
    (s.storeChunk chunk).byteAt a = s.byteAt a := by
  simp only [InRxw, Config.rxwBase, Config.rxfBase, Config.regionSize] at ha hfit
  exact byteAt_of_writeSpan rfl rfl (by simp only [Config.rxwBase]; omega)

theorem unstuffedState_byteAt {s : State} (hfit : Config.rxfBase + (unstuff s.received).1.length ≤ Config.bufSize)
    {a : Nat} (ha : ¬ InRxf a) : (unstuffedState s).byteAt a = s.byteAt a := by
  simp only [InRxf] at ha
  refine byteAt_of_writeSpan (bs := (unstuff s.received).1) rfl rfl ?_
  omega

theorem verified_byteAt (m : ChecksumMode) (le : Bool) (f : List Byte) (s : State) (a : Nat) :
    (verified m le f s).byteAt a = s.byteAt a := by
  obtain ⟨-, henv, hbuf, -⟩ := verified_keeps m le f s
  rw [State.byteAt, State.byteAt, henv, hbuf]

theorem attemptEnds_byteAt {j : Job} {a : ReadAnswer} {s u : State} {e : ErrCode} (h : AttemptEnds j a s e u) {b : Nat}
    (hb : ¬ (InRxw b ∨ InRxf b)) : u.byteAt b = s.byteAt b := by
  obtain ⟨hrxw, hrxf⟩ := not_or.1 hb
  cases h with
  | notReceived _ h => rfl
  | notUnstuffed chunk ha hne hfit h => exact State.storeChunk_byteAt hfit hrxw
  | unstuffed chunk ha hne hfit he hf =>
    exact (verified_byteAt ..).trans ((unstuffedState_byteAt hf hrxf).trans (State.storeChunk_byteAt hfit hrxw))

theorem attemptsBegin_byteAt {n : Byte} {j : Job} {s t : State} (h : attemptsBegin n j s = .next t) (b : Nat) :
    t.byteAt b = s.byteAt b := by
  rcases attemptsBegin_next h with ⟨rfl, -⟩ | ⟨rfl, -⟩ <;> rfl

theorem attemptsResume_byteAt {n : Byte} {a : ReadAnswer} {j : Job} {s t : State} (h : attemptsResume n a j s = .next t)
    {b : Nat} (hb : ¬ (InRxw b ∨ InRxf b)) : t.byteAt b = s.byteAt b := by
  rcases attemptsResume_next h with ⟨chunk, -, -, -, hfit, rfl⟩ | ⟨e, u, hends, h⟩
  · exact State.storeChunk_byteAt hfit (not_or.1 hb).1
  · have hu := attemptEnds_byteAt hends hb
    rcases attemptResult_next h with ⟨rfl, -⟩ | ⟨-, -, rfl⟩ <;> exact hu

/-! ## The operations -/

theorem checksumOp_byteAt {f : Job → List Byte → Half} {s t : State} (h : checksumOp f s = .next t) (a : Nat) :
    t.byteAt a = s.byteAt a := by
  rcases checksumOp_next h with rfl | ⟨j, -, rfl⟩ <;> rfl

theorem execStuff_byteAt {fcmd retries : Byte} {s t : State} (h : exec (.stuff fcmd retries) s = .next t) {a : Nat}
    (ha : ¬ InDst s (stuff (s.bytesAt s.regs.src.toNat s.regs.len.toNat)).length a) : t.byteAt a = s.byteAt a := by
  obtain ⟨-, rfl | h⟩ := execStuff_next h
  · rfl
  · exact storeOutput_byteAt h ha

theorem execUnstuff_byteAt {fcmd retries : Byte} {s t : State} (h : exec (.unstuff fcmd retries) s = .next t) {a : Nat}
    (ha : ¬ InDst s (unstuff (s.bytesAt s.regs.src.toNat s.regs.len.toNat)).1.length a) : t.byteAt a = s.byteAt a := by
  obtain ⟨-, rfl | ⟨-, rfl⟩ | ⟨-, h⟩⟩ := execUnstuff_next h
  · rfl
  · rfl
  · exact storeOutput_byteAt h ha

theorem execBuild_byteAt {fcmd retries : Byte} {s t : State} (h : exec (.build fcmd retries) s = .next t) {a : Nat}
    (ha : ¬ InTxf s a) : t.byteAt a = s.byteAt a := by
  obtain ⟨j, -, rfl⟩ := execBuild_next h
  exact builtState_byteAt fcmd j s ha

theorem execSend_byteAt {fcmd retries : Byte} {s t : State} (h : exec (.send fcmd retries) s = .next t) {a : Nat}
    (ha : ¬ InTxw a) : t.byteAt a = s.byteAt a := by
  rcases execSend_next h with ⟨j, -, -, rfl⟩ | ⟨j, -, -, rfl⟩ | ⟨j, _, -, rfl⟩
  · rfl
  · exact sentState_byteAt j s ha
  · rfl

theorem execRecv_byteAt {fcmd retries : Byte} {s t : State} (h : exec (.recv fcmd retries) s = .next t) {a : Nat}
    (ha : ¬ InRxw a) : t.byteAt a = s.byteAt a := by
  rcases execRecv_next h with ⟨j, -, rfl⟩ | ⟨j, _, -, h⟩
  · rfl
  · rcases receiveChunk_next h with ⟨e, -, h⟩ | ⟨chunk, -, -, hfit, h | ⟨-, rfl⟩⟩
    · cases h; rfl
    · cases h; exact State.storeChunk_byteAt hfit ha
    · exact State.storeChunk_byteAt hfit ha

theorem execDecode_byteAt {fcmd retries : Byte} {s t : State} (h : exec (.decode fcmd retries) s = .next t) {a : Nat}
    (ha : ¬ InRxf a) : t.byteAt a = s.byteAt a := by
  obtain ⟨j, -, h⟩ := execDecode_next h
  rcases decodeVerify_next h with ⟨-, h⟩ | ⟨-, hfit, h⟩
  · cases h; rfl
  · cases h; exact (verified_byteAt ..).trans (unstuffedState_byteAt hfit ha)

theorem execRecvx_byteAt {fcmd retries : Byte} {s t : State} (h : exec (.recvx fcmd retries) s = .next t) {a : Nat}
    (ha : ¬ (InRxw a ∨ InRxf a)) : t.byteAt a = s.byteAt a := by
  rcases execRecvx_next h with ⟨j, -, -, rfl⟩ | ⟨j, -, -, rfl⟩ | ⟨j, _, -, h⟩
  · rfl
  · rfl
  · exact attemptsResume_byteAt h ha

theorem execExchange_byteAt {fcmd retries : Byte} {s t : State} (h : exec (.exchange fcmd retries) s = .next t) {a : Nat}
    (ha : ¬ (InTxf s a ∨ InTxw a ∨ InRxw a ∨ InRxf a)) : t.byteAt a = s.byteAt a := by
  obtain ⟨htxf, ha⟩ := not_or.1 ha
  obtain ⟨htxw, hrx⟩ := not_or.1 ha
  rcases execExchange_next h with ⟨j, -, -, rfl⟩ | ⟨j, -, -, rfl⟩ | ⟨j, -, rfl⟩ | ⟨j, -, h⟩ | ⟨j, _, -, h⟩
  · rfl
  · exact (sentState_byteAt j _ htxw).trans (builtState_byteAt fcmd j s htxf)
  · rfl
  · exact attemptsBegin_byteAt h a
  · exact attemptsResume_byteAt h hrx

theorem execProbe_byteAt {fcmd retries : Byte} {s t : State} (h : exec (.probe fcmd retries) s = .next t) {a : Nat}
    (ha : ¬ (a = Config.txwBase ∨ InRxw a ∨ InRxf a)) : t.byteAt a = s.byteAt a := by
  obtain ⟨htxw, hrx⟩ := not_or.1 ha
  rcases execProbe_next h with ⟨j, -, -, rfl⟩ | ⟨j, -, -, rfl⟩ | ⟨j, -, rfl⟩ | ⟨j, -, h⟩ | ⟨j, _, -, h⟩
  · rfl
  · exact probedState_byteAt j s htxw
  · rfl
  · exact attemptsBegin_byteAt h a
  · exact attemptsResume_byteAt h hrx

/-- Settles O12: it holds, operation by operation: every span an operation writes lies in the region that is checked or
fixed for it. -/
theorem operationsKeepOtherBytes : Obligations.OperationsKeepOtherBytes := by
  intro i s t h a ha
  cases i with
  | crc16 fcmd retries => exact checksumOp_byteAt h a
  | isum fcmd retries => exact checksumOp_byteAt h a
  | cksum fcmd retries => exact checksumOp_byteAt h a
  | stuff fcmd retries => exact execStuff_byteAt h ha
  | unstuff fcmd retries => exact execUnstuff_byteAt h ha
  | build fcmd retries => exact execBuild_byteAt h ha
  | send fcmd retries => exact execSend_byteAt h ha
  | recv fcmd retries => exact execRecv_byteAt h ha
  | decode fcmd retries => exact execDecode_byteAt h ha
  | recvx fcmd retries => exact execRecvx_byteAt h ha
  | exchange fcmd retries => exact execExchange_byteAt h ha
  | probe fcmd retries => exact execProbe_byteAt h ha

end Sys2Proof.Machine

/-! SUPPORT. The port's move and the host's register accesses: what an access to a register answers and does, and the words
that CTRL, CMD and STATUS read as (R25 to R27, R31 to R38, R51, R66). -/

namespace Sys2Proof.Machine

/-! ## The port -/

theorem portStep_of_waitRead {s : State} {n : Nat} {j : Job} (h : s.eng = .waitRead n j) :
    portStep s = { s with eng := .run j (.got (answerRead n s.env).1), env := (answerRead n s.env).2 } := by
  rw [portStep, h]

theorem portStep_of_waitWrite {s : State} {bytes : List Byte} {j : Job} (h : s.eng = .waitWrite bytes j) :
    portStep s = { s with eng := .run j (.wrote (answerWrite s.env).1), env := (answerWrite s.env).2 } := by
  rw [portStep, h]

theorem portStep_of_no_request {s : State} (h : s.eng = .idle ∨ ∃ j p, s.eng = .run j p) : portStep s = s := by
  rcases h with h | ⟨j, p, h⟩ <;> rw [portStep, h]

theorem portStep_regs_buf (s : State) : (portStep s).regs = s.regs ∧ (portStep s).buf = s.buf := by
  rcases portStep_cases s with ⟨_, _, -, h⟩ | ⟨_, _, -, h⟩ | ⟨-, h⟩ <;> rw [h] <;> exact ⟨rfl, rfl⟩

theorem answerRead_of_chunk {n : Nat} {e : Env} {chunk : List Byte} {rest : List ReadAnswer}
    (h : e.portReads = .ok chunk :: rest) (hn : chunk.length ≤ n) :
    answerRead n e = (.ok chunk, { e with portReads := rest }) := by
  rw [answerRead, h]; exact if_pos hn

theorem answerRead_of_err {n : Nat} {e : Env} {rest : List ReadAnswer} (h : e.portReads = .err :: rest) :
    answerRead n e = (.err, { e with portReads := rest }) := by
  rw [answerRead, h]

theorem answerWrite_of_answer {e : Env} {a : WriteAnswer} {rest : List WriteAnswer} (h : e.portWrites = a :: rest) :
    answerWrite e = (a, { e with portWrites := rest }) := by
  rw [answerWrite, h]

/-- Settles O38: it holds, phase by phase. -/
theorem portAnswersRequest : Obligations.PortAnswersRequest := by
  intro s
  refine ⟨fun n j he => ?_, fun bytes j he => ?_, portStep_of_no_request, portStep_regs_buf s⟩
  · rw [portStep_of_waitRead he]
    refine ⟨_, rfl, answerRead_length n s.env, fun chunk rest h hn => ?_, fun rest h => ?_⟩
    · rw [answerRead_of_chunk h hn]; exact ⟨rfl, rfl⟩
    · rw [answerRead_of_err h]; exact ⟨rfl, rfl⟩
  · rw [portStep_of_waitWrite he]
    refine ⟨_, rfl, fun a rest h => ?_⟩
    rw [answerWrite_of_answer h]; exact ⟨rfl, rfl⟩

/-! ## Register accesses -/

/-- Every register stands in the register page, at a multiple of 4 (R25). -/
theorem regTable_legal : ∀ p ∈ regTable, p.1 < Config.regPageEnd ∧ regAccessLegal 32 p.1 = true := by decide

theorem regAccessLegal_of_regAt {off : Nat} {r : Reg} (h : regAt off = some r) :
    off < Config.regPageEnd ∧ regAccessLegal 32 off = true := by
  obtain ⟨p, hp, -⟩ := Option.map_eq_some_iff.1 h
  have hoff : p.1 = off := by simpa using List.find?_some hp
  exact hoff ▸ regTable_legal p (List.mem_of_find?_eq_some hp)

/-- A read of a register answers its word and has no effect (R25, R66). -/
theorem busAccess_read_reg (s : State) {off : BitVec 21} {r : Reg} (h : regAt off.toNat = some r) :
    busAccess (.read 32 off) s = s.setReply (.data (s.regs.read r)) := by
  obtain ⟨hpage, hlegal⟩ := regAccessLegal_of_regAt h
  simp only [busAccess, busRead, if_pos hpage, if_pos hlegal, h]

/-- A 32-bit aligned write in the register page is that of `writeReg` (R62). -/
theorem busAccess_write_page (s : State) (v : Word) {off : BitVec 21} (hpage : off.toNat < Config.regPageEnd)
    (hlegal : regAccessLegal 32 off.toNat = true) :
    busAccess (.write 32 off v) s = (writeReg (regAt off.toNat) v s).setReply .done := by
  simp only [busAccess, busWrite, if_pos hpage, if_pos hlegal]

theorem busAccess_write_reg (s : State) (v : Word) {off : BitVec 21} {r : Reg} (h : regAt off.toNat = some r) :
    busAccess (.write 32 off v) s = (writeReg (some r) v s).setReply .done := by
  obtain ⟨hpage, hlegal⟩ := regAccessLegal_of_regAt h
  rw [busAccess_write_page s v hpage hlegal, h]

/-- STATUS stands at offset 0x008 and nowhere else (R25). -/
theorem regAt_eq_status {off : Nat} (h : regAt off = some .status) : off = 0x008 := by
  obtain ⟨p, hp, hr⟩ := Option.map_eq_some_iff.1 h
  have hoff : p.1 = off := by simpa using List.find?_some hp
  have hall : ∀ p ∈ regTable, p.2 = .status → p.1 = 0x008 := by decide
  exact hoff ▸ hall p (List.mem_of_find?_eq_some hp) hr

/-- While an operation runs a write to any register but STATUS only sets BUSYERR (R32, R38, R51). -/
theorem writeReg_of_busy {s : State} (hb : s.regs.busy = true) (he : s.eng ≠ .idle) {reg : Option Reg}
    (hr : reg ≠ some .status) (v : Word) : writeReg reg v s = s.setBusyErr := by
  cases reg with
  | none => exact if_pos hb
  | some r =>
    cases r with
    | status => exact absurd rfl hr
    | cmd => exact if_neg he
    | _ => exact if_pos hb

/-- While BUSY = 0 a write to a register other than CMD and STATUS is that of `Regs.write` (R26). -/
theorem writeReg_of_not_busy {s : State} (hb : s.regs.busy = false) {r : Reg} (hcmd : r ≠ .cmd) (hstatus : r ≠ .status)
    (v : Word) : writeReg (some r) v s = { s with regs := s.regs.write v r } := by
  have hnb : ¬ s.regs.busy = true := by simp [hb]
  cases r with
  | status => exact absurd rfl hstatus
  | cmd => exact absurd rfl hcmd
  | _ => exact if_neg hnb

theorem busAccess_write_status (s : State) (v : Word) :
    busAccess (.write 32 0x008#21 v) s = { s with regs := s.regs.writeStatus v }.setReply .done :=
  busAccess_write_reg s v (r := .status) rfl

/-! ## The words of CTRL, CMD and STATUS -/

theorem ctrlWord_eq (r : Regs) :
    r.ctrlWord = (if r.mode = .internetSum then 0x1#32 else 0) ||| (if r.isumLe then 0x2#32 else 0) |||
      (if r.ie then 0x4#32 else 0) := by
  unfold Regs.ctrlWord
  cases r.mode <;> cases r.isumLe <;> cases r.ie <;> rfl

theorem cmdWord_eq (r : Regs) : r.cmdWord = r.cmd.setWidth 32 := by
  apply BitVec.eq_of_getLsbD_eq
  intro i hi
  rw [Regs.cmdWord, BitVec.getLsbD_setWidth]
  refine (BitVec.getLsbD_append ..).trans ?_
  split
  · simp [hi]
  · simp [BitVec.getLsbD_of_ge r.cmd i (by omega)]

/-- STATUS.ERR (R36). -/
theorem Regs.err_eq (r : Regs) : r.err = decide (r.errcode ≠ .none) := by
  unfold Regs.err; cases r.errcode <;> rfl

theorem getLsbD_bit (b : Bool) {i : Nat} (h : i = 0) : (bit b).getLsbD i = b := by subst h; cases b <;> rfl

/-- The bits of STATUS, field by field (R33). -/
theorem getLsbD_statusWord (r : Regs) (i : Nat) :
    r.statusWord.getLsbD i =
      if i < 1 then r.busy
      else if i < 2 then r.done
      else if i < 3 then decide (r.errcode ≠ .none)
      else if i < 4 then r.rvalid
      else if i < 5 then r.busyerr
      else if i < 8 then false
      else if i < 12 then r.errcode.code.getLsbD (i - 8)
      else if i < 16 then false
      else if i < 24 then r.attempts.getLsbD (i - 16)
      else false := by
  refine (BitVec.getLsbD_append ..).trans ?_
  simp only [BitVec.getLsbD_append, Regs.err_eq]
  refine ite_congr rfl (fun _ => getLsbD_bit _ (by omega)) fun _ => ?_
  refine ite_congr (propext (by omega)) (fun _ => getLsbD_bit _ (by omega)) fun _ => ?_
  refine ite_congr (propext (by omega)) (fun _ => getLsbD_bit _ (by omega)) fun _ => ?_
  refine ite_congr (propext (by omega)) (fun _ => getLsbD_bit _ (by omega)) fun _ => ?_
  refine ite_congr (propext (by omega)) (fun _ => getLsbD_bit _ (by omega)) fun _ => ?_
  refine ite_congr (propext (by omega)) (fun _ => BitVec.getLsbD_zero) fun _ => ?_
  refine ite_congr (propext (by omega)) (fun _ => congrArg _ (by omega)) fun _ => ?_
  refine ite_congr (propext (by omega)) (fun _ => BitVec.getLsbD_zero) fun _ => ?_
  exact ite_congr (propext (by omega)) (fun _ => congrArg _ (by omega)) fun _ => BitVec.getLsbD_zero

/-- A field of a word, bit by bit. -/
theorem extractLsb'_eq_of_bits {w : Word} {start len : Nat} {x : BitVec len}
    (h : ∀ i, i < len → w.getLsbD (start + i) = x.getLsbD i) : w.extractLsb' start len = x := by
  apply BitVec.eq_of_getLsbD_eq
  intro i hi
  rw [BitVec.getLsbD_extractLsb', h i hi]
  simp [hi]

theorem statusWord_errcode (r : Regs) : r.statusWord.extractLsb' 8 4 = r.errcode.code :=
  extractLsb'_eq_of_bits fun i hi => by
    rw [getLsbD_statusWord]
    simp (disch := omega) only [if_pos, if_neg, Nat.add_sub_cancel_left]

theorem statusWord_attempts (r : Regs) : r.statusWord.extractLsb' 16 8 = r.attempts :=
  extractLsb'_eq_of_bits fun i hi => by
    rw [getLsbD_statusWord]
    simp (disch := omega) only [if_pos, if_neg, Nat.add_sub_cancel_left]

/-- The reserved bits of STATUS read as 0 (R26, R33). -/
theorem statusWord_reserved (r : Regs) :
    r.statusWord.extractLsb' 5 3 = 0 ∧ r.statusWord.extractLsb' 12 4 = 0 ∧ r.statusWord.extractLsb' 24 8 = 0 := by
  refine ⟨extractLsb'_eq_of_bits fun i hi => ?_, extractLsb'_eq_of_bits fun i hi => ?_,
    extractLsb'_eq_of_bits fun i hi => ?_⟩ <;> rw [getLsbD_statusWord, BitVec.ofNat_eq_ofNat, BitVec.getLsbD_zero] <;>
    simp (disch := omega) only [if_pos, if_neg]

/-- Settles O41: it holds in every state, from the bits of the word (`getLsbD_statusWord`). -/
theorem statusReadLayout : Obligations.StatusReadLayout := by
  intro s
  obtain ⟨h5, h12, h24⟩ := statusWord_reserved s.regs
  refine ⟨s.regs.statusWord, busAccess_read_reg s (r := .status) rfl, getLsbD_statusWord .., getLsbD_statusWord ..,
    getLsbD_statusWord .., getLsbD_statusWord .., getLsbD_statusWord .., h5, statusWord_errcode s.regs, h12,
    statusWord_attempts s.regs, h24, fun p hp he => ?_⟩
  have hcodes : ∀ p ∈ [(ErrCode.none, 0#4), (.transport, 1#4), (.badDelimiter, 2#4), (.checksumMismatch, 3#4),
      (.shortFrame, 4#4), (.escInvalid, 5#4), (.escTruncated, 6#4), (.rxOverflow, 7#4), (.illegalOp, 8#4),
      (.param, 9#4)], p.1.code = p.2 := by decide
  rw [statusWord_errcode, he, hcodes p hp]

theorem getLsbD_ite_else_zero (p : Prop) [Decidable p] (x : Word) (i : Nat) :
    (if p then x else 0).getLsbD i = (decide p && x.getLsbD i) := by
  by_cases h : p <;> simp [h]

theorem getLsbD_ite_then_zero (p : Prop) [Decidable p] (x : Word) (i : Nat) :
    (if p then 0 else x).getLsbD i = (!decide p && x.getLsbD i) := by
  by_cases h : p <;> simp [h]

/-- STATUS as a sum of its fields at their places (R33). -/
theorem statusWord_eq (r : Regs) :
    r.statusWord =
      (if r.busy then 0x1#32 else 0) ||| (if r.done then 0x2#32 else 0) |||
        (if r.errcode = .none then 0 else 0x4#32) ||| (if r.rvalid then 0x8#32 else 0) |||
        (if r.busyerr then 0x10#32 else 0) ||| r.errcode.code.setWidth 32 <<< 8 |||
        r.attempts.setWidth 32 <<< 16 := by
  apply BitVec.eq_of_getLsbD_eq
  intro i hi
  rw [getLsbD_statusWord]
  simp only [BitVec.getLsbD_or, getLsbD_ite_else_zero, getLsbD_ite_then_zero, BitVec.getLsbD_shiftLeft,
    BitVec.getLsbD_setWidth]
  interval_cases i <;> simp

end Sys2Proof.Machine

/-! SUPPORT. What the host's accesses do in each phase, the interrupt output, and the state after reset (R26, R38, R51 to
R53). -/

namespace Sys2Proof.Machine

/-! ## STATUS -/

/-- Settles O40: it holds in every state; only the two W1C bits are written. -/
theorem statusWriteClears : Obligations.StatusWriteClears := by
  intro s v
  have hclear : ∀ b c : Bool, (b && !c) = if c then false else b := by decide
  rw [busAccess_write_status, Regs.writeStatus, hclear, hclear]
  rfl

/-! ## Accesses while an operation runs -/

theorem busAccess_page_of_busy {s : State} (hb : s.regs.busy = true) (he : s.eng ≠ .idle) (v : Word) {off : BitVec 21}
    (hpage : off.toNat < 0x100) (hal : off.toNat % 4 = 0) (hst : off.toNat ≠ 0x008) :
    busAccess (.write 32 off v) s = s.setBusyErr.setReply .done := by
  rw [busAccess_write_page s v hpage (by simp [regAccessLegal, hal]),
    writeReg_of_busy hb he (fun h => hst (regAt_eq_status h))]

/-- A legal access to BUF while BUSY = 1 (R51, R66). -/
theorem busAccess_buf_of_busy {s : State} (hb : s.regs.busy = true) {bits : Nat} (v : Word) {off : BitVec 21}
    (hoff : 0x100000 ≤ off.toNat) (hlegal : bufAccessLegal bits off.toNat = true) :
    busAccess (.write bits off v) s = s.setBusyErr.setReply .done ∧
    busAccess (.read bits off) s = s.setBusyErr.setReply (.data 0) := by
  have hpage : ¬ off.toNat < Config.regPageEnd := by simp only [Config.regPageEnd]; omega
  have hspace : ¬ off.toNat < Config.bufWindow := by simp only [Config.bufWindow]; omega
  simp only [busAccess, busWrite, busRead, if_neg hpage, if_neg hspace, if_pos hlegal, if_pos hb, and_self]

/-- Settles O39: it holds; a register read answers the register's word in every state (`busAccess_read_reg`). -/
theorem busyAccessesAreIgnored : Obligations.BusyAccessesAreIgnored := by
  intro s off bits v
  refine ⟨fun hb he hpage hal hst => busAccess_page_of_busy hb he v hpage hal hst,
    fun hb hoff hlegal => busAccess_buf_of_busy hb v hoff hlegal, ?_⟩
  have hread : ∀ (r : Reg) (off : BitVec 21) (w : Word), regAt off.toNat = some r → s.regs.read r = w →
      busAccess (.read 32 off) s = s.setReply (.data w) := by
    rintro r off _ hr rfl
    exact busAccess_read_reg s hr
  simp only [List.forall_mem_cons]
  exact ⟨hread .ctrl _ _ rfl (ctrlWord_eq s.regs), hread .cmd _ _ rfl (cmdWord_eq s.regs),
    hread .status _ _ rfl (statusWord_eq s.regs), hread .seed _ _ rfl rfl, hread .result _ _ rfl rfl,
    hread .src _ _ rfl rfl, hread .dst _ _ rfl rfl, hread .len _ _ rfl rfl, hread .outlen _ _ rfl rfl,
    hread .plen _ _ rfl rfl, hread .txfLen _ _ rfl rfl, hread .txwLen _ _ rfl rfl, hread .rxwLen _ _ rfl rfl,
    hread .rxfLen _ _ rfl rfl, hread .resp _ _ rfl rfl, hread .respCks _ _ rfl rfl, hread .respPlen _ _ rfl rfl,
    by simp⟩

/-! ## Register writes while BUSY = 0 -/

/-- The RW registers without a special effect, each with its offset and the mask of its field (R27, R40, R42, R44). -/
def plainRegs : List (Reg × BitVec 21 × Word) :=
  [(.ctrl, 0x000#21, 0x7#32), (.seed, 0x00C#21, 0xFFFF#32), (.src, 0x014#21, 0xFFFFF#32),
    (.dst, 0x018#21, 0xFFFFF#32), (.len, 0x01C#21, 0x1FFFFF#32), (.plen, 0x024#21, 0xFFFF#32)]

theorem plainRegs_regAt : ∀ p ∈ plainRegs, regAt p.2.1.toNat = some p.1 ∧ p.1 ≠ .cmd ∧ p.1 ≠ .status := by decide

/-- Cutting a word to its low bits is masking it. -/
theorem setWidth_setWidth_eq_and (v : Word) (n : Nat) (hn : n ≤ 32) :
    (v.setWidth n).setWidth 32 = v &&& BitVec.ofNat 32 (2 ^ n - 1) := by
  have hpow : 2 ^ n ≤ 2 ^ 32 := Nat.pow_le_pow_right (by decide) hn
  have hpos : 0 < 2 ^ n := Nat.two_pow_pos n
  apply BitVec.eq_of_toNat_eq
  rw [BitVec.toNat_and, BitVec.toNat_ofNat, Nat.mod_eq_of_lt (by omega : 2 ^ n - 1 < 2 ^ 32),
    Nat.and_two_pow_sub_one_eq_mod, BitVec.toNat_setWidth, BitVec.toNat_setWidth]
  exact Nat.mod_eq_of_lt ((Nat.mod_lt _ hpos).trans_le hpow)

theorem ofBit_eq_internetSum (b : Bool) : ChecksumMode.ofBit b = .internetSum ↔ b = true := by cases b <;> decide

theorem ctrlWord_writeCtrl (r : Regs) (v : Word) : (r.writeCtrl v).ctrlWord = v &&& 0x7#32 := by
  rw [Regs.writeCtrl, ctrlWord_eq]
  simp only [ofBit_eq_internetSum]
  apply BitVec.eq_of_getLsbD_eq
  intro i hi
  simp only [BitVec.getLsbD_or, BitVec.getLsbD_and, getLsbD_ite_else_zero]
  interval_cases i <;> simp

/-- What a plain register reads as behind a write (R26). -/
theorem read_write_same (r : Regs) (v : Word) : ∀ p ∈ plainRegs, (r.write v p.1).read p.1 = v &&& p.2.2 := by
  simp only [plainRegs, List.forall_mem_cons]
  exact ⟨ctrlWord_writeCtrl r v, setWidth_setWidth_eq_and v 16 (by decide), setWidth_setWidth_eq_and v 20 (by decide),
    setWidth_setWidth_eq_and v 20 (by decide), setWidth_setWidth_eq_and v 21 (by decide),
    setWidth_setWidth_eq_and v 16 (by decide), by simp⟩

/-- A write to a register leaves what every other one reads as (R26). -/
theorem read_write_of_ne (r : Regs) (v : Word) {x y : Reg} (h : y ≠ x) : (r.write v x).read y = r.read y := by
  cases x with
  | ctrl => cases y with | ctrl => exact absurd rfl h | _ => rfl
  | seed => cases y with | seed => exact absurd rfl h | _ => rfl
  | src => cases y with | src => exact absurd rfl h | _ => rfl
  | dst => cases y with | dst => exact absurd rfl h | _ => rfl
  | len => cases y with | len => exact absurd rfl h | _ => rfl
  | plen => cases y with | plen => exact absurd rfl h | _ => rfl
  | _ => rfl

theorem busAccess_write_of_not_busy {s : State} (hb : s.regs.busy = false) (v : Word) {off : BitVec 21} {r : Reg}
    (hr : regAt off.toNat = some r) (hcmd : r ≠ .cmd) (hstatus : r ≠ .status) :
    busAccess (.write 32 off v) s = { s with regs := s.regs.write v r }.setReply .done := by
  rw [busAccess_write_reg s v hr, writeReg_of_not_busy hb hcmd hstatus]

/-- The offsets of the RO registers but STATUS (R41, R43, R45 to R48). -/
def readOnlyRegs : List (Reg × BitVec 21) :=
  [(.result, 0x010#21), (.outlen, 0x020#21), (.txfLen, 0x028#21), (.txwLen, 0x02C#21), (.rxwLen, 0x030#21),
    (.rxfLen, 0x034#21), (.resp, 0x038#21), (.respCks, 0x03C#21), (.respPlen, 0x040#21)]

theorem write_readOnly (r : Regs) (v : Word) : ∀ p ∈ readOnlyRegs, r.write v p.1 = r := by
  simp only [readOnlyRegs, List.forall_mem_cons]
  exact ⟨rfl, rfl, rfl, rfl, rfl, rfl, rfl, rfl, rfl, by simp⟩

/-- A write to an RO register while BUSY = 0 is ignored (R26). -/
theorem busAccess_write_readOnly {s : State} (hb : s.regs.busy = false) (v : Word) :
    ∀ p ∈ readOnlyRegs, busAccess (.write 32 p.2 v) s = s.setReply .done := by
  have hall : ∀ p ∈ readOnlyRegs, regAt p.2.toNat = some p.1 ∧ p.1 ≠ .cmd ∧ p.1 ≠ .status := by decide
  intro p hp
  obtain ⟨hr, hcmd, hstatus⟩ := hall p hp
  rw [busAccess_write_of_not_busy hb v hr hcmd hstatus, write_readOnly s.regs v p hp]

/-- Settles O42: it holds, for the six plain RW registers and the nine RO registers. -/
theorem registerWriteReadsBack : Obligations.RegisterWriteReadsBack := by
  intro s v hb
  refine ⟨fun p hp => ?_, fun off hoff => ?_⟩
  · obtain ⟨hr, hcmd, hstatus⟩ := plainRegs_regAt p hp
    rw [busAccess_write_of_not_busy hb v hr hcmd hstatus, busAccess_read_reg _ hr]
    exact ⟨congrArg Reply.data (read_write_same s.regs v p hp), fun r hne => read_write_of_ne s.regs v hne, rfl, rfl⟩
  · obtain ⟨p, hp, rfl⟩ := List.mem_map.1 (show off ∈ readOnlyRegs.map Prod.snd from hoff)
    exact busAccess_write_readOnly hb v p hp

/-! ## The interrupt output -/

theorem irq_of_not_done {s : State} (h : s.regs.done = false) : s.irq = false := by rw [State.irq, h, Bool.and_false]

/-- Settles O46: it holds. -/
theorem interruptLevel : Obligations.InterruptLevel := by
  intro s e w
  refine ⟨Bool.and_eq_true_iff, Bool.and_true _, irq_of_not_done rfl, ?_, fun hb => ?_, irq_of_not_done rfl⟩
  · rw [busAccess_write_status]
    exact irq_of_not_done (Bool.and_false _)
  · rw [busAccess_write_of_not_busy hb w (r := .ctrl) rfl (by decide) (by decide)]
    rfl

/-! ## Reset -/

/-- Settles O47: it holds, register by register. -/
theorem resetValues : Obligations.ResetValues := by
  refine ⟨fun r => ?_, rfl, rfl, fun a => rfl⟩
  cases r <;> rfl

/-- RX_CHUNK_MAX is in its range whatever its free value is (R8). -/
theorem rxChunkMax_range : 1 ≤ Config.rxChunkMax ∧ Config.rxChunkMax ≤ Config.regionSize := by
  have hlt := Config.rxChunkSlack.isLt
  simp only [Config.rxChunkMax, Config.regionSize]
  omega

theorem reset_dataOk : State.reset.DataOk where
  buf := State.reset_buf_wf
  txfLen := .inl rfl
  txwLen := Nat.zero_le _
  rxwLen := Nat.zero_le _
  rxfLen := Nat.zero_le _
  response h := nomatch h
  chunkMax := rxChunkMax_range
  crcTable := crc16Table_wf

/-- Settles O49: it holds; the block is idle, and every length is 0. -/
theorem resetMeetsInv : Obligations.ResetMeetsInv := reset_dataOk.inv_of_idle rfl rfl

end Sys2Proof.Machine

/-! SUPPORT. Host accesses by their place: those that are answered with a bus error (R62, R63), those to the reserved
offsets (R64), and those to BUF as little-endian byte sequences (R63, R78). -/

namespace Sys2Proof.Machine

/-! ## Bus errors -/

theorem busAccess_of_illegal_page (s : State) {bits : Nat} {off : BitVec 21} (v : Word)
    (hpage : off.toNat < Config.regPageEnd) (hillegal : ¬ regAccessLegal bits off.toNat = true) :
    busAccess (.read bits off) s = s.setReply .busError ∧ busAccess (.write bits off v) s = s.setReply .busError := by
  simp only [busAccess, busRead, busWrite, if_pos hpage, if_neg hillegal, and_self]

/-- An offset of the window onto BUF is neither in the register page nor in the reserved space (R61). -/
theorem not_lt_of_bufWindow {off : Nat} (h : Config.bufWindow ≤ off) :
    ¬ off < Config.regPageEnd ∧ ¬ off < Config.bufWindow := by
  simp only [Config.bufWindow, Config.regPageEnd] at *; omega

theorem busAccess_of_illegal_buf (s : State) {bits : Nat} {off : BitVec 21} (v : Word)
    (hwindow : Config.bufWindow ≤ off.toNat) (hillegal : ¬ bufAccessLegal bits off.toNat = true) :
    busAccess (.read bits off) s = s.setReply .busError ∧ busAccess (.write bits off v) s = s.setReply .busError := by
  obtain ⟨hpage, hspace⟩ := not_lt_of_bufWindow hwindow
  simp only [busAccess, busRead, busWrite, if_neg hpage, if_neg hspace, if_neg hillegal, and_self]

theorem regAccessLegal_iff {bits off : Nat} : regAccessLegal bits off = true ↔ bits = 32 ∧ off % 4 = 0 := by
  simp [regAccessLegal]

/-- A legal access to BUF is 8, 16 or 32 bits wide and naturally aligned (R63). -/
theorem bufAccessLegal_iff {bits off : Nat} :
    bufAccessLegal bits off = true ↔ (bits = 8 ∨ bits = 16 ∨ bits = 32) ∧ off % (bits / 8) = 0 := by
  simp only [bufAccessLegal, Bool.or_eq_true, Bool.and_eq_true, beq_iff_eq]
  constructor
  · rintro ((rfl | ⟨rfl, hal⟩) | ⟨rfl, hal⟩)
    · exact ⟨.inl rfl, Nat.mod_one off⟩
    · exact ⟨.inr (.inl rfl), hal⟩
    · exact ⟨.inr (.inr rfl), hal⟩
  · rintro ⟨rfl | rfl | rfl, hal⟩
    · exact .inl (.inl rfl)
    · exact .inl (.inr ⟨rfl, hal⟩)
    · exact .inr ⟨rfl, hal⟩

/-- Settles O43: it holds, from the two forms of a legal access (`regAccessLegal_iff`, `bufAccessLegal_iff`). -/
theorem busErrorChangesNothing : Obligations.BusErrorChangesNothing := by
  rintro s bits off v (⟨hpage, hbad⟩ | ⟨hwindow, hbad⟩)
  · exact busAccess_of_illegal_page s v hpage (by rw [regAccessLegal_iff]; tauto)
  · exact busAccess_of_illegal_buf s v hwindow (by rw [bufAccessLegal_iff]; tauto)

/-! ## Reserved offsets -/

/-- The last register stands at offset 0x040 (R25). -/
theorem regAt_eq_none {off : Nat} (h : 0x044 ≤ off) : regAt off = none := by
  have hall : ∀ p ∈ regTable, p.1 < 0x044 := by decide
  rw [regAt, Option.map_eq_none_iff, List.find?_eq_none]
  intro p hp heq
  have hlt := hall p hp
  have hoff : p.1 = off := by simpa using heq
  omega

/-- The reserved offsets of the register page (R64). -/
theorem busAccess_reserved_page (s : State) (v : Word) {off : BitVec 21} (h : 0x044 ≤ off.toNat)
    (hpage : off.toNat < Config.regPageEnd) (hal : off.toNat % 4 = 0) :
    busAccess (.read 32 off) s = s.setReply (.data 0) ∧
    (s.regs.busy = false → busAccess (.write 32 off v) s = s.setReply .done) := by
  have hlegal : regAccessLegal 32 off.toNat = true := regAccessLegal_iff.2 ⟨rfl, hal⟩
  refine ⟨?_, fun hb => ?_⟩
  · simp only [busAccess, busRead, if_pos hpage, if_pos hlegal, regAt_eq_none h]
  · rw [busAccess_write_page s v hpage hlegal, regAt_eq_none h]
    simp [writeReg, hb]

/-- The reserved space between the register page and BUF (R64). -/
theorem busAccess_reserved_space (s : State) {bits : Nat} (v : Word) {off : BitVec 21}
    (hpage : ¬ off.toNat < Config.regPageEnd) (hspace : off.toNat < Config.bufWindow) :
    busAccess (.read bits off) s = s.setReply (.data 0) ∧
    (s.regs.busy = false → busAccess (.write bits off v) s = s.setReply .done) := by
  refine ⟨?_, fun hb => ?_⟩
  · simp only [busAccess, busRead, if_neg hpage, if_pos hspace]
  · simp [busAccess, busWrite, if_neg hpage, if_pos hspace, hb]

/-- Settles O44: it holds; the reserved offsets lie in the register page or behind it. -/
theorem reservedReadsZero : Obligations.ReservedReadsZero := by
  intro s off v h hspace hal
  by_cases hpage : off.toNat < Config.regPageEnd
  · exact busAccess_reserved_page s v h hpage hal
  · exact busAccess_reserved_space s v hpage hspace

/-! ## Little-endian data -/

/-- Byte `k` of the stored data is its lane `k` (R63, R78). -/
theorem getD_leBytes {n k : Nat} (h : k < n) (v : Word) : (leBytes n v).getD k 0 = v.extractLsb' (8 * k) 8 := by
  induction n generalizing v k with
  | zero => omega
  | succ n ih =>
    cases k with
    | zero => rw [leBytes, List.getD_cons_zero, Nat.mul_zero, BitVec.setWidth_eq_extractLsb' (by decide)]
    | succ k =>
      rw [leBytes, List.getD_cons_succ, ih (by omega)]
      apply BitVec.eq_of_getLsbD_eq
      intro i hi
      simp [BitVec.getLsbD_ushiftRight, hi, show 8 + (8 * k + i) = 8 * (k + 1) + i by omega]

theorem leWord_lt (bs : List Byte) : leWord bs < 2 ^ (8 * bs.length) := by
  induction bs with
  | nil => simp [leWord]
  | cons b bs ih =>
    have hb := b.isLt
    rw [leWord, List.length_cons, Nat.mul_succ, Nat.pow_add]
    omega

/-- Lane `k` of the data is byte `k` of the sequence (R63, R78). -/
theorem leWord_lane (bs : List Byte) (k : Nat) : leWord bs / 2 ^ (8 * k) % 2 ^ 8 = (bs.getD k 0).toNat := by
  induction bs generalizing k with
  | nil => simp [leWord]
  | cons b bs ih =>
    have hb := b.isLt
    cases k with
    | zero => simp only [leWord, List.getD_cons_zero]; omega
    | succ k =>
      have hrest : (b.toNat + 256 * leWord bs) / 2 ^ 8 = leWord bs := by omega
      rw [List.getD_cons_succ, ← ih k, leWord, Nat.mul_succ, Nat.add_comm (8 * k), Nat.pow_add,
        ← Nat.div_div_eq_div_mul, hrest]

/-- The data of a read, lane by lane; the lanes above the sequence are 0 (log entry 11). -/
theorem ofNat_leWord (bs : List Byte) (h : bs.length ≤ 4) :
    (∀ k, (BitVec.ofNat 32 (leWord bs)).extractLsb' (8 * k) 8 = bs.getD k 0) ∧
    (BitVec.ofNat 32 (leWord bs)).toNat < 2 ^ (8 * bs.length) := by
  have hlt := leWord_lt bs
  have hpow : 2 ^ (8 * bs.length) ≤ 2 ^ 32 := Nat.pow_le_pow_right (by decide) (by omega)
  have hval : (BitVec.ofNat 32 (leWord bs)).toNat = leWord bs := by
    rw [BitVec.toNat_ofNat, Nat.mod_eq_of_lt (by omega)]
  refine ⟨fun k => BitVec.eq_of_toNat_eq ?_, by rw [hval]; exact hlt⟩
  rw [BitVec.extractLsb'_toNat, hval, Nat.shiftRight_eq_div_pow, leWord_lane]

/-! ## Accesses to BUF -/

theorem getD_bytesAt (s : State) {off n k : Nat} (h : k < n) : (s.bytesAt off n).getD k 0 = s.byteAt (off + k) := by
  have hk : k < (s.bytesAt off n).length := by simpa using h
  rw [List.getD_eq_getElem _ _ hk]
  exact Memory.getElem_readSpan ..

/-- A legal access to BUF while BUSY = 0 (R63). -/
theorem busAccess_buf_of_not_busy {s : State} (hb : s.regs.busy = false) {bits : Nat} (v : Word) {off : BitVec 21}
    (hwindow : Config.bufWindow ≤ off.toNat) (hlegal : bufAccessLegal bits off.toNat = true) :
    busAccess (.write bits off v) s =
      { s with buf := s.buf.writeSpan (off.toNat - Config.bufWindow) (leBytes (bits / 8) v) }.setReply .done ∧
    busAccess (.read bits off) s =
      s.setReply (.data (BitVec.ofNat 32 (leWord (s.bytesAt (off.toNat - Config.bufWindow) (bits / 8))))) := by
  obtain ⟨hpage, hspace⟩ := not_lt_of_bufWindow hwindow
  have hnb : ¬ s.regs.busy = true := by simp [hb]
  simp only [busAccess, busWrite, busRead, if_neg hpage, if_neg hspace, if_pos hlegal, if_neg hnb, and_self]

/-- Settles O45: it holds; the lanes of a write are those of `getD_leBytes`, the lanes of a read those of
`ofNat_leWord`. -/
theorem bufAccessIsLittleEndian : Obligations.BufAccessIsLittleEndian := by
  intro s bits off v hb hwindow hlegal
  obtain ⟨hwrite, hread⟩ := busAccess_buf_of_not_busy hb v hwindow hlegal
  obtain ⟨hwidth, -⟩ := bufAccessLegal_iff.1 hlegal
  have hbits : 8 * (bits / 8) = bits := by omega
  have hbytes : bits / 8 ≤ 4 := by omega
  obtain ⟨hlanes, habove⟩ := ofNat_leWord (s.bytesAt (off.toNat - Config.bufWindow) (bits / 8))
    (by simpa using hbytes)
  rw [State.length_bytesAt, hbits] at habove
  dsimp only
  rw [hwrite]
  refine ⟨rfl, rfl, rfl, fun k hk => ?_, fun a ha => ?_, _, hread, fun k hk => ?_, habove⟩
  · rw [← getD_leBytes hk v]
    refine (Memory.byte_writeSpan ..).trans ?_
    rw [length_leBytes, if_pos (by simp only [Config.bufWindow]; omega)]
    exact congrArg (fun i => (leBytes (bits / 8) v).getD i 0) (Nat.add_sub_cancel_left ..)
  · exact Memory.byte_writeSpan_outside _ _ _ _ _ (by rw [length_leBytes]; exact ha)
  · rw [hlanes, getD_bytesAt s hk]
    rfl

end Sys2Proof.Machine

/-! SUPPORT. StepNeverStops: an operation that stands at one of its points goes on, because every span that it accesses
is checked first or lies in a region of BUF (R67, R178). -/

namespace Sys2Proof.Machine

/-! ## Results that go on -/

/-- The machine goes on: it neither faults nor refuses. -/
def GoesOn (r : Result) : Prop := ∃ t, r = .next t

theorem goesOn_next (t : State) : GoesOn (.next t) := ⟨t, rfl⟩

theorem goesOn_ite {p : Prop} [Decidable p] {r r' : Result} (h : p → GoesOn r) (h' : ¬ p → GoesOn r') :
    GoesOn (if p then r else r') := by
  split
  · next hp => exact h hp
  · next hp => exact h' hp

/-- The span check in front of an engine access (R67, R75). -/
theorem goesOn_spanChecked {off n : Nat} {s : State} {k : List Byte → Result} (h : ∀ bytes, GoesOn (k bytes)) :
    GoesOn (if !spanLegal off n then finishWith .param s else memReadThen off n s k) := by
  refine goesOn_ite (fun _ => goesOn_next _) fun hlegal => ?_
  rw [memReadThen_of_le _ _ (spanLegal_iff.1 (by simpa using hlegal))]
  exact h _

/-! ## The points of an operation -/

theorem hasPoint_wrote (i : Instr) (a : WriteAnswer) : hasPoint i (.wrote a) = opWrites (opcodeOf i) := by
  cases i <;> rfl

theorem hasPoint_got (i : Instr) (a : ReadAnswer) : hasPoint i (.got a) = opReads (opcodeOf i) := by
  cases i <;> rfl

/-- An operation that makes no port request stands at its start (R178). -/
theorem eq_start_of_hasPoint {i : Instr} {p : Point} (h : hasPoint i p = true)
    (hwrites : opWrites (opcodeOf i) = false) (hreads : opReads (opcodeOf i) = false) : p = .start := by
  cases p with
  | start => rfl
  | wrote a => simp [hasPoint_wrote, hwrites] at h
  | got a => simp [hasPoint_got, hreads] at h

/-- In a state of the invariant the running operation stands at a point that it has (R178). -/
theorem State.Inv.hasPoint {s : State} (hs : s.Inv) {i : Instr} {j : Job} {p : Point} (hr : s.Runs i)
    (he : s.eng = .run j p) : hasPoint i p = true := by
  have hop : opcodeOf i = j.op := by rw [hr.op he, opField_encode]
  cases p with
  | start => cases i <;> rfl
  | wrote a =>
    have hwait := hs.engine
    simp only [State.engineOk, he] at hwait
    rw [hasPoint_wrote, hop, hwait.2]
  | got a => rw [hasPoint_got, hop, (hs.reads_of_got he).op]

/-! ## The shared operations -/

theorem checksumOp_goesOn {s : State} {j : Job} (f : Job → List Byte → Half) (he : s.eng = .run j .start) :
    GoesOn (checksumOp f s) := by
  rw [checksumOp_of_eng f he]
  exact goesOn_ite (fun _ => goesOn_next _) fun _ => goesOn_next _

theorem storeOutput_goesOn (out : List Byte) (s : State) : GoesOn (storeOutput out s) := by
  rw [storeOutput_eq]
  exact goesOn_ite (fun _ => goesOn_next _) fun _ => goesOn_next _

theorem sendFrame_goesOn (j : Job) (s : State) : GoesOn (sendFrame j s) := by
  rw [sendFrame_eq]
  exact goesOn_next _

/-- `receive_one` stores only what fits RXW, so its continuation finds RXW_LEN in its range (R46, R162). -/
theorem receiveChunk_goesOn (a : ReadAnswer) (j : Job) {s : State} {k : ErrCode → State → Result}
    (hs : s.regs.rxwLen.toNat ≤ Config.regionSize)
    (hk : ∀ e t, t.regs.rxwLen.toNat ≤ Config.regionSize → GoesOn (k e t)) : GoesOn (receiveChunk a j s k) := by
  rw [receiveChunk_eq]
  cases a with
  | err => exact hk _ _ hs
  | ok chunk =>
    dsimp only
    split
    · exact hk _ _ hs
    · refine goesOn_ite (fun _ => hk _ _ hs) fun hfit => goesOn_ite (fun _ => hk _ _ ?_) fun _ => goesOn_next _
      rw [State.storeChunk_regs, BitVec.toNat_ofNat]
      exact (Nat.mod_le ..).trans (Nat.le_of_not_gt hfit)

/-- `decode_verify` reads the received bytes from RXW and writes no more bytes to RXF (R165). -/
theorem decodeVerify_goesOn (m : ChecksumMode) (le : Bool) {s : State} {k : ErrCode → State → Result}
    (hs : s.regs.rxwLen.toNat ≤ Config.regionSize) (hk : ∀ e t, GoesOn (k e t)) : GoesOn (decodeVerify m le s k) := by
  rw [decodeVerify_eq m le s k hs]
  exact goesOn_ite (fun _ => hk _ _) fun _ => hk _ _

theorem attemptNext_goesOn (n : Byte) (j : Job) (s : State) : GoesOn (attemptNext n j s) := by
  rw [attemptNext_eq]
  exact goesOn_ite (fun _ => goesOn_next _) fun _ => goesOn_next _

theorem attemptsBegin_goesOn (n : Byte) (j : Job) (s : State) : GoesOn (attemptsBegin n j s) :=
  attemptNext_goesOn n { j with k := 0 } s

theorem attemptResult_goesOn (n : Byte) (j : Job) (e : ErrCode) (s : State) : GoesOn (attemptResult n j e s) :=
  goesOn_ite (fun _ => goesOn_next _) fun _ => attemptNext_goesOn ..

theorem attemptsResume_goesOn (n : Byte) (a : ReadAnswer) (j : Job) {s : State}
    (hs : s.regs.rxwLen.toNat ≤ Config.regionSize) : GoesOn (attemptsResume n a j s) :=
  receiveChunk_goesOn a j hs fun _ _ ht =>
    goesOn_ite (fun _ => decodeVerify_goesOn j.m j.le ht fun _ _ => attemptResult_goesOn ..)
      fun _ => attemptResult_goesOn ..

/-! ## The operations -/

theorem execStuff_goesOn (fcmd retries : Byte) {s : State} {j : Job} (he : s.eng = .run j .start) :
    GoesOn (execStuff fcmd retries s) := by
  rw [execStuff, atStart_of_eng _ he]
  exact goesOn_spanChecked fun _ => storeOutput_goesOn ..

theorem execUnstuff_goesOn (fcmd retries : Byte) {s : State} {j : Job} (he : s.eng = .run j .start) :
    GoesOn (execUnstuff fcmd retries s) := by
  rw [execUnstuff, atStart_of_eng _ he]
  exact goesOn_spanChecked fun _ => goesOn_ite (fun _ => goesOn_next _) fun _ => storeOutput_goesOn ..

theorem execBuild_goesOn (fcmd retries : Byte) {s : State} {j : Job} (he : s.eng = .run j .start) :
    GoesOn (execBuild fcmd retries s) := by
  rw [execBuild, atStart_of_eng _ he, build_eq]
  exact goesOn_next _

theorem execSend_goesOn {fcmd retries : Byte} {s : State} {j : Job} {p : Point} (he : s.eng = .run j p)
    (hp : hasPoint (.send fcmd retries) p = true) : GoesOn (execSend fcmd retries s) := by
  rw [execSend, he]
  cases p with
  | start => exact goesOn_ite (fun _ => goesOn_next _) fun _ => sendFrame_goesOn j s
  | wrote a => exact goesOn_next _
  | got a => cases hp

theorem execRecv_goesOn {fcmd retries : Byte} {s : State} {j : Job} {p : Point} (he : s.eng = .run j p)
    (hp : hasPoint (.recv fcmd retries) p = true) (hs : s.regs.rxwLen.toNat ≤ Config.regionSize) :
    GoesOn (execRecv fcmd retries s) := by
  rw [execRecv, he]
  cases p with
  | start => exact goesOn_next _
  | wrote a => cases hp
  | got a => exact receiveChunk_goesOn a j hs fun _ _ _ => goesOn_next _

theorem execDecode_goesOn (fcmd retries : Byte) {s : State} {j : Job} (he : s.eng = .run j .start)
    (hs : s.regs.rxwLen.toNat ≤ Config.regionSize) : GoesOn (execDecode fcmd retries s) := by
  rw [execDecode, atStart_of_eng _ he]
  exact decodeVerify_goesOn j.m j.le hs fun _ _ => goesOn_next _

theorem execRecvx_goesOn {fcmd retries : Byte} {s : State} {j : Job} {p : Point} (he : s.eng = .run j p)
    (hp : hasPoint (.recvx fcmd retries) p = true) (hs : s.regs.rxwLen.toNat ≤ Config.regionSize) :
    GoesOn (execRecvx fcmd retries s) := by
  rw [execRecvx, he]
  cases p with
  | start => exact goesOn_ite (fun _ => goesOn_next _) fun _ => attemptsBegin_goesOn ..
  | wrote a => cases hp
  | got a => exact attemptsResume_goesOn retries a j hs

theorem execExchange_goesOn (fcmd retries : Byte) {s : State} {j : Job} {p : Point} (he : s.eng = .run j p)
    (hs : s.regs.rxwLen.toNat ≤ Config.regionSize) : GoesOn (execExchange fcmd retries s) := by
  rw [execExchange, he]
  cases p with
  | start =>
    refine goesOn_ite (fun _ => goesOn_next _) fun _ => ?_
    rw [build_eq, andThen_next]
    exact sendFrame_goesOn ..
  | wrote a => exact goesOn_ite (fun _ => goesOn_next _) fun _ => attemptsBegin_goesOn ..
  | got a => exact attemptsResume_goesOn retries a j hs

theorem execProbe_goesOn (fcmd retries : Byte) {s : State} {j : Job} {p : Point} (he : s.eng = .run j p)
    (hs : s.regs.rxwLen.toNat ≤ Config.regionSize) : GoesOn (execProbe fcmd retries s) := by
  rw [execProbe, he]
  cases p with
  | start =>
    refine goesOn_ite (fun _ => goesOn_next _) fun _ => ?_
    rw [memWrite_of_le _ (by decide), andThen_next]
    exact goesOn_next _
  | wrote a => exact goesOn_ite (fun _ => goesOn_next _) fun _ => attemptsBegin_goesOn ..
  | got a => exact attemptsResume_goesOn retries a j hs

/-- An operation goes on from each of its points (R67, R178). -/
theorem exec_goesOn {i : Instr} {s : State} {j : Job} {p : Point} (he : s.eng = .run j p) (hp : hasPoint i p = true)
    (hs : s.regs.rxwLen.toNat ≤ Config.regionSize) : GoesOn (exec i s) := by
  cases i with
  | crc16 fcmd retries => exact checksumOp_goesOn _ (eq_start_of_hasPoint hp rfl rfl ▸ he)
  | isum fcmd retries => exact checksumOp_goesOn _ (eq_start_of_hasPoint hp rfl rfl ▸ he)
  | cksum fcmd retries => exact checksumOp_goesOn _ (eq_start_of_hasPoint hp rfl rfl ▸ he)
  | stuff fcmd retries => exact execStuff_goesOn fcmd retries (eq_start_of_hasPoint hp rfl rfl ▸ he)
  | unstuff fcmd retries => exact execUnstuff_goesOn fcmd retries (eq_start_of_hasPoint hp rfl rfl ▸ he)
  | build fcmd retries => exact execBuild_goesOn fcmd retries (eq_start_of_hasPoint hp rfl rfl ▸ he)
  | send fcmd retries => exact execSend_goesOn he hp
  | recv fcmd retries => exact execRecv_goesOn he hp hs
  | decode fcmd retries => exact execDecode_goesOn fcmd retries (eq_start_of_hasPoint hp rfl rfl ▸ he) hs
  | recvx fcmd retries => exact execRecvx_goesOn he hp hs
  | exchange fcmd retries => exact execExchange_goesOn fcmd retries he hs
  | probe fcmd retries => exact execProbe_goesOn fcmd retries he hs

/-! ## Every step -/

theorem engineStep_goesOn {s : State} (hs : s.Inv) : GoesOn (engineStep s) := by
  unfold engineStep
  split
  · next j p he =>
    split
    · next i hi => exact exec_goesOn he (hs.hasPoint (runs_of_decode he hi) he) hs.rxwLen
    · exact goesOn_next _
  · exact goesOn_next _
  · exact goesOn_next _
  · exact goesOn_next _

theorem perform_goesOn (e : Event) {s : State} (hs : s.Inv) : GoesOn (perform e s) := by
  cases e with
  | reset => exact goesOn_next _
  | host a => exact goesOn_next _
  | engine => exact engineStep_goesOn hs
  | port => exact goesOn_next _

theorem runOn_goesOn {s : State} (hs : s.Inv) : GoesOn (runOn s) := by
  unfold runOn
  split
  · exact engineStep_goesOn hs
  · exact goesOn_next _
  · exact goesOn_next _
  · exact goesOn_next _

/-- Settles O51: it holds; only the engine's move can stop, and it goes on from every point that the running operation
has (`exec_goesOn`). -/
theorem stepNeverStops : Obligations.StepNeverStops := by
  intro s hs
  show GoesOn (step s)
  unfold step
  split
  · exact runOn_goesOn hs
  · exact perform_goesOn _ (hs.setAgenda _)

end Sys2Proof.Machine

/-! SUPPORT. The command word: the decoder against the encoder, which words are rejected, and what the engine does with an
illegal opcode (R80 to R84). -/

namespace Sys2Proof.Machine

/-! ## Decoder and encoder -/

/-- The decoder undoes the encoder, for every operand byte (R80 to R82). -/
theorem decode_encode (i : Instr) : decode (encode i) = .ok i := by
  cases i <;>
    simp only [encode, decode, opField_commandWord, fcmdField_commandWord, retriesField_commandWord] <;> rfl

/-- Settles O1: it holds; a word that decodes is its operation's encoding because its fields are
(`commandWord_of_decode`). -/
theorem decodeOfEncode : Obligations.DecodeOfEncode := by
  refine ⟨decode_encode, fun w i h => ?_⟩
  rw [← commandWord_of_decode h, commandWord_fields]

/-! ## The whole range of command words -/

/-- The low byte of a word, as a number, is its opcode field (R80). -/
theorem toNat_and_lowByte (w : Word) : (w &&& 0xFF#32).toNat = (opField w).toNat := by
  rw [BitVec.toNat_and, toNat_opField, show (0xFF#32).toNat = 2 ^ 8 - 1 from rfl, Nat.and_two_pow_sub_one_eq_mod]

theorem opField_encode_of_decode {w : Word} {i : Instr} (h : decode w = .ok i) : opField (encode i) = opField w := by
  rw [← commandWord_of_decode h, opField_commandWord]

/-- The decoder looks at nothing but the three fields (R80, R84). -/
theorem decode_congr {w w' : Word} (hop : opField w = opField w') (hfcmd : fcmdField w = fcmdField w')
    (hretries : retriesField w = retriesField w') : decode w = decode w' := by
  simp only [decode, hop, hfcmd, hretries]

/-- Replacing the reserved bits 31:24 keeps the value of the 24 bits below them. -/
theorem toNat_append_setWidth (top : Byte) (w : Word) :
    (top ++ w.setWidth 24 : Word).toNat = top.toNat * 2 ^ 24 + w.toNat % 2 ^ 24 := by
  have hlow : (w.setWidth 24).toNat < 2 ^ 24 := (w.setWidth 24).isLt
  rw [BitVec.toNat_append, ← Nat.shiftLeft_add_eq_or_of_lt hlow, Nat.shiftLeft_eq, BitVec.toNat_setWidth]

/-- The reserved bits never change the meaning of a word (R84). -/
theorem decode_append_setWidth (top : Byte) (w : Word) : decode (top ++ w.setWidth 24) = decode w := by
  have hvalue := toNat_append_setWidth top w
  apply decode_congr <;> apply BitVec.eq_of_toNat_eq
  · rw [toNat_opField, toNat_opField, hvalue]; omega
  · rw [toNat_fcmdField, toNat_fcmdField, hvalue]; omega
  · rw [toNat_retriesField, toNat_retriesField, hvalue]; omega

/-- Settles O2: it holds; both ranges of the low byte are ranges of the opcode field (`toNat_and_lowByte`). -/
theorem decoderIsTotal : Obligations.DecoderIsTotal := by
  intro w
  simp only [toNat_and_lowByte]
  refine ⟨fun ⟨h1, h12⟩ => ?_, fun hillegal => ?_, fun top => decode_append_setWidth top w⟩
  · obtain ⟨i, hi⟩ := decode_of_legal w h1 h12
    refine ⟨i, hi, BitVec.eq_of_toNat_eq ?_⟩
    rw [toNat_and_lowByte, toNat_and_lowByte, opField_encode_of_decode hi]
  · rw [decode_of_illegal w hillegal, opField_eq_setWidth]

/-- Settles O3: it holds; each word is evaluated. -/
theorem writtenWordsDecode : Obligations.WrittenWordsDecode := by
  unfold Obligations.WrittenWordsDecode
  decide

/-! ## Illegal opcodes -/

theorem step_of_run {s : State} {j : Job} {p : Point} (hagenda : s.env.agenda = []) (he : s.eng = .run j p) :
    step s = engineStep s := by
  simp only [step, hagenda, runOn, he]

/-- The engine's step of an illegal opcode is its finish with ILLEGAL_OP (R83). -/
theorem engineStep_of_illegal {s : State} {j : Job} {p : Point} (he : s.eng = .run j p)
    (h : j.op.toNat = 0 ∨ 12 < j.op.toNat) : engineStep s = .next (finish .illegalOp s) := by
  have hop : opField (latchedWord j s) = j.op := opField_commandWord ..
  simp only [engineStep, he, decode_of_illegal (latchedWord j s) (hop.symm ▸ h), finishIllegal, finishWith_eq]

/-- A CMD write while the engine is idle launches (R32). -/
theorem busAccess_write_cmd_of_idle {s : State} (he : s.eng = .idle) (w : Word) :
    busAccess (.write 32 0x004#21 w) s = (launch w s).setReply .done := by
  rw [busAccess_write_reg s w (r := .cmd) rfl]
  simp only [writeReg, if_pos he]

/-- Only opcodes that name an operation clear RVALID (R37). -/
theorem clearsRvalid_of_illegal {op : Byte} (h : op.toNat = 0 ∨ 12 < op.toNat) : clearsRvalid op = false := by
  revert op; decide

/-- The registers as the launch of an illegal opcode leaves them: RVALID stays (R83, R150). -/
theorem launched_of_illegal (r : Regs) {w : Word} (h : (opField w).toNat = 0 ∨ 12 < (opField w).toNat) :
    r.launched w =
      { r with cmd := w.setWidth 24, busy := true, done := false, errcode := .none, attempts := 0 } := by
  have hcmd : w.extractLsb' 0 24 = w.setWidth 24 := BitVec.eq_of_toNat_eq (by simp)
  simp [Regs.launched, clearsRvalid_of_illegal h, hcmd]

/-- Settles O5: it holds; the CMD write launches, and the launched engine's first step finishes. -/
theorem illegalOpcodeFinishes : Obligations.IllegalOpcodeFinishes := by
  intro s w hidle hagenda hlow
  rw [toNat_and_lowByte] at hlow
  have hstep : step ((launch w s).setReply .done) = .next (finish .illegalOp ((launch w s).setReply .done)) :=
    have hrun : ((launch w s).setReply .done).eng = .run (launchedJob s.regs w) .start := rfl
    (step_of_run (s := (launch w s).setReply .done) hagenda hrun).trans (engineStep_of_illegal hrun hlow)
  exact ⟨_, _, busAccess_write_cmd_of_idle hidle w, launched_of_illegal s.regs hlow, rfl, nofun, hstep, rfl⟩

end Sys2Proof.Machine

/-! SUPPORT. The layout of a logical frame: its length, its checksummed region, its payload and its tail (R90 to R93). -/

namespace Sys2Proof.Machine

/-- Bytes 1 to 4+n of a logical frame, the checksummed region (R93). -/
def frameRegion (cmd : Byte) (p : List Byte) : List Byte :=
  (frameHead cmd (BitVec.ofNat 16 p.length)).drop 1 ++ p

theorem length_frameRegion (cmd : Byte) (p : List Byte) : (frameRegion cmd p).length = p.length + 4 := by
  simp [frameRegion, Nat.add_comm]

/-- A logical frame is the delimiter, the region and the tail with the region's checksum (R90). -/
theorem logicalFrame_eq (table : CrcTable) (m : ChecksumMode) (le : Bool) (cmd : Byte) (p : List Byte) :
    logicalFrame table m le cmd p =
      Config.delimiter :: (frameRegion cmd p ++ frameTail (checksum table m le (frameRegion cmd p))) := rfl

theorem length_logicalFrame (table : CrcTable) (m : ChecksumMode) (le : Bool) (cmd : Byte) (p : List Byte) :
    (logicalFrame table m le cmd p).length = p.length + 8 := by
  simp [logicalFrame_eq, length_frameRegion]

theorem slice_logicalFrame_region (table : CrcTable) (m : ChecksumMode) (le : Bool) (cmd : Byte) (p : List Byte) :
    slice (logicalFrame table m le cmd p) 1 (p.length + 5) = frameRegion cmd p := by
  rw [logicalFrame_eq, slice, List.drop_one, List.tail_cons]
  exact List.take_left' (length_frameRegion cmd p)

theorem slice_logicalFrame_payload (table : CrcTable) (m : ChecksumMode) (le : Bool) (cmd : Byte) (p : List Byte) :
    slice (logicalFrame table m le cmd p) 5 (5 + p.length) = p := by
  rw [slice, Nat.add_sub_cancel_left]
  exact List.take_left

/-- The bytes behind the payload are those of the tail (R90). -/
theorem byteOf_logicalFrame_tail (table : CrcTable) (m : ChecksumMode) (le : Bool) (cmd : Byte) (p : List Byte)
    (i : Nat) :
    byteOf (logicalFrame table m le cmd p) (i + 5 + p.length) =
      byteOf (frameTail (checksum table m le (frameRegion cmd p))) i := by
  have hlen := length_frameRegion cmd p
  rw [logicalFrame_eq, byteOf, show i + 5 + p.length = i + (p.length + 4) + 1 by omega, List.getD_cons_succ,
    List.getD_append_right _ _ _ _ (by omega), hlen, Nat.add_sub_cancel]
  rfl

/-- Settles O26: it holds, for payloads of every length; the first five bytes are those of the head. -/
theorem logicalFrameLayout : Obligations.LogicalFrameLayout := by
  intro table m le cmd p _ f n
  have htail := byteOf_logicalFrame_tail table m le cmd p
  have hregion : slice f 1 (n + 8 - 3) = frameRegion cmd p := slice_logicalFrame_region table m le cmd p
  have h5 : byteOf f (5 + n) = hiByte (checksum table m le (frameRegion cmd p)) := htail 0
  have h6 : byteOf f (6 + n) = loByte (checksum table m le (frameRegion cmd p)) := htail 1
  have h7 : byteOf f (7 + n) = Config.delimiter := htail 2
  refine ⟨length_logicalFrame table m le cmd p, rfl, rfl, rfl, be16_hiByte_loByte _,
    slice_logicalFrame_payload table m le cmd p, ?_, h7⟩
  rw [h5, h6, hregion, be16_hiByte_loByte]

end Sys2Proof.Machine

/-! SUPPORT. PROBE at its start and behind its write (R102, R174). -/

namespace Sys2Proof.Machine

theorem execProbe_of_start_zero {fcmd : Byte} {s : State} {j : Job} (he : s.eng = .run j .start) :
    exec (.probe fcmd 0) s = .next (finish .param s) := by
  simp [exec, execProbe, he]

theorem execProbe_of_start {fcmd retries : Byte} {s : State} {j : Job} (he : s.eng = .run j .start)
    (h : retries ≠ 0) : exec (.probe fcmd retries) s = .next (probedState j s) := by
  have hfit : Config.txwBase + [Config.delimiter].length ≤ Config.bufSize := by decide
  simp only [exec, execProbe, he, if_neg h, memWrite_of_le s hfit, andThen_next, portWrite_eq, probedState]

theorem execProbe_of_refused {fcmd retries : Byte} {s : State} {j : Job} (he : s.eng = .run j (.wrote .err)) :
    exec (.probe fcmd retries) s = .next (finish .transport s) := by
  simp [exec, execProbe, he, WriteAnswer.errCode]

theorem execProbe_of_taken {fcmd retries : Byte} {s : State} {j : Job} (he : s.eng = .run j (.wrote .ok))
    (h : retries ≠ 0) : exec (.probe fcmd retries) s = .next (firstAttempt j s) := by
  simp [exec, execProbe, he, WriteAnswer.errCode, attemptsBegin_eq _ _ _ h]

/-- The byte that PROBE sends is the delimiter (R102). -/
theorem probedState_byteAt_same (j : Job) (s : State) : (probedState j s).byteAt Config.txwBase = Config.delimiter :=
  (Memory.byte_writeSpan ..).trans (by simp)

/-- Settles O33: it holds, point by point; the bytes that stay are those of `probedState_byteAt`. -/
theorem probeStart : Obligations.ProbeStart := by
  intro fcmd retries s j
  refine ⟨fun he h0 => ?_, fun he h0 => ?_, fun he => execProbe_of_refused he, fun he h0 => execProbe_of_taken he h0⟩
  · subst h0; exact execProbe_of_start_zero he
  · exact ⟨_, execProbe_of_start he h0, rfl, rfl, rfl, probedState_byteAt_same j s,
      fun a ha => probedState_byteAt j s ha⟩

end Sys2Proof.Machine

/-! SUPPORT. The CRC in registers of 16 bits or more (R110, R112). -/

namespace Sys2Proof.Machine

/-- The byte that indexes the table is bits 15:8 of a register of any width (R112). -/
theorem hiByte_setWidth {w : Nat} (c : BitVec w) : hiByte (c.setWidth 16) = (c >>> 8).setWidth 8 := by
  apply BitVec.eq_of_getLsbD_eq
  intro i hi
  simp [hiByte, hi, show 8 + i < 16 by omega]

/-- The low 16 bits after one byte of the update depend on the low 16 bits before it alone (R112). -/
theorem setWidth_crcStepWide {w : Nat} (table : CrcTable) (c : BitVec w) (b : Byte) (hw : 16 ≤ w) :
    (crcStepWide w table c b).setWidth 16 = crcStep table (c.setWidth 16) b := by
  have hshift : (c <<< 8).setWidth 16 = c.setWidth 16 <<< 8 := by
    apply BitVec.eq_of_getLsbD_eq
    intro i hi
    simp only [BitVec.getLsbD_setWidth, BitVec.getLsbD_shiftLeft, hi, show i < w by omega, show i - 8 < 16 by omega,
      decide_true, Bool.true_and]
  rw [crcStepWide, crcStep, hiByte_setWidth c, BitVec.setWidth_xor, hshift,
    BitVec.setWidth_setWidth_of_le _ hw, BitVec.setWidth_eq]

/-- Settles O13: it holds, by induction on the bytes; every byte keeps the low 16 bits equal (`setWidth_crcStepWide`). -/
theorem crcWidthIrrelevant : Obligations.CrcWidthIrrelevant := by
  intro w table c bs hw
  induction bs generalizing c with
  | nil => rfl
  | cons b bs ih => rw [List.foldl_cons, ih, setWidth_crcStepWide table c b hw]; rfl

end Sys2Proof.Machine

/-! SUPPORT. The Internet sum: its closed form, its zero, the swap of its word order and the order of its words (R113 to
R116, R123, R125). -/

namespace Sys2Proof.Machine

/-! ## Words and their sum -/

theorem wordOf_false (b0 b1 : Byte) : wordOf false b0 b1 = b0.toNat * 256 + b1.toNat := be16_toNat b0 b1

theorem wordOf_true (b0 b1 : Byte) : wordOf true b0 b1 = b1.toNat * 256 + b0.toNat := be16_toNat b1 b0

theorem wordOf_eq_zero_iff (le : Bool) (b0 b1 : Byte) : wordOf le b0 b1 = 0 ↔ b0 = 0 ∧ b1 = 0 := by
  rw [← BitVec.toNat_inj, ← BitVec.toNat_inj (x := b1)]
  cases le
  · rw [wordOf_false]; simp
  · rw [wordOf_true]; simp [and_comm]

/-- Nothing is subtracted, so the unfolded sum is 0 only where every byte is 0 (R116). -/
theorem wordSum_eq_zero_iff (le : Bool) (bs : List Byte) : wordSum le bs = 0 ↔ ∀ b ∈ bs, b = 0 := by
  induction bs using wordSum.induct with
  | case1 => simp [wordSum]
  | case2 b => simp [wordSum, wordOf_eq_zero_iff]
  | case3 b0 b1 rest ih => simp [wordSum, wordOf_eq_zero_iff, ih, and_assoc]

/-- A word is 256 times its byte swap, modulo 0xFFFF (R123). -/
theorem wordOf_true_modEq (b0 b1 : Byte) : wordOf true b0 b1 ≡ 256 * wordOf false b0 b1 [MOD 0xFFFF] := by
  rw [wordOf_true, wordOf_false, Nat.ModEq]; omega

theorem wordSum_true_modEq (bs : List Byte) : wordSum true bs ≡ 256 * wordSum false bs [MOD 0xFFFF] := by
  induction bs using wordSum.induct with
  | case1 => rfl
  | case2 b => exact wordOf_true_modEq b 0
  | case3 b0 b1 rest ih =>
    rw [wordSum, wordSum, Nat.mul_add]
    exact (wordOf_true_modEq b0 b1).add ih

/-- The unfolded sum of whole words is the sum of the words (R113). -/
theorem wordSum_flatMap (le : Bool) (ws : List (Byte × Byte)) :
    wordSum le (ws.flatMap fun w => [w.1, w.2]) = (ws.map fun w => wordOf le w.1 w.2).sum := by
  induction ws with
  | nil => rfl
  | cons w ws ih => rw [List.flatMap_cons, List.map_cons, List.sum_cons, ← ih]; rfl

/-! ## The folded sum -/

/-- The folded sum is the only 16-bit value that keeps the unfolded sum modulo 0xFFFF and whether it is 0 (R116). -/
theorem isum_toNat_unique {le : Bool} {bs : List Byte} {v : Nat} (hle : v ≤ 0xFFFF)
    (hmod : v ≡ wordSum le bs [MOD 0xFFFF]) (hzero : v = 0 ↔ wordSum le bs = 0) : (isum le bs).toNat = v := by
  obtain ⟨hle', hmod', hzero'⟩ := isum_spec le bs
  rw [Nat.ModEq] at hmod
  omega

theorem isum_eq_zero_iff (le : Bool) (bs : List Byte) : isum le bs = 0 ↔ ∀ b ∈ bs, b = 0 := by
  obtain ⟨-, -, hzero⟩ := isum_spec le bs
  rw [← wordSum_eq_zero_iff le, ← hzero, ← BitVec.toNat_inj]; rfl

/-- The closed form of the fold (R116). -/
theorem isum_toNat_closed {le : Bool} {bs : List Byte} (h : 0 < wordSum le bs) :
    (isum le bs).toNat = (wordSum le bs - 1) % 0xFFFF + 1 :=
  isum_toNat_unique (by omega) (by rw [Nat.ModEq]; omega) (by omega)

/-- The carry loop on a 32-bit sum ends within two turns (R116). -/
theorem isum_toNat_foldCarry_two {le : Bool} {bs : List Byte} (h : wordSum le bs ≤ 0xFFFFFFFF) :
    (isum le bs).toNat = foldCarry 2 (wordSum le bs) := by
  obtain ⟨hle, hmod, hzero⟩ :
      foldCarry 2 (wordSum le bs) ≤ 0xFFFF ∧ foldCarry 2 (wordSum le bs) ≡ wordSum le bs [MOD 0xFFFF] ∧
        (foldCarry 2 (wordSum le bs) = 0 ↔ wordSum le bs = 0) := by
    simp only [foldCarry, Nat.ModEq]
    split
    · split <;> omega
    · omega
  exact isum_toNat_unique hle hmod hzero

/-- The second step of the two-step fold carries at most once, and what it cuts is the carry (R116). -/
theorem add_carry_mod_of_le {acc : Nat} (h : acc ≤ 2 * 0xFFFF) :
    (acc + acc / 0x10000) % 0x10000 = if 0xFFFF < acc then acc - 0xFFFF else acc := by
  split
  · next hlt =>
    have hcarry : acc / 0x10000 = 1 := by omega
    omega
  · omega

/-- The usual two-step fold of a 32-bit sum (R116). -/
theorem isum_toNat_two_steps {le : Bool} {bs : List Byte} (h : wordSum le bs ≤ 0xFFFFFFFF) :
    let acc := wordSum le bs / 0x10000 + wordSum le bs % 0x10000
    (isum le bs).toNat = (acc + acc / 0x10000) % 0x10000 := by
  intro acc
  rw [add_carry_mod_of_le (show acc ≤ 2 * 0xFFFF by omega)]
  split <;> exact isum_toNat_unique (by omega) (by rw [Nat.ModEq]; omega) (by omega)

/-- Settles O14: it holds; each value stated for the sum is one that `isum_toNat_unique` allows, so it is the sum. -/
theorem isumClosedForm : Obligations.IsumClosedForm := by
  refine ⟨fun le bs => ⟨fun h => ?_, isum_toNat_closed, isum_eq_zero_iff le bs,
    fun h => ⟨isum_toNat_foldCarry_two h, isum_toNat_two_steps h⟩⟩, by decide⟩
  exact (isum_eq_zero_iff le bs).2 ((wordSum_eq_zero_iff le bs).1 h)

/-! ## Word order -/

/-- Swapping the bytes of a 16-bit value multiplies it by 256, modulo 0xFFFF (R123). -/
theorem swap16_toNat_modEq (v : Half) : (swap16 v).toNat ≡ 256 * v.toNat [MOD 0xFFFF] := by
  rw [swap16_toNat, Nat.ModEq]; omega

theorem swap16_toNat_eq_zero_iff (v : Half) : (swap16 v).toNat = 0 ↔ v.toNat = 0 := by
  rw [swap16_toNat]; omega

/-- Settles O15: it holds; the swapped big-endian sum is 256 times the big-endian sum modulo 0xFFFF, as the unfolded
little-endian sum is, and both are 0 together. -/
theorem wordOrderIsByteSwap : Obligations.WordOrderIsByteSwap := by
  intro bs
  obtain ⟨-, hmod, hzero⟩ := isum_spec false bs
  have hcongr : (swap16 (isum false bs)).toNat ≡ wordSum true bs [MOD 0xFFFF] :=
    calc (swap16 (isum false bs)).toNat
      _ ≡ 256 * (isum false bs).toNat [MOD 0xFFFF] := swap16_toNat_modEq _
      _ ≡ 256 * wordSum false bs [MOD 0xFFFF] := Nat.ModEq.mul_left 256 hmod
      _ ≡ wordSum true bs [MOD 0xFFFF] := (wordSum_true_modEq bs).symm
  have hzero' : (swap16 (isum false bs)).toNat = 0 ↔ wordSum true bs = 0 := by
    rw [swap16_toNat_eq_zero_iff, hzero, wordSum_eq_zero_iff, wordSum_eq_zero_iff]
  exact BitVec.eq_of_toNat_eq
    (isum_toNat_unique (Nat.le_of_lt_succ (swap16 (isum false bs)).isLt) hcongr hzero')

/-- The folded sum depends on the unfolded sum alone (R113). -/
theorem isum_congr {le : Bool} {bs bs' : List Byte} (h : wordSum le bs = wordSum le bs') : isum le bs = isum le bs' := by
  rw [isum, h, isum]

/-- Settles O16: it holds; a sum of words does not depend on their order. -/
theorem isumIgnoresWordOrder : Obligations.IsumIgnoresWordOrder := by
  intro le ws ws' hperm
  apply isum_congr
  rw [wordSum_flatMap, wordSum_flatMap]
  exact (hperm.map _).sum_eq

end Sys2Proof.Machine

/-! SUPPORT. CRC16, ISUM and CKSUM at their start, on a legal and on an illegal span (R75, R118 to R121). -/

namespace Sys2Proof.Machine

theorem checksumOp_of_legal {s : State} {j : Job} (f : Job → List Byte → Half) (he : s.eng = .run j .start)
    (hs : s.regs.src.toNat + s.regs.len.toNat ≤ Config.bufSize) :
    checksumOp f s = .next (finish .none (s.setResult (f j (s.bytesAt s.regs.src.toNat s.regs.len.toNat)))) := by
  rw [checksumOp_of_eng f he, if_pos hs]

theorem checksumOp_of_illegal {s : State} {j : Job} (f : Job → List Byte → Half) (he : s.eng = .run j .start)
    (hs : Config.bufSize < s.regs.src.toNat + s.regs.len.toNat) : checksumOp f s = .next (finish .param s) := by
  rw [checksumOp_of_eng f he, if_neg (Nat.not_le.2 hs)]

/-- The mode dispatch of R118, with the seed of frames. -/
theorem checksum_eq_ite (table : CrcTable) (m : ChecksumMode) (le : Bool) (bs : List Byte) :
    checksum table m le bs = if m = .crc then crc16 table 0x0000 bs else isum le bs := by
  cases m <;> rfl

/-- Settles O17: it holds; `finish` writes ERRCODE, BUSY, DONE and the phase, and `setResult` RESULT, nothing else. -/
theorem crc16Result : Obligations.Crc16Result := fun _ _ _ _ he =>
  ⟨checksumOp_of_legal _ he, checksumOp_of_illegal _ he⟩

/-- Settles O18: it holds, as CRC16 does, with the word order of the hidden state. -/
theorem isumResult : Obligations.IsumResult := fun _ _ _ _ he =>
  ⟨checksumOp_of_legal _ he, checksumOp_of_illegal _ he⟩

/-- Settles O19: it holds, as CRC16 does, with the mode of the hidden state (`checksum_eq_ite`). -/
theorem cksumResult : Obligations.CksumResult := by
  intro fcmd retries s j he
  refine ⟨fun hs => ?_, checksumOp_of_illegal _ he⟩
  rw [← checksum_eq_ite]
  exact checksumOp_of_legal _ he hs

end Sys2Proof.Machine

/-! SUPPORT. The codec unit: stuffing with its form by index and its length, what unstuffing answers, and the round trip
(R130 to R136, R139, R247). -/

namespace Sys2Proof.Machine

/-! ## The bytes between the two ends -/

theorem stuffRest_concat (mid : List Byte) (l : Byte) : stuffRest (mid ++ [l]) = mid.flatMap escape ++ [l] := by
  induction mid with
  | nil => rfl
  | cons b mid ih =>
    have hcons : stuffRest (b :: (mid ++ [l])) = escape b ++ stuffRest (mid ++ [l]) := by cases mid <;> rfl
    rw [List.cons_append, hcons, ih, List.flatMap_cons, List.append_assoc]

/-- The two ends pass through, and every byte between them is escaped (R130, R131). -/
theorem stuff_cons_concat (a : Byte) (mid : List Byte) (l : Byte) :
    stuff (a :: (mid ++ [l])) = a :: (mid.flatMap escape ++ [l]) := by
  rw [stuff, stuffRest_concat]

/-! ## The form by index -/

/-- What the loop of R130 puts out for the index `i`. -/
def stuffAt (s : List Byte) (i : Nat) : List Byte :=
  if 0 < i ∧ i < s.length - 1 then escape (byteOf s i) else [byteOf s i]

theorem stuffByIndex_eq (s : List Byte) : stuffByIndex s = (List.range s.length).flatMap (stuffAt s) := by
  refine congrArg (List.flatMap · (List.range s.length)) (funext fun i => ?_)
  by_cases hin : 0 < i ∧ i < s.length - 1
  · simp [stuffAt, escape, hin]
  · rw [stuffAt, if_neg hin, if_neg (fun h => hin ⟨h.1, h.2.1⟩), if_neg (fun h => hin ⟨h.1, h.2.1⟩)]

theorem range_flatMap_byteOf (f : Byte → List Byte) (s : List Byte) :
    (List.range s.length).flatMap (fun i => f (byteOf s i)) = s.flatMap f := by
  have hs : (List.range s.length).map (byteOf s) = s := by
    apply List.ext_getElem <;> simp +contextual [byteOf]
  conv_rhs => rw [← hs]
  rw [List.flatMap_map]

theorem stuffAt_first (a : Byte) (s : List Byte) : stuffAt (a :: s) 0 = [a] := rfl

theorem stuffAt_inner (a : Byte) (mid : List Byte) (l : Byte) {i : Nat} (hi : i < mid.length) :
    stuffAt (a :: (mid ++ [l])) (i + 1) = escape (byteOf mid i) := by
  simp [stuffAt, byteOf, List.getElem?_append_left, hi]

theorem stuffAt_last (a : Byte) (mid : List Byte) (l : Byte) :
    stuffAt (a :: (mid ++ [l])) (mid.length + 1) = [l] := by
  simp [stuffAt, byteOf]

/-- Settles O20: it holds; the loop's first and last turn give the ends, the turns between them the escaped bytes. -/
theorem stuffIsIndexLoop : Obligations.StuffIsIndexLoop := by
  intro bs
  rw [stuffByIndex_eq]
  induction bs using List.bidirectionalRec with
  | nil => rfl
  | singleton a => rfl
  | cons_append a mid l =>
    have hinner : (List.range mid.length).flatMap (fun i => stuffAt (a :: (mid ++ [l])) (i + 1)) =
        mid.flatMap escape := by
      rw [← range_flatMap_byteOf]
      exact List.flatMap_congr fun i hi => stuffAt_inner a mid l (List.mem_range.1 hi)
    have hlen : (a :: (mid ++ [l])).length = mid.length + 1 + 1 := by simp
    rw [stuff_cons_concat, hlen, List.range_succ, List.range_succ_eq_map, List.flatMap_append, List.flatMap_cons,
      List.flatMap_map, hinner, stuffAt_first, List.flatMap_singleton, stuffAt_last]
    rfl

/-! ## The length -/

theorem length_escape (b : Byte) : (escape b).length = if b = 0x7E ∨ b = 0x7D then 2 else 1 := by
  unfold escape
  split
  · next h => simp [h]
  · next h => split <;> simp_all

theorem length_stuffAt (s : List Byte) (i : Nat) :
    (stuffAt s i).length =
      if 0 < i ∧ i < s.length - 1 ∧ (byteOf s i = 0x7E ∨ byteOf s i = 0x7D) then 2 else 1 := by
  unfold stuffAt
  split
  · next h => simp [length_escape, h]
  · next h => rw [if_neg (fun hi => h ⟨hi.1, hi.2.1⟩)]; rfl

/-- Every turn of the loop puts out one byte, and one more where it escapes. -/
theorem length_flatMap_stuffAt (s : List Byte) (is : List Nat) :
    (is.flatMap (stuffAt s)).length =
      is.length + (is.filter fun i =>
        decide (0 < i ∧ i < s.length - 1 ∧ (byteOf s i = 0x7E ∨ byteOf s i = 0x7D))).length := by
  induction is with
  | nil => rfl
  | cons i is ih =>
    rw [List.flatMap_cons, List.length_append, ih, length_stuffAt, List.filter_cons, List.length_cons]
    split
    · next h => rw [if_pos (decide_eq_true h), List.length_cons]; omega
    · next h => rw [if_neg (by simpa using h)]; omega

/-- Settles O21: it holds; the length is that of the loop over indices, and `length_stuff_le` bounds it. -/
theorem stuffLength : Obligations.StuffLength := by
  intro bs
  have hlen : (stuff bs).length = bs.length + escapedCount bs := by
    rw [stuffIsIndexLoop, stuffByIndex_eq, length_flatMap_stuffAt, List.length_range, escapedCount]
  refine ⟨hlen, fun h2 => ⟨by omega, ?_⟩⟩
  have hle := length_stuff_le bs
  rwa [if_neg (by omega)] at hle

/-! ## The parts of a wire sequence -/

/-- A byte and the wire bytes that stand for it: one element of an `escapeCut` (R96, R133, R139). -/
def WirePart (p : Byte × List Byte) : Prop :=
  (p.1 ≠ 0x7D ∧ p.2 = [p.1]) ∨ p = (0x7E, [0x7D, 0x5E]) ∨ p = (0x7D, [0x7D, 0x5D])

theorem wirePart_plain {b : Byte} (h : b ≠ 0x7D) : WirePart (b, [b]) := .inl ⟨h, rfl⟩

theorem wirePart_delimiter : WirePart (0x7E, [0x7D, 0x5E]) := .inr (.inl rfl)

theorem wirePart_escapeByte : WirePart (0x7D, [0x7D, 0x5D]) := .inr (.inr rfl)

theorem wirePart_escape (b : Byte) : WirePart (b, escape b) := by
  unfold escape
  split
  · next h => rw [h]; exact wirePart_delimiter
  · split
    · next h => rw [h]; exact wirePart_escapeByte
    · next h => exact wirePart_plain h

theorem escapeCut_nil : escapeCut [] [] := ⟨[], by simp, rfl, rfl⟩

theorem WirePart.escapeCut_append {p : Byte × List Byte} {w f : List Byte} (hp : WirePart p) (h : escapeCut w f) :
    escapeCut (p.2 ++ w) (p.1 :: f) := by
  obtain ⟨parts, hparts, rfl, rfl⟩ := h
  exact ⟨p :: parts, List.forall_mem_cons.2 ⟨hp, hparts⟩, rfl, rfl⟩

theorem unstuff_cons_of_ne {b : Byte} (h : b ≠ 0x7D) (w : List Byte) :
    unstuff (b :: w) = (b :: (unstuff w).1, (unstuff w).2) := by
  cases w with
  | nil => exact if_neg h
  | cons c rest => exact if_neg h

theorem WirePart.unstuff_append {p : Byte × List Byte} (hp : WirePart p) (w : List Byte) :
    unstuff (p.2 ++ w) = (p.1 :: (unstuff w).1, (unstuff w).2) := by
  rcases hp with ⟨hb, he⟩ | rfl | rfl
  · rw [he]; exact unstuff_cons_of_ne hb w
  · rfl
  · rfl

/-- The scan decodes the parts one after the other and goes on behind them (R133). -/
theorem escapeCut.unstuff_append {u f : List Byte} (h : escapeCut u f) (v : List Byte) :
    unstuff (u ++ v) = (f ++ (unstuff v).1, (unstuff v).2) := by
  obtain ⟨parts, hparts, rfl, rfl⟩ := h
  induction parts with
  | nil => rfl
  | cons p parts ih =>
    obtain ⟨hp, hrest⟩ := List.forall_mem_cons.1 hparts
    rw [List.map_cons, List.flatten_cons, List.append_assoc, WirePart.unstuff_append hp, ih hrest]
    rfl

theorem escapeCut_flatMap_escape (s : List Byte) : escapeCut (s.flatMap escape) s := by
  induction s with
  | nil => exact escapeCut_nil
  | cons b s ih => exact (wirePart_escape b).escapeCut_append ih

/-! ## Where the scan ends -/

/-- What can stand where the scan ends, and the answer there: nothing (NONE), a last 0x7D (ESC_TRUNCATED), or a 0x7D
before a byte that makes no escape (ESC_INVALID) (R134, R135). -/
inductive ScanEnd : List Byte → ErrCode → Prop where
  | finished : ScanEnd [] .none
  | truncated : ScanEnd [0x7D] .escTruncated
  | invalid (c : Byte) (rest : List Byte) (h5E : c ≠ 0x5E) (h5D : c ≠ 0x5D) : ScanEnd (0x7D :: c :: rest) .escInvalid

theorem ScanEnd.unstuff_eq {v : List Byte} {e : ErrCode} (h : ScanEnd v e) : unstuff v = ([], e) := by
  cases h with
  | finished => rfl
  | truncated => rfl
  | invalid c rest h5E h5D => rw [unstuff, if_pos rfl, if_neg h5E, if_neg h5D]

theorem ScanEnd.answer_mem {v : List Byte} {e : ErrCode} (h : ScanEnd v e) :
    e ∈ [ErrCode.none, .escTruncated, .escInvalid] := by
  cases h <;> simp

/-- Parts that stand for `f`, followed by an end with the answer `e`. -/
def ScanCut (w f : List Byte) (e : ErrCode) : Prop := ∃ u v, w = u ++ v ∧ escapeCut u f ∧ ScanEnd v e

theorem ScanEnd.scanCut {v : List Byte} {e : ErrCode} (h : ScanEnd v e) : ScanCut v [] e :=
  ⟨[], v, rfl, escapeCut_nil, h⟩

theorem WirePart.scanCut_append {p : Byte × List Byte} {w f : List Byte} {e : ErrCode} (hp : WirePart p)
    (h : ScanCut w f e) : ScanCut (p.2 ++ w) (p.1 :: f) e := by
  obtain ⟨u, v, rfl, hu, hv⟩ := h
  exact ⟨p.2 ++ u, v, (List.append_assoc ..).symm, hp.escapeCut_append hu, hv⟩

theorem scanCut_unstuff (w : List Byte) : ScanCut w (unstuff w).1 (unstuff w).2 := by
  induction w using unstuff.induct with
  | case1 => exact ScanEnd.finished.scanCut
  | case2 => exact ScanEnd.truncated.scanCut
  | case3 b h => rw [unstuff_cons_of_ne h]; exact (wirePart_plain h).scanCut_append ScanEnd.finished.scanCut
  | case4 rest ih => exact wirePart_delimiter.scanCut_append ih
  | case5 rest h5E ih => exact wirePart_escapeByte.scanCut_append ih
  | case6 c rest h5E h5D =>
    have hend := ScanEnd.invalid c rest h5E h5D
    rw [hend.unstuff_eq]; exact hend.scanCut
  | case7 b c rest h ih => rw [unstuff_cons_of_ne h]; exact (wirePart_plain h).scanCut_append ih

/-- What unstuffing answers: the bytes of the parts up to where the scan ends, and the answer there (R133 to R135). -/
theorem unstuff_eq_iff (w f : List Byte) (e : ErrCode) : unstuff w = (f, e) ↔ ScanCut w f e := by
  constructor
  · intro h
    have hcut := scanCut_unstuff w
    rwa [h] at hcut
  · rintro ⟨u, v, rfl, hu, hv⟩
    rw [hu.unstuff_append, hv.unstuff_eq, List.append_nil]

/-- Settles O23: it holds; `unstuff_eq_iff` for each end that the scan can have. -/
theorem unstuffAccepts : Obligations.UnstuffAccepts := by
  intro w f
  simp only [unstuff_eq_iff]
  refine ⟨⟨?_, ?_⟩, ⟨?_, ?_⟩, ⟨?_, ?_⟩, ?_⟩
  · rintro ⟨u, v, rfl, hu, ⟨⟩⟩; rwa [List.append_nil]
  · exact fun h => ⟨w, [], (List.append_nil w).symm, h, .finished⟩
  · rintro ⟨u, v, hw, hu, ⟨⟩⟩; exact ⟨u, hw, hu⟩
  · rintro ⟨u, hw, hu⟩; exact ⟨u, _, hw, hu, .truncated⟩
  · rintro ⟨u, v, hw, hu, ⟨⟩ | ⟨⟩ | ⟨c, rest, h5E, h5D⟩⟩; exact ⟨u, c, rest, hw, h5E, h5D, hu⟩
  · rintro ⟨u, c, rest, hw, h5E, h5D, hu⟩; exact ⟨u, _, hw, hu, .invalid c rest h5E h5D⟩
  · obtain ⟨u, v, hw, hu, hv⟩ := scanCut_unstuff w
    exact hv.answer_mem

/-! ## The round trip -/

theorem unstuff_singleton {b : Byte} (h : b ≠ 0x7D) : unstuff [b] = ([b], .none) := unstuff_cons_of_ne h []

theorem unstuff_stuff {bs : List Byte} (hfirst : bs.head? ≠ some 0x7D) (hlast : bs.getLast? ≠ some 0x7D) :
    unstuff (stuff bs) = (bs, .none) := by
  induction bs using List.bidirectionalRec with
  | nil => rfl
  | singleton a => exact unstuff_singleton (by simpa using hfirst)
  | cons_append a mid l =>
    have ha : a ≠ 0x7D := by simpa using hfirst
    have hl : l ≠ 0x7D := by
      rwa [← List.cons_append, List.getLast?_concat, Ne, Option.some_inj] at hlast
    rw [stuff_cons_concat, unstuff_cons_of_ne ha, (escapeCut_flatMap_escape mid).unstuff_append,
      unstuff_singleton hl]

/-- Each part holds 0x7D exactly where it has two bytes. -/
theorem WirePart.length_eq {p : Byte × List Byte} (hp : WirePart p) : p.2.length = 1 + p.2.count 0x7D := by
  rcases hp with ⟨hb, he⟩ | rfl | rfl
  · rw [he, List.count_eq_zero_of_not_mem (by simpa using hb.symm)]; rfl
  · rfl
  · rfl

/-- A wire sequence is longer than what it stands for by the number of its bytes 0x7D. -/
theorem escapeCut.length_eq {w f : List Byte} (h : escapeCut w f) : w.length = f.length + w.count 0x7D := by
  obtain ⟨parts, hparts, rfl, rfl⟩ := h
  induction parts with
  | nil => rfl
  | cons p parts ih =>
    obtain ⟨hp, hrest⟩ := List.forall_mem_cons.1 hparts
    have hlen := WirePart.length_eq hp
    have ih := ih hrest
    simp only [List.map_cons, List.flatten_cons, List.length_append, List.count_append, List.length_cons] at ih ⊢
    omega

/-- An end 0x7D passes through unescaped, so the wire form has a 0x7D for which it has no byte more (R131, R136). -/
theorem length_stuff_lt {bs : List Byte} (h : bs.head? = some 0x7D ∨ bs.getLast? = some 0x7D) :
    (stuff bs).length < bs.length + (stuff bs).count 0x7D := by
  induction bs using List.bidirectionalRec with
  | nil => simp at h
  | singleton a =>
    have ha : a = 0x7D := by simpa using h
    subst ha; decide
  | cons_append a mid l =>
    have hmid := (escapeCut_flatMap_escape mid).length_eq
    have hend : a = 0x7D ∨ l = 0x7D := by
      rwa [← List.cons_append, List.getLast?_concat, List.cons_append, List.head?_cons, Option.some_inj,
        Option.some_inj] at h
    have hcount : 1 ≤ [a].count 0x7D + [l].count 0x7D := by rcases hend with rfl | rfl <;> simp
    rw [stuff_cons_concat, ← List.singleton_append]
    simp only [List.length_append, List.count_append, List.length_cons, List.length_nil]
    omega

/-- Settles O22: it holds; at an end 0x7D a success would give the wire form the length of `escapeCut.length_eq`, which
`length_stuff_lt` rules out. -/
theorem unstuffOfStuff : Obligations.UnstuffOfStuff := by
  refine ⟨fun bs => unstuff_stuff, by decide, by decide, fun bs hend h => ?_⟩
  have hlen := ((unstuffAccepts _ _).1.1 h).length_eq
  have hlt := length_stuff_lt hend
  omega

end Sys2Proof.Machine

/-! SUPPORT. STUFF and UNSTUFF at their start: an illegal source span, an escape error, and the output stored at DST
(R75, R137, R138). -/

namespace Sys2Proof.Machine

/-! ## The output and its destination -/

/-- How STUFF and UNSTUFF leave the state `s` with the output `out`: its length in OUTLEN, and its bytes at DST where
they fit, else PARAM and BUF as it was. -/
def OutputStored (out : List Byte) (s t : State) : Prop :=
  t.eng = .idle ∧ t.env = s.env ∧ t.regs.outlen.toNat = out.length ∧
    (0x100000 < s.regs.dst.toNat + out.length →
      t.regs = { s.regs with outlen := t.regs.outlen, errcode := .param, busy := false, done := true } ∧
      t.buf = s.buf) ∧
    (s.regs.dst.toNat + out.length ≤ 0x100000 →
      t.regs = { s.regs with outlen := t.regs.outlen, errcode := .none, busy := false, done := true } ∧
      t.bytesAt s.regs.dst.toNat out.length = out ∧
      ∀ a, (a < s.regs.dst.toNat ∨ s.regs.dst.toNat + out.length ≤ a) → t.byteAt a = s.byteAt a)

theorem storeOutput_of_fits {out : List Byte} {s : State} (h : s.regs.dst.toNat + out.length ≤ Config.bufSize) :
    storeOutput out s =
      .next (finish .none { s.setOutlen out.length with buf := s.buf.writeSpan s.regs.dst.toNat out }) := by
  rw [storeOutput_eq, if_pos h]

theorem storeOutput_of_past {out : List Byte} {s : State} (h : ¬ s.regs.dst.toNat + out.length ≤ Config.bufSize) :
    storeOutput out s = .next (finish .param (s.setOutlen out.length)) := by
  rw [storeOutput_eq, if_neg h]

/-- The end of STUFF and UNSTUFF, for every output whose length OUTLEN can hold. -/
theorem storeOutput_outputStored {out : List Byte} (s : State) (hout : out.length < 2 ^ 21) :
    ∃ t, storeOutput out s = .next t ∧ OutputStored out s t := by
  have houtlen : (BitVec.ofNat 21 out.length).toNat = out.length := by rw [BitVec.toNat_ofNat, Nat.mod_eq_of_lt hout]
  by_cases hfit : s.regs.dst.toNat + out.length ≤ Config.bufSize
  · have hrun := storeOutput_of_fits hfit
    exact ⟨_, hrun, rfl, rfl, houtlen, fun hpast => absurd hfit (Nat.not_le.2 hpast), fun _ =>
      ⟨rfl, Memory.readSpan_writeSpan .., fun a ha => storeOutput_byteAt hrun (by unfold InDst; omega)⟩⟩
  · exact ⟨_, storeOutput_of_past hfit, rfl, rfl, houtlen, fun _ => ⟨rfl, rfl⟩, fun h => absurd h hfit⟩

/-! ## STUFF -/

theorem execStuff_of_illegal {fcmd retries : Byte} {s : State} {j : Job} (he : s.eng = .run j .start)
    (hs : Config.bufSize < s.regs.src.toNat + s.regs.len.toNat) :
    exec (.stuff fcmd retries) s = .next (finish .param s) := by
  simp [exec, execStuff, atStart_of_eng _ he, spanLegal_false (Nat.not_le.2 hs)]

theorem execStuff_of_legal {fcmd retries : Byte} {s : State} {j : Job} (he : s.eng = .run j .start)
    (hs : s.regs.src.toNat + s.regs.len.toNat ≤ Config.bufSize) :
    exec (.stuff fcmd retries) s = storeOutput (stuff (s.bytesAt s.regs.src.toNat s.regs.len.toNat)) s := by
  simp [exec, execStuff, atStart_of_eng _ he, spanLegal_iff.2 hs, memReadThen_of_le _ _ hs]

/-- OUTLEN can hold the length of the wire form of every legal span (R43). -/
theorem length_stuff_lt_of_legal {s : State} (hs : s.regs.src.toNat + s.regs.len.toNat ≤ Config.bufSize) :
    (stuff (s.bytesAt s.regs.src.toNat s.regs.len.toNat)).length < 2 ^ 21 := by
  have hlen := length_stuff_le (s.bytesAt s.regs.src.toNat s.regs.len.toNat)
  rw [State.length_bytesAt] at hlen
  have hbuf : Config.bufSize = 0x100000 := rfl
  split at hlen <;> omega

/-- Settles O24: it holds; behind a legal source span STUFF is the end that it shares with UNSTUFF. -/
theorem stuffResult : Obligations.StuffResult := by
  intro fcmd retries s j he
  refine ⟨execStuff_of_illegal he, fun hs => ?_⟩
  obtain ⟨t, ht, hstored⟩ := storeOutput_outputStored s (length_stuff_lt_of_legal hs)
  exact ⟨t, (execStuff_of_legal he hs).trans ht, hstored⟩

/-! ## UNSTUFF -/

theorem execUnstuff_of_illegal {fcmd retries : Byte} {s : State} {j : Job} (he : s.eng = .run j .start)
    (hs : Config.bufSize < s.regs.src.toNat + s.regs.len.toNat) :
    exec (.unstuff fcmd retries) s = .next (finish .param s) := by
  simp [exec, execUnstuff, atStart_of_eng _ he, spanLegal_false (Nat.not_le.2 hs)]

theorem execUnstuff_of_legal {fcmd retries : Byte} {s : State} {j : Job} (he : s.eng = .run j .start)
    (hs : s.regs.src.toNat + s.regs.len.toNat ≤ Config.bufSize) :
    exec (.unstuff fcmd retries) s =
      let r := unstuff (s.bytesAt s.regs.src.toNat s.regs.len.toNat)
      if r.2 ≠ .none then .next (finish r.2 (s.setOutlen 0)) else storeOutput r.1 s := by
  simp [exec, execUnstuff, atStart_of_eng _ he, spanLegal_iff.2 hs, memReadThen_of_le _ _ hs]

/-- OUTLEN can hold the length of what any legal span stands for (R43). -/
theorem length_unstuff_lt_of_legal {s : State} (hs : s.regs.src.toNat + s.regs.len.toNat ≤ Config.bufSize) :
    (unstuff (s.bytesAt s.regs.src.toNat s.regs.len.toNat)).1.length < 2 ^ 21 := by
  have hlen := length_unstuff_le (s.bytesAt s.regs.src.toNat s.regs.len.toNat)
  rw [State.length_bytesAt] at hlen
  have hbuf : Config.bufSize = 0x100000 := rfl
  omega

/-- Settles O25: it holds; behind a legal source span and without an escape error UNSTUFF ends as STUFF does. -/
theorem unstuffResult : Obligations.UnstuffResult := by
  intro fcmd retries s j he
  refine ⟨execUnstuff_of_illegal he, fun hs herr => ?_, fun hs hok => ?_⟩
  · exact (execUnstuff_of_legal he hs).trans (if_pos herr)
  · obtain ⟨t, ht, hstored⟩ := storeOutput_outputStored s (length_unstuff_lt_of_legal hs)
    exact ⟨t, ((execUnstuff_of_legal he hs).trans (if_neg (not_not.2 hok))).trans ht, hstored⟩

end Sys2Proof.Machine

/-! SUPPORT. What one step of the machine is, how an operation is launched, and how it ends (R54, R72, R150, R151, R153). -/

namespace Sys2Proof.Machine

/-! ## One step -/

/-- The engine's move of a running operation is the meaning of its latched word (R72, R153). -/
theorem engineStep_of_decode {s : State} {j : Job} {p : Point} {i : Instr} (he : s.eng = .run j p)
    (hi : decode (latchedWord j s) = .ok i) : engineStep s = exec i s := by
  simp only [engineStep, he, hi]

theorem engineStep_of_not_run {s : State} (h : ∀ j p, s.eng ≠ .run j p) : engineStep s = .next s := by
  unfold engineStep
  split
  · next j p he => exact absurd he (h j p)
  · rfl
  · rfl
  · rfl

theorem step_of_scheduled {s : State} {e : Event} {rest : List Event} (h : s.env.agenda = e :: rest) :
    step s = perform e (s.setAgenda rest) := by
  rw [step, h]

theorem step_of_idle {s : State} (hagenda : s.env.agenda = []) (he : s.eng = .idle) : step s = .next s := by
  simp only [step, hagenda, runOn, he]

/-- With nothing scheduled the port answers an outstanding write request (R54, R264). -/
theorem step_of_waitWrite {s : State} {bytes : List Byte} {j : Job} (hagenda : s.env.agenda = [])
    (he : s.eng = .waitWrite bytes j) : step s = .next (portStep s) := by
  simp only [step, hagenda, runOn, he]

/-- With nothing scheduled the port answers an outstanding read request (R54, R264). -/
theorem step_of_waitRead {s : State} {n : Nat} {j : Job} (hagenda : s.env.agenda = [])
    (he : s.eng = .waitRead n j) : step s = .next (portStep s) := by
  simp only [step, hagenda, runOn, he]

/-- Settles O4: it holds, move by move. -/
theorem stepRunsDecodedOperation : Obligations.StepRunsDecodedOperation := by
  intro s
  refine ⟨fun j p i he hi => ⟨fun h => ?_, fun rest h => ?_⟩, fun rest h hnot => ?_, fun a rest h => step_of_scheduled h,
    fun rest h => step_of_scheduled h, fun rest h => step_of_scheduled h, fun h => ⟨step_of_idle h, fun bytes j he => ?_,
    fun n j he => ?_⟩⟩
  · exact (step_of_run h he).trans (engineStep_of_decode he hi)
  · exact (step_of_scheduled h).trans (engineStep_of_decode (s := s.setAgenda rest) he hi)
  · exact (step_of_scheduled h).trans (engineStep_of_not_run (s := s.setAgenda rest) hnot)
  · exact step_of_waitWrite h he
  · exact step_of_waitRead h he

/-! ## Launch -/

/-- The opcodes that clear RVALID, as the list of them (R37). -/
theorem clearsRvalid_iff (op : Byte) : clearsRvalid op = true ↔ op ∈ [0x08#8, 0x09#8, 0x0A#8, 0x0B#8, 0x0C#8] := by
  simp [clearsRvalid, or_assoc]

/-- Settles O6: it holds; the CMD write of an idle block is `launch`, field by field. -/
theorem cmdWriteLaunches : Obligations.CmdWriteLaunches := by
  intro s w hidle
  rw [busAccess_write_cmd_of_idle hidle, ← opField_eq_setWidth]
  simp only [← clearsRvalid_iff]
  rfl

/-! ## Finish -/

/-- From `s` the operation has either ended through `finish`, or it goes on with BUSY, DONE and ERRCODE as they were
(R151, R241). -/
def FinishedOrGoesOn (s t : State) : Prop :=
  (t.eng = .idle ∧ t.regs.busy = false ∧ t.regs.done = true) ∨
    (t.eng ≠ .idle ∧ t.regs.busy = s.regs.busy ∧ t.regs.done = s.regs.done ∧ t.regs.errcode = s.regs.errcode)

theorem finish_finishedOrGoesOn (e : ErrCode) (s u : State) : FinishedOrGoesOn s (finish e u) := .inl ⟨rfl, rfl, rfl⟩

theorem storeOutput_finishedOrGoesOn {out : List Byte} {s t : State} (h : storeOutput out s = .next t) :
    FinishedOrGoesOn s t := by
  rcases storeOutput_next h with rfl | ⟨-, rfl⟩ <;> exact finish_finishedOrGoesOn ..

theorem checksumOp_finishedOrGoesOn {f : Job → List Byte → Half} {s t : State} (h : checksumOp f s = .next t) :
    FinishedOrGoesOn s t := by
  rcases checksumOp_next h with rfl | ⟨j, -, rfl⟩ <;> exact finish_finishedOrGoesOn ..

theorem attemptsBegin_finishedOrGoesOn {n : Byte} {j : Job} {s t : State} (h : attemptsBegin n j s = .next t) :
    FinishedOrGoesOn s t := by
  rcases attemptsBegin_next h with ⟨rfl, -⟩ | ⟨rfl, -⟩
  · exact .inr ⟨nofun, rfl, rfl, rfl⟩
  · exact finish_finishedOrGoesOn ..

/-- An attempt that ends in an error and is followed by another one leaves BUSY, DONE and ERRCODE alone (R170). -/
theorem attemptsResume_finishedOrGoesOn {n : Byte} {a : ReadAnswer} {j : Job} {s t : State}
    (h : attemptsResume n a j s = .next t) : FinishedOrGoesOn s t := by
  rcases attemptsResume_next h with ⟨chunk, -, -, -, -, rfl⟩ | ⟨e, u, hends, h⟩
  · exact .inr ⟨nofun, rfl, rfl, rfl⟩
  · rcases attemptResult_next h with ⟨rfl, -⟩ | ⟨-, -, rfl⟩
    · exact finish_finishedOrGoesOn ..
    · obtain ⟨-, -, _, _, _, _, _, _, _, hregs, -⟩ := attemptEnds_keeps hends
      refine .inr ⟨nofun, ?_⟩
      rw [State.setEng_regs, State.setRxwLen_regs, State.setAttempts_regs, hregs]
      exact ⟨rfl, rfl, rfl⟩

theorem exec_finishedOrGoesOn {i : Instr} {s t : State} (h : exec i s = .next t) : FinishedOrGoesOn s t := by
  cases i with
  | crc16 fcmd retries => exact checksumOp_finishedOrGoesOn h
  | isum fcmd retries => exact checksumOp_finishedOrGoesOn h
  | cksum fcmd retries => exact checksumOp_finishedOrGoesOn h
  | stuff fcmd retries =>
    obtain ⟨-, rfl | h⟩ := execStuff_next h
    · exact finish_finishedOrGoesOn ..
    · exact storeOutput_finishedOrGoesOn h
  | unstuff fcmd retries =>
    obtain ⟨-, rfl | ⟨-, rfl⟩ | ⟨-, h⟩⟩ := execUnstuff_next h
    · exact finish_finishedOrGoesOn ..
    · exact finish_finishedOrGoesOn ..
    · exact storeOutput_finishedOrGoesOn h
  | build fcmd retries =>
    obtain ⟨j, -, rfl⟩ := execBuild_next h
    exact finish_finishedOrGoesOn ..
  | send fcmd retries =>
    rcases execSend_next h with ⟨j, -, -, rfl⟩ | ⟨j, -, -, rfl⟩ | ⟨j, a, -, rfl⟩
    · exact finish_finishedOrGoesOn ..
    · exact .inr ⟨nofun, rfl, rfl, rfl⟩
    · exact finish_finishedOrGoesOn ..
  | recv fcmd retries =>
    rcases execRecv_next h with ⟨j, -, rfl⟩ | ⟨j, a, -, h⟩
    · exact .inr ⟨nofun, rfl, rfl, rfl⟩
    · rcases receiveChunk_next h with ⟨e, -, h⟩ | ⟨chunk, -, -, -, h | ⟨-, rfl⟩⟩
      · cases h; exact finish_finishedOrGoesOn ..
      · cases h; exact finish_finishedOrGoesOn ..
      · exact .inr ⟨nofun, rfl, rfl, rfl⟩
  | decode fcmd retries =>
    obtain ⟨j, -, h⟩ := execDecode_next h
    rcases decodeVerify_next h with ⟨-, h⟩ | ⟨-, -, h⟩ <;> cases h <;> exact finish_finishedOrGoesOn ..
  | recvx fcmd retries =>
    rcases execRecvx_next h with ⟨j, -, -, rfl⟩ | ⟨j, -, -, rfl⟩ | ⟨j, a, -, h⟩
    · exact finish_finishedOrGoesOn ..
    · exact .inr ⟨nofun, rfl, rfl, rfl⟩
    · exact attemptsResume_finishedOrGoesOn h
  | exchange fcmd retries =>
    rcases execExchange_next h with ⟨j, -, -, rfl⟩ | ⟨j, -, -, rfl⟩ | ⟨j, -, rfl⟩ | ⟨j, -, h⟩ | ⟨j, a, -, h⟩
    · exact finish_finishedOrGoesOn ..
    · exact .inr ⟨nofun, rfl, rfl, rfl⟩
    · exact finish_finishedOrGoesOn ..
    · exact attemptsBegin_finishedOrGoesOn h
    · exact attemptsResume_finishedOrGoesOn h
  | probe fcmd retries =>
    rcases execProbe_next h with ⟨j, -, -, rfl⟩ | ⟨j, -, -, rfl⟩ | ⟨j, -, rfl⟩ | ⟨j, -, h⟩ | ⟨j, a, -, h⟩
    · exact finish_finishedOrGoesOn ..
    · exact .inr ⟨nofun, rfl, rfl, rfl⟩
    · exact finish_finishedOrGoesOn ..
    · exact attemptsBegin_finishedOrGoesOn h
    · exact attemptsResume_finishedOrGoesOn h

/-- Settles O7: it holds, operation by operation (`exec_finishedOrGoesOn`). -/
theorem operationsEndByFinish : Obligations.OperationsEndByFinish := by
  intro i s t h
  rcases exec_finishedOrGoesOn h with ⟨he, hend⟩ | ⟨he, hkept⟩
  · exact ⟨fun _ => hend, fun hne => absurd he hne⟩
  · exact ⟨fun hidle => absurd hidle he, fun _ => hkept⟩

end Sys2Proof.Machine

/-! SUPPORT. The sending side of the exchange sequencer: the logical frame that `build` leaves in TXF, the wire form that
`send` leaves in TXW, and BUILD, SEND and EXCHANGE at the points around them (R155 to R158, R172). -/

namespace Sys2Proof.Machine

/-! ## Spans of BUF -/

/-- A span that was just written reads as the bytes written. -/
theorem bytesAt_of_writeSpan {s t : State} {off : Nat} {bs : List Byte} (hbuf : t.buf = s.buf.writeSpan off bs) :
    t.bytesAt off bs.length = bs := by
  rw [State.bytesAt, hbuf]
  exact Memory.readSpan_writeSpan ..

/-- A span reads the same in two states that agree on its bytes. -/
theorem State.bytesAt_congr {s t : State} {off n : Nat} (h : ∀ a, off ≤ a → a < off + n → t.byteAt a = s.byteAt a) :
    t.bytesAt off n = s.bytesAt off n :=
  Memory.readSpan_congr _ _ _ _ _ _ _ fun i hi => h (off + i) (by omega) (by omega)

theorem State.bytesAt_append (s : State) (off n k : Nat) :
    s.bytesAt off (n + k) = s.bytesAt off n ++ s.bytesAt (off + n) k := Memory.readSpan_append ..

/-! ## The built frame -/

/-- The payload that BUILD finds in TXF (R44, R155). -/
def State.txPayload (s : State) : List Byte := s.bytesAt 5 s.regs.plen.toNat

@[simp] theorem State.length_txPayload (s : State) : s.txPayload.length = s.regs.plen.toNat := State.length_bytesAt ..

/-- The logical frame of the command and the payload that stands in TXF (R155). -/
def txFrame (cmd : Byte) (j : Job) (s : State) : List Byte := logicalFrame s.env.crcTable j.m j.le cmd s.txPayload

/-- PLEN is the length field of the frame (R91, R155). -/
theorem State.ofNat_length_txPayload (s : State) : BitVec.ofNat 16 s.txPayload.length = s.regs.plen := by
  rw [State.length_txPayload, BitVec.ofNat_toNat, BitVec.setWidth_eq]

/-- The bytes that `build` computes its checksum over are the checksummed region of the frame (R93, R155). -/
theorem builtRegion_eq (cmd : Byte) (s : State) : builtRegion cmd s.regs.plen s = frameRegion cmd s.txPayload := by
  rw [frameRegion, State.ofNat_length_txPayload]
  rfl

/-- The frame in the parts that `build` writes or finds (R90, R155). -/
theorem txFrame_eq (cmd : Byte) (j : Job) (s : State) :
    txFrame cmd j s = frameHead cmd s.regs.plen ++ s.txPayload ++
      frameTail (checksum s.env.crcTable j.m j.le (builtRegion cmd s.regs.plen s)) := by
  rw [txFrame, logicalFrame, State.ofNat_length_txPayload]
  rfl

/-- The checksum that `build` writes to RESULT is that of the frame's region (R41, R93). -/
theorem builtState_result (cmd : Byte) (j : Job) (s : State) :
    (builtState cmd j s).regs.result =
      checksum s.env.crcTable j.m j.le (slice (txFrame cmd j s) 1 (s.regs.plen.toNat + 5)) := by
  have hslice := slice_logicalFrame_region s.env.crcTable j.m j.le cmd s.txPayload
  rw [State.length_txPayload] at hslice
  rw [txFrame, hslice, ← builtRegion_eq]
  rfl

/-- Behind the bytes of the frame `build` writes nothing (R155). -/
theorem builtState_byteAt_behind (cmd : Byte) (j : Job) (s : State) {a : Nat} (ha : s.regs.plen.toNat + 8 ≤ a) :
    (builtState cmd j s).byteAt a = s.byteAt a :=
  builtState_byteAt cmd j s (by unfold InTxf; omega)

/-- TXF holds the logical frame: its head, the payload that stood there, and its tail (R90, R155). -/
theorem builtState_bytesAt (cmd : Byte) (j : Job) (s : State) :
    (builtState cmd j s).bytesAt 0 (s.regs.plen.toNat + 8) = txFrame cmd j s := by
  have hbase : Config.txfBase = 0 := rfl
  have hhead : (builtState cmd j s).bytesAt 0 5 = frameHead cmd s.regs.plen := by
    refine (Memory.readSpan_writeSpan_outside _ _ _ _ _ _ (.inl ?_)).trans (Memory.readSpan_writeSpan ..)
    rw [hbase]; omega
  have hpayload : (builtState cmd j s).bytesAt 5 s.regs.plen.toNat = s.txPayload :=
    State.bytesAt_congr fun a h5 hn => builtState_byteAt cmd j s (by unfold InTxf; omega)
  have htail : (builtState cmd j s).bytesAt (5 + s.regs.plen.toNat) 3 =
      frameTail (checksum s.env.crcTable j.m j.le (builtRegion cmd s.regs.plen s)) :=
    Memory.readSpan_writeSpan ..
  rw [show s.regs.plen.toNat + 8 = 5 + s.regs.plen.toNat + 3 by omega, State.bytesAt_append, State.bytesAt_append,
    hhead, Nat.zero_add, hpayload, Nat.zero_add, htail, txFrame_eq]

theorem execBuild_of_start {fcmd retries : Byte} {s : State} {j : Job} (he : s.eng = .run j .start) :
    exec (.build fcmd retries) s = .next (finish .none (builtState fcmd j s)) := by
  simp only [exec, execBuild, atStart_of_eng _ he, build_eq, andThen_next, finishWith_eq, builtState]

/-- Settles O27: it holds, for every PLEN; the frame is read off its three parts (`builtState_bytesAt`). -/
theorem buildResult : Obligations.BuildResult := by
  intro fcmd retries s j he n f
  refine ⟨_, execBuild_of_start he, rfl, rfl, ?_, builtState_bytesAt fcmd j s, fun a =>
    builtState_byteAt_behind fcmd j s⟩
  rw [show f = txFrame fcmd j s from rfl, ← builtState_result]
  rfl

/-! ## The wire form -/

/-- The wire form of the frame in TXF (R157). -/
def txWire (s : State) : List Byte := stuff (s.bytesAt 0 s.regs.txfLen.toNat)

theorem length_txWire_lt (s : State) : (txWire s).length < 2 ^ 18 := by
  have hlen := length_stuff_le (s.bytesAt 0 s.regs.txfLen.toNat)
  have hlt := s.regs.txfLen.isLt
  rw [State.length_bytesAt] at hlen
  rw [txWire]
  split at hlen <;> omega

/-- TXW_LEN can hold the length of every wire form (R45). -/
theorem sentState_txwLen (j : Job) (s : State) : (sentState j s).regs.txwLen.toNat = (txWire s).length :=
  Nat.mod_eq_of_lt (length_txWire_lt s)

theorem sentState_bytesAt (j : Job) (s : State) : (sentState j s).bytesAt 0x40000 (txWire s).length = txWire s :=
  bytesAt_of_writeSpan (s := s) rfl

/-- `send` writes the wire form's own bytes and no other. -/
theorem sentState_byteAt_outside (j : Job) (s : State) {a : Nat}
    (ha : a < 0x40000 ∨ 0x40000 + (txWire s).length ≤ a) : (sentState j s).byteAt a = s.byteAt a := by
  refine byteAt_of_writeSpan (bs := txWire s) rfl rfl ?_
  have hbase : Config.txwBase = 0x40000 := rfl
  omega

/-! ## SEND -/

theorem execSend_of_no_frame {fcmd retries : Byte} {s : State} {j : Job} (he : s.eng = .run j .start)
    (h : s.regs.txfLen = 0) : exec (.send fcmd retries) s = .next (finish .param s) := by
  simp only [exec, execSend, he, if_pos h, finishWith_eq]

theorem execSend_of_frame {fcmd retries : Byte} {s : State} {j : Job} (he : s.eng = .run j .start)
    (h : s.regs.txfLen ≠ 0) : exec (.send fcmd retries) s = .next (sentState j s) := by
  simp only [exec, execSend, he, if_neg h, sendFrame_eq, sentState]

theorem execSend_of_answer {fcmd retries : Byte} {s : State} {j : Job} {a : WriteAnswer}
    (he : s.eng = .run j (.wrote a)) : exec (.send fcmd retries) s = .next (finish a.errCode s) := by
  simp only [exec, execSend, he, finishWith_eq]

/-- Settles O28: it holds, point by point. -/
theorem sendResult : Obligations.SendResult := by
  intro fcmd retries s j w
  refine ⟨execSend_of_no_frame, fun he hframe => ?_, execSend_of_answer, execSend_of_answer⟩
  exact ⟨_, execSend_of_frame he hframe, rfl, rfl, rfl, sentState_txwLen j s, sentState_bytesAt j s, fun a =>
    sentState_byteAt_outside j s⟩

/-! ## EXCHANGE -/

/-- TXF_LEN can hold the length of every built frame (R45, R94). -/
theorem builtState_txfLen (cmd : Byte) (j : Job) (s : State) :
    (builtState cmd j s).regs.txfLen.toNat = s.regs.plen.toNat + 8 := by
  have hn := s.regs.plen.isLt
  exact Nat.mod_eq_of_lt (by omega)

/-- What EXCHANGE hands to the port is the wire form of the frame that it has just built (R155, R157). -/
theorem txWire_builtState (cmd : Byte) (j : Job) (s : State) :
    txWire (builtState cmd j s) = stuff (txFrame cmd j s) := by
  rw [txWire, builtState_txfLen, builtState_bytesAt]

theorem execExchange_of_start_zero {fcmd : Byte} {s : State} {j : Job} (he : s.eng = .run j .start) :
    exec (.exchange fcmd 0) s = .next (finish .param s) := by
  simp [exec, execExchange, he]

theorem execExchange_of_start {fcmd retries : Byte} {s : State} {j : Job} (he : s.eng = .run j .start)
    (h : retries ≠ 0) : exec (.exchange fcmd retries) s = .next (sentState j (builtState fcmd j s)) := by
  simp only [exec, execExchange, he, if_neg h, build_eq, andThen_next, sendFrame_eq]
  rfl

theorem execExchange_of_refused {fcmd retries : Byte} {s : State} {j : Job} (he : s.eng = .run j (.wrote .err)) :
    exec (.exchange fcmd retries) s = .next (finish .transport s) := by
  simp [exec, execExchange, he, WriteAnswer.errCode]

theorem execExchange_of_taken {fcmd retries : Byte} {s : State} {j : Job} (he : s.eng = .run j (.wrote .ok))
    (h : retries ≠ 0) : exec (.exchange fcmd retries) s = .next (firstAttempt j s) := by
  simp [exec, execExchange, he, WriteAnswer.errCode, attemptsBegin_eq _ _ _ h]

/-- Sending a built frame leaves the frame in TXF: TXW begins behind the longest frame (R50, R94). -/
theorem sentState_builtState_bytesAt (cmd : Byte) (j : Job) (s : State) :
    (sentState j (builtState cmd j s)).bytesAt 0 (s.regs.plen.toNat + 8) = txFrame cmd j s := by
  have hn := s.regs.plen.isLt
  rw [← builtState_bytesAt]
  exact State.bytesAt_congr fun a _ ha => sentState_byteAt_outside j _ (.inl (by omega))

/-- Settles O32: it holds, point by point; at the start it is BUILD and then SEND. -/
theorem exchangeStart : Obligations.ExchangeStart := by
  intro fcmd retries s j n f
  refine ⟨fun he h0 => ?_, fun he h0 => ?_, execExchange_of_refused, fun he h0 => execExchange_of_taken he h0⟩
  · subst h0; exact execExchange_of_start_zero he
  · have hwire : txWire (builtState fcmd j s) = stuff f := txWire_builtState fcmd j s
    have hresult : (builtState fcmd j s).regs.result = checksum s.env.crcTable j.m j.le (slice f 1 (n + 5)) :=
      builtState_result fcmd j s
    have hlen := sentState_txwLen j (builtState fcmd j s)
    have hbytes := sentState_bytesAt j (builtState fcmd j s)
    rw [hwire] at hlen hbytes
    refine ⟨_, execExchange_of_start he h0, congrArg (Engine.waitWrite · j) hwire, rfl, ?_, hlen,
      sentState_builtState_bytesAt fcmd j s, hbytes, fun a htxf htxw => ?_⟩
    · rw [← hresult]; rfl
    · rw [← hwire] at htxw
      exact (sentState_byteAt_outside j _ htxw).trans (builtState_byteAt_behind fcmd j s htxf)

end Sys2Proof.Machine

/-! SUPPORT. The receiving side of the exchange sequencer: what an answer to a read makes of RXW, and RECV, RECVX, EXCHANGE
and PROBE behind it (R160 to R163, R170, R171, R176). -/

namespace Sys2Proof.Machine

/-! ## The stored chunk -/

theorem State.storeChunk_rxwLen {s : State} {chunk : List Byte}
    (hfit : s.regs.rxwLen.toNat + chunk.length ≤ Config.regionSize) :
    (s.storeChunk chunk).regs.rxwLen.toNat = s.regs.rxwLen.toNat + chunk.length := by
  have hregion : Config.regionSize < 2 ^ 19 := by decide
  exact Nat.mod_eq_of_lt (by omega)

theorem State.storeChunk_bytesAt (s : State) (chunk : List Byte) :
    (s.storeChunk chunk).bytesAt (Config.rxwBase + s.regs.rxwLen.toNat) chunk.length = chunk :=
  bytesAt_of_writeSpan (s := s) rfl

/-- Storing a chunk writes the chunk's own bytes and no other. -/
theorem State.storeChunk_byteAt_outside (s : State) (chunk : List Byte) {a : Nat}
    (ha : a < Config.rxwBase + s.regs.rxwLen.toNat ∨ Config.rxwBase + s.regs.rxwLen.toNat + chunk.length ≤ a) :
    (s.storeChunk chunk).byteAt a = s.byteAt a :=
  byteAt_of_writeSpan (bs := chunk) rfl rfl (by omega)

@[simp] theorem State.length_received (s : State) : s.received.length = s.regs.rxwLen.toNat := State.length_bytesAt ..

/-- A stored chunk stands behind the bytes received before it (R160). -/
theorem State.received_storeChunk {s : State} {chunk : List Byte}
    (hfit : s.regs.rxwLen.toNat + chunk.length ≤ Config.regionSize) :
    (s.storeChunk chunk).received = s.received ++ chunk := by
  rw [State.received, State.storeChunk_rxwLen hfit, State.bytesAt_append, State.storeChunk_bytesAt]
  exact congrArg (· ++ chunk) (State.bytesAt_congr fun a _ ha => State.storeChunk_byteAt_outside s chunk (.inl ha))

/-! ## What the answer to a read does -/

/-- The answers that end a receive with an error, and the error (R161, R162, R265). -/
inductive ReadFails (s : State) : ReadAnswer → ErrCode → Prop where
  | err : ReadFails s .err .transport
  | empty : ReadFails s (.ok []) .transport
  | overflow (chunk : List Byte) (hne : chunk ≠ [])
      (hpast : Config.regionSize < s.regs.rxwLen.toNat + chunk.length) : ReadFails s (.ok chunk) .rxOverflow

theorem ReadFails.ne_none {s : State} {a : ReadAnswer} {e : ErrCode} (h : ReadFails s a e) : e ≠ .none := by
  cases h <;> nofun

theorem receiveChunk_of_fails {s : State} {a : ReadAnswer} {e : ErrCode} (h : ReadFails s a e) (j : Job)
    (k : ErrCode → State → Result) : receiveChunk a j s k = k e s := by
  rw [receiveChunk_eq]
  cases h with
  | err => rfl
  | empty => rfl
  | overflow chunk hne hpast => exact (dif_neg hne).trans (if_pos hpast)

/-- A chunk that fits and ends in 0x7D is stored, and another one is requested (R160). -/
theorem receiveChunk_of_more {s : State} {chunk : List Byte} (hlast : chunk.getLast? = some 0x7D)
    (hfit : s.regs.rxwLen.toNat + chunk.length ≤ Config.regionSize) (j : Job) (k : ErrCode → State → Result) :
    receiveChunk (.ok chunk) j s k = .next ((s.storeChunk chunk).setEng (.waitRead s.env.rxChunkMax j)) := by
  obtain ⟨hne, hbyte⟩ := List.mem_getLast?_eq_getLast hlast
  rw [receiveChunk_eq]
  exact (dif_neg hne).trans ((if_neg (Nat.not_lt.2 hfit)).trans (if_neg (not_not.2 hbyte.symm)))

/-- Any other chunk that fits is stored and ends the receive (R160). -/
theorem receiveChunk_of_last {s : State} {chunk : List Byte} (hne : chunk ≠ []) (hlast : chunk.getLast? ≠ some 0x7D)
    (hfit : s.regs.rxwLen.toNat + chunk.length ≤ Config.regionSize) (j : Job) (k : ErrCode → State → Result) :
    receiveChunk (.ok chunk) j s k = k .none (s.storeChunk chunk) := by
  rw [List.getLast?_eq_some_getLast hne, Ne, Option.some_inj] at hlast
  rw [receiveChunk_eq]
  exact (dif_neg hne).trans ((if_neg (Nat.not_lt.2 hfit)).trans (if_pos hlast))

/-! ## RECV -/

theorem execRecv_of_start {fcmd retries : Byte} {s : State} {j : Job} (he : s.eng = .run j .start) :
    exec (.recv fcmd retries) s =
      .next (((s.setAttempts 1).setRxwLen 0).setEng (.waitRead s.env.rxChunkMax j)) := by
  simp only [exec, execRecv, he, receiveBegin, portRead_eq]
  rfl

theorem execRecv_of_got {fcmd retries : Byte} {s : State} {j : Job} {a : ReadAnswer} (he : s.eng = .run j (.got a)) :
    exec (.recv fcmd retries) s = receiveChunk a j s finishWith := by
  simp only [exec, execRecv, he]

theorem execRecv_of_fails {fcmd retries : Byte} {s : State} {j : Job} {a : ReadAnswer} {e : ErrCode}
    (he : s.eng = .run j (.got a)) (h : ReadFails s a e) : exec (.recv fcmd retries) s = .next (finish e s) :=
  (execRecv_of_got he).trans (receiveChunk_of_fails h j finishWith)

theorem execRecv_of_more {fcmd retries : Byte} {s : State} {j : Job} {chunk : List Byte}
    (he : s.eng = .run j (.got (.ok chunk))) (hlast : chunk.getLast? = some 0x7D)
    (hfit : s.regs.rxwLen.toNat + chunk.length ≤ Config.regionSize) :
    exec (.recv fcmd retries) s = .next ((s.storeChunk chunk).setEng (.waitRead s.env.rxChunkMax j)) :=
  (execRecv_of_got he).trans (receiveChunk_of_more hlast hfit j finishWith)

theorem execRecv_of_last {fcmd retries : Byte} {s : State} {j : Job} {chunk : List Byte}
    (he : s.eng = .run j (.got (.ok chunk))) (hne : chunk ≠ []) (hlast : chunk.getLast? ≠ some 0x7D)
    (hfit : s.regs.rxwLen.toNat + chunk.length ≤ Config.regionSize) :
    exec (.recv fcmd retries) s = .next (finish .none (s.storeChunk chunk)) :=
  (execRecv_of_got he).trans (receiveChunk_of_last hne hlast hfit j finishWith)

/-- Settles O29: it holds; a chunk is stored alike whether it ends the receive or not. -/
theorem recvResult : Obligations.RecvResult := by
  intro fcmd retries s j
  refine ⟨execRecv_of_start, ?_, fun chunk he hne hpast => execRecv_of_fails he (.overflow chunk hne hpast),
    fun chunk he hne hfit => ?_⟩
  · rintro (he | he)
    · exact execRecv_of_fails he .err
    · exact execRecv_of_fails he .empty
  · have hlen := State.storeChunk_rxwLen hfit
    have hbytes := State.storeChunk_bytesAt s chunk
    have hkept := fun a => State.storeChunk_byteAt_outside s chunk (a := a)
    by_cases hlast : chunk.getLast? = some 0x7D
    · exact ⟨_, execRecv_of_more he hlast hfit, rfl, hlen, hbytes, hkept, fun _ => ⟨rfl, rfl⟩,
        fun h => absurd hlast h⟩
    · exact ⟨_, execRecv_of_last he hne hlast hfit, rfl, hlen, hbytes, hkept, fun h => absurd h hlast,
        fun _ => ⟨rfl, rfl⟩⟩

/-! ## Receive attempts -/

theorem execRecvx_of_start_zero {fcmd : Byte} {s : State} {j : Job} (he : s.eng = .run j .start) :
    exec (.recvx fcmd 0) s = .next (finish .param s) := by
  simp [exec, execRecvx, he]

theorem execRecvx_of_start {fcmd retries : Byte} {s : State} {j : Job} (he : s.eng = .run j .start)
    (h : retries ≠ 0) : exec (.recvx fcmd retries) s = .next (firstAttempt j s) := by
  simp only [exec, execRecvx, he, if_neg h, attemptsBegin_eq _ _ _ h]

/-- Settles O31: it holds. -/
theorem recvxStart : Obligations.RecvxStart := by
  intro fcmd retries s j he
  refine ⟨fun h0 => ?_, execRecvx_of_start he⟩
  subst h0; exact execRecvx_of_start_zero he

/-- RECVX, EXCHANGE and PROBE do the same behind a read (R170). -/
theorem exec_of_got_of_attempts {fcmd retries : Byte} {i : Instr} (hi : i ∈ attemptInstrs fcmd retries) {s : State}
    {j : Job} {a : ReadAnswer} (he : s.eng = .run j (.got a)) : exec i s = attemptsResume retries a j s := by
  simp only [attemptInstrs, List.mem_cons, List.not_mem_nil, or_false] at hi
  rcases hi with rfl | rfl | rfl
  · simp only [exec, execRecvx, he]
  · simp only [exec, execExchange, he]
  · simp only [exec, execProbe, he]

/-- Settles O34: it holds; an attempt that reads on is as RECV's receive. -/
theorem attemptReadsOn : Obligations.AttemptReadsOn := by
  intro fcmd retries i s j chunk hi he hlast hfit
  refine ⟨_, (exec_of_got_of_attempts hi he).trans (receiveChunk_of_more hlast hfit j _), rfl, rfl, rfl,
    State.storeChunk_rxwLen hfit, State.storeChunk_bytesAt s chunk, fun a => State.storeChunk_byteAt_outside s chunk⟩

/-- The state in which the attempt behind one that ended with `e` waits for the port (R170). -/
def nextAttempt (j : Job) (e : ErrCode) (s : State) : State :=
  ((s.setAttempts (j.k + 1)).setRxwLen 0).setEng (.waitRead s.env.rxChunkMax { j with k := j.k + 1, lasterr := e })

theorem attemptResult_of_left {n : Byte} {j : Job} {e : ErrCode} (he : e ≠ .none) (hk : j.k < n) (s : State) :
    attemptResult n j e s = .next (nextAttempt j e s) := by
  rw [attemptResult_error n j e s he, attemptNext_eq, if_pos hk]
  rfl

theorem attemptResult_of_spent {n : Byte} {j : Job} {e : ErrCode} (he : e ≠ .none) (hk : ¬ j.k < n) (s : State) :
    attemptResult n j e s = .next (finish e s) := by
  rw [attemptResult_error n j e s he, attemptNext_eq, if_neg hk]

theorem attemptsResume_of_fails {s : State} {a : ReadAnswer} {e : ErrCode} (h : ReadFails s a e) (n : Byte) (j : Job) :
    attemptsResume n a j s = attemptResult n j e s :=
  (receiveChunk_of_fails h j _).trans (if_neg h.ne_none)

/-- Settles O35: it holds; the failed read is the end of its attempt. -/
theorem failedReadIsRetried : Obligations.FailedReadIsRetried := by
  intro fcmd retries i s j a e hi he hfail
  have hfails : ReadFails s a e := by
    rcases hfail with ⟨rfl | rfl, rfl⟩ | ⟨chunk, rfl, hne, hpast, rfl⟩
    · exact .err
    · exact .empty
    · exact .overflow chunk hne hpast
  have hexec : exec i s = attemptResult retries j e s :=
    (exec_of_got_of_attempts hi he).trans (attemptsResume_of_fails hfails retries j)
  exact ⟨fun hk => hexec.trans (attemptResult_of_left hfails.ne_none hk s),
    fun hk => hexec.trans (attemptResult_of_spent hfails.ne_none hk s)⟩

end Sys2Proof.Machine

/-! SUPPORT. The verifying part of the exchange sequencer: the outcome of a frame's checks, what `decode_verify` leaves in RXF
and in the result registers, DECODE, and a whole receive of the attempts operations (R165 to R170). -/

namespace Sys2Proof.Machine

/-! ## The checks of a frame -/

/-- The first check of R166 fails: the frame is empty or does not have its two delimiters. -/
def BadDelimiters (f : List Byte) : Prop :=
  f.length = 0 ∨ byteOf f 0 ≠ Config.delimiter ∨ byteOf f (f.length - 1) ≠ Config.delimiter

/-- The checksum that `verify` computes (R165). -/
def computedChecksum (table : CrcTable) (m : ChecksumMode) (le : Bool) (f : List Byte) : Half :=
  checksum table m le (slice f 1 (f.length - 3))

section Checks
variable {table : CrcTable} {m : ChecksumMode} {le : Bool} {f : List Byte}

theorem frameError_of_badDelimiters (h : BadDelimiters f) : frameError table m le f = .badDelimiter := if_pos h

theorem frameError_of_short (h : ¬ BadDelimiters f) (hlen : f.length < 8) : frameError table m le f = .shortFrame :=
  (if_neg h).trans (if_pos hlen)

theorem frameError_of_mismatch (h : ¬ BadDelimiters f) (hlen : 8 ≤ f.length)
    (hc : computedChecksum table m le f ≠ storedChecksum f) : frameError table m le f = .checksumMismatch :=
  (if_neg h).trans ((if_neg (Nat.not_lt.2 hlen)).trans (if_pos hc))

theorem frameError_of_match (h : ¬ BadDelimiters f) (hlen : 8 ≤ f.length)
    (hc : computedChecksum table m le f = storedChecksum f) : frameError table m le f = .none :=
  (if_neg h).trans ((if_neg (Nat.not_lt.2 hlen)).trans (if_neg (not_not.2 hc)))

/-- A frame that passes every check has the checksum that it stores (R165). -/
theorem storedChecksum_of_frameError_none (h : frameError table m le f = .none) :
    storedChecksum f = computedChecksum table m le f := by
  by_contra hne
  unfold frameError at h
  split at h
  · cases h
  · split at h
    · cases h
    · exact absurd ((if_pos (Ne.symm hne)).symm.trans h) nofun

end Checks

section Verified
variable {m : ChecksumMode} {le : Bool} {f : List Byte} {s : State}

/-- Only the checks behind the comparison write anything (R166). -/
theorem verified_of_early_error {e : ErrCode} (h : frameError s.env.crcTable m le f = e) (h0 : e ≠ .none)
    (h1 : e ≠ .checksumMismatch) : verified m le f s = s := by
  unfold verified
  split
  · next hn => exact absurd (h.symm.trans hn) h0
  · next hc => exact absurd (h.symm.trans hc) h1
  · rfl

theorem verified_of_mismatch (h : frameError s.env.crcTable m le f = .checksumMismatch) :
    verified m le f s = s.setResult (computedChecksum s.env.crcTable m le f) := by
  unfold verified
  rw [h]
  rfl

theorem verified_of_match (h : frameError s.env.crcTable m le f = .none) :
    verified m le f s = (s.setResult (computedChecksum s.env.crcTable m le f)).setResponse (respOf f)
      (computedChecksum s.env.crcTable m le f) (f.length - 8) := by
  rw [← storedChecksum_of_frameError_none h]
  unfold verified
  rw [h, storedChecksum_of_frameError_none h]
  rfl

end Verified

/-- RESP as the shifted fields of a verified frame (R47). -/
theorem respOf_eq (f : List Byte) :
    respOf f = (be16 (byteOf f 3) (byteOf f 4)).setWidth 32 <<< 16 ||| (byteOf f 1).setWidth 32 <<< 8 |||
      (byteOf f 2).setWidth 32 := by
  apply BitVec.eq_of_getLsbD_eq
  intro i hi
  rw [getLsbD_respOf]
  simp only [BitVec.getLsbD_or, BitVec.getLsbD_shiftLeft, BitVec.getLsbD_setWidth]
  by_cases h8 : i < 8
  · simp [h8, hi, show i < 16 by omega]
  · have hcmd : (byteOf f 2).getLsbD i = false := BitVec.getLsbD_of_ge _ _ (by omega)
    by_cases h16 : i - 8 < 8
    · simp [h8, h16, hi, hcmd, show i < 16 by omega, show i - 8 < 32 by omega]
    · have hrsvd : (byteOf f 1).getLsbD (i - 8) = false := BitVec.getLsbD_of_ge _ _ (by omega)
      simp [h8, h16, hi, hcmd, hrsvd, show ¬ i < 16 by omega, show i - 16 < 32 by omega, Nat.sub_sub]

/-! ## What decoding leaves -/

/-- The frame that the received bytes stand for, up to the first escape error (R133, R165). -/
def State.rxFrame (s : State) : List Byte := (unstuff s.received).1

/-- The outcome of `decode_verify`: an escape error, or that of the frame's checks (R165, R166). -/
def decodeError (j : Job) (s : State) : ErrCode :=
  if (unstuff s.received).2 ≠ .none then (unstuff s.received).2 else frameError s.env.crcTable j.m j.le s.rxFrame

/-- The state behind `decode_verify` (R165). -/
def decodedState (j : Job) (s : State) : State :=
  if (unstuff s.received).2 ≠ .none then s.setRxfLen 0 else verified j.m j.le s.rxFrame (unstuffedState s)

theorem decodeVerify_eq_decoded {s : State} (h : s.regs.rxwLen.toNat ≤ Config.regionSize) (j : Job)
    (k : ErrCode → State → Result) : decodeVerify j.m j.le s k = k (decodeError j s) (decodedState j s) := by
  rw [decodeVerify_eq j.m j.le s k h, decodeError, decodedState]
  by_cases he : (unstuff s.received).2 ≠ .none
  · rw [if_pos he, if_pos he]
    exact if_pos he
  · rw [if_neg he, if_neg he]
    exact if_neg he

section Outcomes
variable {s : State} (j : Job)

theorem decodeError_of_escape (h : (unstuff s.received).2 ≠ .none) : decodeError j s = (unstuff s.received).2 := if_pos h

theorem decodedState_of_escape (h : (unstuff s.received).2 ≠ .none) : decodedState j s = s.setRxfLen 0 := if_pos h

theorem decodeError_of_unstuffed (h : (unstuff s.received).2 = .none) :
    decodeError j s = frameError s.env.crcTable j.m j.le s.rxFrame := if_neg (not_not.2 h)

theorem decodedState_of_unstuffed (h : (unstuff s.received).2 = .none) :
    decodedState j s = verified j.m j.le s.rxFrame (unstuffedState s) := if_neg (not_not.2 h)

/-- BAD_DELIMITER and SHORT_FRAME come before the comparison (R166). -/
theorem decoded_of_early_error (h : (unstuff s.received).2 = .none) {e : ErrCode}
    (he : frameError s.env.crcTable j.m j.le s.rxFrame = e) (h0 : e ≠ .none) (h1 : e ≠ .checksumMismatch) :
    decodeError j s = e ∧ decodedState j s = unstuffedState s :=
  ⟨(decodeError_of_unstuffed j h).trans he,
    (decodedState_of_unstuffed j h).trans (verified_of_early_error (s := unstuffedState s) he h0 h1)⟩

/-- A comparison that fails leaves the computed checksum in RESULT (R41, R165). -/
theorem decoded_of_mismatch (h : (unstuff s.received).2 = .none)
    (he : frameError s.env.crcTable j.m j.le s.rxFrame = .checksumMismatch) :
    decodeError j s = .checksumMismatch ∧
      decodedState j s = (unstuffedState s).setResult (computedChecksum s.env.crcTable j.m j.le s.rxFrame) :=
  ⟨(decodeError_of_unstuffed j h).trans he,
    (decodedState_of_unstuffed j h).trans (verified_of_mismatch (s := unstuffedState s) he)⟩

/-- A frame that passes every check is the response (R165). -/
theorem decoded_of_match (h : (unstuff s.received).2 = .none)
    (he : frameError s.env.crcTable j.m j.le s.rxFrame = .none) :
    decodeError j s = .none ∧
      decodedState j s =
        ((unstuffedState s).setResult (computedChecksum s.env.crcTable j.m j.le s.rxFrame)).setResponse
          (respOf s.rxFrame) (computedChecksum s.env.crcTable j.m j.le s.rxFrame) (s.rxFrame.length - 8) :=
  ⟨(decodeError_of_unstuffed j h).trans he,
    (decodedState_of_unstuffed j h).trans (verified_of_match (s := unstuffedState s) he)⟩

end Outcomes

theorem State.length_rxFrame_le (s : State) : s.rxFrame.length ≤ s.regs.rxwLen.toNat :=
  (length_unstuff_le s.received).trans_eq s.length_received

/-- Decoding leaves the outside world alone. -/
theorem decodedState_env (j : Job) (s : State) : (decodedState j s).env = s.env := by
  unfold decodedState
  split
  · rfl
  · obtain ⟨-, henv, -⟩ := verified_keeps j.m j.le s.rxFrame (unstuffedState s)
    exact henv

/-- RXF_LEN is the length of the unstuffed frame (R46). -/
theorem decodedState_rxfLen {s : State} (j : Job) (h : (unstuff s.received).2 = .none) :
    (decodedState j s).regs.rxfLen.toNat = s.rxFrame.length := by
  have hlt : s.rxFrame.length < 2 ^ 19 := s.length_rxFrame_le.trans_lt s.regs.rxwLen.isLt
  obtain ⟨-, -, -, _, _, _, _, _, hregs, -⟩ := verified_keeps j.m j.le s.rxFrame (unstuffedState s)
  rw [decodedState_of_unstuffed j h, hregs]
  exact Nat.mod_eq_of_lt hlt

/-- RXF holds the unstuffed frame (R165). -/
theorem decodedState_bytesAt {s : State} (j : Job) (h : (unstuff s.received).2 = .none) :
    (decodedState j s).bytesAt 0xC0000 s.rxFrame.length = s.rxFrame := by
  rw [decodedState_of_unstuffed j h]
  exact (State.bytesAt_congr fun a _ _ => verified_byteAt ..).trans (bytesAt_of_writeSpan (s := s) rfl)

/-- Decoding writes the bytes of the unstuffed frame, if there is one, and no other (R165). -/
theorem decodedState_byteAt (j : Job) (s : State) {a : Nat}
    (ha : a < 0xC0000 ∨ 0xC0000 + (if (unstuff s.received).2 = .none then s.rxFrame.length else 0) ≤ a) :
    (decodedState j s).byteAt a = s.byteAt a := by
  by_cases h : (unstuff s.received).2 = .none
  · rw [if_pos h] at ha
    rw [decodedState_of_unstuffed j h, verified_byteAt]
    refine byteAt_of_writeSpan (bs := s.rxFrame) rfl rfl ?_
    have hbase : Config.rxfBase = 0xC0000 := rfl
    omega
  · rw [decodedState_of_escape j h]
    rfl

/-! ## DECODE -/

theorem execDecode_of_start {fcmd retries : Byte} {s : State} {j : Job} (he : s.eng = .run j .start)
    (h : s.regs.rxwLen.toNat ≤ Config.regionSize) :
    exec (.decode fcmd retries) s = .next (finish (decodeError j s) (decodedState j s)) := by
  simp only [exec, execDecode, atStart_of_eng _ he, decodeVerify_eq_decoded h j finishWith, finishWith_eq]

/-- Settles O30: it holds, check by check. -/
theorem decodeResult : Obligations.DecodeResult := by
  intro fcmd retries s j he hlen f e c
  have hexec := execDecode_of_start (fcmd := fcmd) (retries := retries) he hlen
  refine ⟨fun hesc => ?_, fun hunst => ?_⟩
  · rw [decodeError_of_escape j hesc, decodedState_of_escape j hesc] at hexec
    exact hexec
  · have hunst : (unstuff s.received).2 = .none := hunst
    have hbytes := decodedState_bytesAt j hunst
    have hkept : ∀ a, (a < 0xC0000 ∨ 0xC0000 + s.rxFrame.length ≤ a) → (decodedState j s).byteAt a = s.byteAt a :=
      fun a ha => decodedState_byteAt j s (by rwa [if_pos hunst])
    have hrxf := decodedState_rxfLen j hunst
    refine ⟨_, hexec, rfl, decodedState_env j s, hbytes, hkept, hrxf, fun hbad => ?_, fun hgood h8 => ?_,
      fun hgood h8 hc => ?_, fun hgood h8 hc => ?_⟩
    · obtain ⟨herr, hstate⟩ := decoded_of_early_error j hunst (frameError_of_badDelimiters hbad) nofun nofun
      rw [herr, hstate]; rfl
    · obtain ⟨herr, hstate⟩ := decoded_of_early_error j hunst (frameError_of_short hgood h8) nofun nofun
      rw [herr, hstate]; rfl
    · obtain ⟨herr, hstate⟩ := decoded_of_mismatch j hunst (frameError_of_mismatch hgood h8 hc)
      rw [herr, hstate]; rfl
    · obtain ⟨herr, hstate⟩ := decoded_of_match j hunst (frameError_of_match hgood h8 hc)
      rw [herr, hstate, ← respOf_eq]; rfl

end Sys2Proof.Machine

/-! SUPPORT. A whole receive of RECVX, EXCHANGE and PROBE: the outcome of its decoding, register by register, and what of it
stays behind the end of the attempt (R41, R165 to R170, R251). -/

namespace Sys2Proof.Machine

/-! ## The outcomes of decoding -/

/-- The four ways in which `decode_verify` ends, with its error and the state that it leaves (R165, R166). -/
inductive DecodeOutcome (j : Job) (s : State) : ErrCode → State → Prop where
  | escape (e : ErrCode) (he : e ∈ [ErrCode.escInvalid, .escTruncated]) : DecodeOutcome j s e (s.setRxfLen 0)
  | early (e : ErrCode) (he : e ∈ [ErrCode.badDelimiter, .shortFrame]) : DecodeOutcome j s e (unstuffedState s)
  | mismatch :
    DecodeOutcome j s .checksumMismatch
      ((unstuffedState s).setResult (computedChecksum s.env.crcTable j.m j.le s.rxFrame))
  | response (hlen : 8 ≤ s.rxFrame.length)
      (hstored : storedChecksum s.rxFrame = computedChecksum s.env.crcTable j.m j.le s.rxFrame) :
    DecodeOutcome j s .none
      (((unstuffedState s).setResult (computedChecksum s.env.crcTable j.m j.le s.rxFrame)).setResponse
        (respOf s.rxFrame) (computedChecksum s.env.crcTable j.m j.le s.rxFrame) (s.rxFrame.length - 8))

theorem decodeOutcome (j : Job) (s : State) : DecodeOutcome j s (decodeError j s) (decodedState j s) := by
  by_cases hunst : (unstuff s.received).2 = .none
  · have hcode := frameError_mem s.env.crcTable j.m j.le s.rxFrame
    simp only [List.mem_cons, List.not_mem_nil, or_false] at hcode
    rcases hcode with hmatch | hbad | hshort | hmismatch
    · obtain ⟨herr, hstate⟩ := decoded_of_match j hunst hmatch
      rw [herr, hstate]
      exact .response (verified_of_none (s := s) hmatch).1 (storedChecksum_of_frameError_none hmatch)
    · obtain ⟨herr, hstate⟩ := decoded_of_early_error j hunst hbad nofun nofun
      rw [herr, hstate]; exact .early _ (by simp)
    · obtain ⟨herr, hstate⟩ := decoded_of_early_error j hunst hshort nofun nofun
      rw [herr, hstate]; exact .early _ (by simp)
    · obtain ⟨herr, hstate⟩ := decoded_of_mismatch j hunst hmismatch
      rw [herr, hstate]; exact .mismatch
  · rw [decodeError_of_escape j hunst, decodedState_of_escape j hunst]
    exact .escape _ ((List.mem_cons.1 (unstuff_error_mem s.received)).resolve_left hunst)

/-- The registers of the response are those of the frame `f`, whose checksum is `c` (R47, R48, R165). -/
structure ResponseIs (f : List Byte) (c : Half) (r : Regs) : Prop where
  rvalid : r.rvalid = true
  cmd : respCmd r.resp = byteOf f 2
  rsvd : respRsvd r.resp = byteOf f 1
  lenf : respLenf r.resp = be16 (byteOf f 3) (byteOf f 4)
  stored : r.respCks = storedChecksum f
  matched : r.result = r.respCks
  computed : r.result = c
  plen : r.respPlen.toNat + 8 = f.length

section Outcome
variable {j : Job} {s u : State} {e : ErrCode}

/-- Decoding writes RESULT, RXF_LEN and the response, and no other register (R165). -/
theorem DecodeOutcome.regs (h : DecodeOutcome j s e u) :
    u.regs = { s.regs with
      result := u.regs.result, rxfLen := u.regs.rxfLen, resp := u.regs.resp, respCks := u.regs.respCks
      respPlen := u.regs.respPlen, rvalid := u.regs.rvalid } := by
  cases h <;> rfl

/-- Decoding ends no operation and counts no attempt (R168, R170). -/
theorem DecodeOutcome.keeps (h : DecodeOutcome j s e u) :
    u.regs.rxwLen = s.regs.rxwLen ∧ u.regs.attempts = s.regs.attempts ∧ u.regs.errcode = s.regs.errcode ∧
      u.regs.busy = s.regs.busy ∧ u.regs.done = s.regs.done := by
  rw [h.regs]
  exact ⟨rfl, rfl, rfl, rfl, rfl⟩

theorem DecodeOutcome.sameResponse (h : DecodeOutcome j s e u) (he : e ≠ .none) : SameResponse s u := by
  cases h with
  | response => exact absurd rfl he
  | _ => exact ⟨rfl, rfl, rfl, rfl⟩

theorem DecodeOutcome.result_of_mismatch (h : DecodeOutcome j s e u) (he : e = .checksumMismatch) :
    u.regs.result = computedChecksum s.env.crcTable j.m j.le s.rxFrame := by
  cases h with
  | mismatch => rfl
  | response => cases he
  | escape _ hmem => subst he; simp at hmem
  | early _ hmem => subst he; simp at hmem

/-- RESULT is written only where the checks reach the comparison (R41). -/
theorem DecodeOutcome.result_unchanged (h : DecodeOutcome j s e u) (h0 : e ≠ .none) (h1 : e ≠ .checksumMismatch) :
    u.regs.result = s.regs.result := by
  cases h with
  | mismatch => exact absurd rfl h1
  | response => exact absurd rfl h0
  | _ => rfl

theorem DecodeOutcome.responseIs (h : DecodeOutcome j s e u) (hrxw : s.regs.rxwLen.toNat ≤ Config.regionSize)
    (he : e = .none) :
    ResponseIs s.rxFrame (computedChecksum s.env.crcTable j.m j.le s.rxFrame) u.regs := by
  cases h with
  | response hlen hstored =>
    have hframe := s.length_rxFrame_le.trans hrxw
    have hregion : Config.regionSize = 2 ^ 18 := rfl
    have hplen : (BitVec.ofNat 18 (s.rxFrame.length - 8)).toNat + 8 = s.rxFrame.length := by
      rw [BitVec.toNat_ofNat]; omega
    exact ⟨rfl, respCmd_respOf _, respRsvd_respOf _, respLenf_respOf _, hstored.symm, rfl, rfl, hplen⟩
  | mismatch => cases he
  | escape _ hmem => subst he; simp at hmem
  | early _ hmem => subst he; simp at hmem

end Outcome

theorem decodedState_rxfLen_of_escape {s : State} (j : Job) (h : (unstuff s.received).2 ≠ .none) :
    (decodedState j s).regs.rxfLen = 0 := by
  rw [decodedState_of_escape j h]; rfl

/-- Decoding leaves the received bytes in RXW (R165). -/
theorem decodedState_rxw (j : Job) {s : State} (h : s.regs.rxwLen.toNat ≤ Config.regionSize) :
    (decodedState j s).bytesAt 0x80000 s.received.length = s.received := by
  have hregion : Config.regionSize = 0x40000 := rfl
  rw [State.length_received]
  exact State.bytesAt_congr fun a _ ha => decodedState_byteAt j s (.inl (by omega))

/-! ## What stays of a whole receive -/

/-- What holds in `t` of the receive that the chunk has ended in `s`, whatever becomes of its attempt: the received bytes
in RXW, the unstuffed frame in RXF, RESULT, the response unchanged by an error, and everything that no attempt writes. -/
structure WholeReceive (j : Job) (s : State) (chunk : List Byte) (t : State) : Prop where
  env : t.env = s.env
  rxw : t.bytesAt 0x80000 (s.storeChunk chunk).received.length = (s.storeChunk chunk).received
  rxf : (unstuff (s.storeChunk chunk).received).2 = .none →
    t.bytesAt 0xC0000 (s.storeChunk chunk).rxFrame.length = (s.storeChunk chunk).rxFrame ∧
      t.regs.rxfLen.toNat = (s.storeChunk chunk).rxFrame.length
  noRxf : (unstuff (s.storeChunk chunk).received).2 ≠ .none → t.regs.rxfLen = 0
  regs : t.regs = { s.regs with
    result := t.regs.result, rxwLen := t.regs.rxwLen, rxfLen := t.regs.rxfLen, attempts := t.regs.attempts
    resp := t.regs.resp, respCks := t.regs.respCks, respPlen := t.regs.respPlen, rvalid := t.regs.rvalid
    errcode := t.regs.errcode, busy := t.regs.busy, done := t.regs.done }
  bytes : ∀ a, (a < 0x80000 + s.regs.rxwLen.toNat ∨ 0x80000 + s.regs.rxwLen.toNat + chunk.length ≤ a) →
    (a < 0xC0000 ∨ 0xC0000 + (if (unstuff (s.storeChunk chunk).received).2 = .none then
      (s.storeChunk chunk).rxFrame.length else 0) ≤ a) → t.byteAt a = s.byteAt a
  sameResponse : decodeError j (s.storeChunk chunk) ≠ .none → SameResponse s t
  mismatch : decodeError j (s.storeChunk chunk) = .checksumMismatch →
    t.regs.result = computedChecksum s.env.crcTable j.m j.le (s.storeChunk chunk).rxFrame
  early : decodeError j (s.storeChunk chunk) ≠ .none → decodeError j (s.storeChunk chunk) ≠ .checksumMismatch →
    t.regs.result = s.regs.result

section Attempt
variable {j : Job} {s : State} {chunk : List Byte}

theorem wholeReceive_decodedState (hfit : (s.storeChunk chunk).regs.rxwLen.toNat ≤ Config.regionSize) :
    WholeReceive j s chunk (decodedState j (s.storeChunk chunk)) where
  env := decodedState_env j _
  rxw := decodedState_rxw j hfit
  rxf hunst := ⟨decodedState_bytesAt j hunst, decodedState_rxfLen j hunst⟩
  noRxf hesc := decodedState_rxfLen_of_escape j hesc
  regs := by rw [(decodeOutcome j (s.storeChunk chunk)).regs]; rfl
  bytes a hchunk hframe := (decodedState_byteAt j _ hframe).trans (State.storeChunk_byteAt_outside s chunk hchunk)
  sameResponse he := (decodeOutcome j (s.storeChunk chunk)).sameResponse he
  mismatch he := (decodeOutcome j (s.storeChunk chunk)).result_of_mismatch he
  early h0 h1 := (decodeOutcome j (s.storeChunk chunk)).result_unchanged h0 h1

/-- The end of the operation keeps it (R151). -/
theorem WholeReceive.finish {u : State} (h : WholeReceive j s chunk u) (e : ErrCode) :
    WholeReceive j s chunk (finish e u) :=
  { h with regs := congrArg (Regs.finished · e) h.regs }

/-- The next attempt keeps it too: it counts itself and clears RXW_LEN (R160, R170). -/
theorem WholeReceive.nextAttempt {u : State} (h : WholeReceive j s chunk u) (e : ErrCode) :
    WholeReceive j s chunk (nextAttempt j e u) :=
  { h with regs := congrArg (fun r : Regs => { r with attempts := j.k + 1, rxwLen := 0 }) h.regs }

/-- Behind a chunk that ends the receive the attempt ends with the outcome of its decoding (R170). -/
theorem attemptsResume_of_last (n : Byte) (hne : chunk ≠ []) (hlast : chunk.getLast? ≠ some 0x7D)
    (hfit : s.regs.rxwLen.toNat + chunk.length ≤ Config.regionSize) :
    attemptsResume n (.ok chunk) j s =
      attemptResult n j (decodeError j (s.storeChunk chunk)) (decodedState j (s.storeChunk chunk)) := by
  have hrxw : (s.storeChunk chunk).regs.rxwLen.toNat ≤ Config.regionSize := by rwa [State.storeChunk_rxwLen hfit]
  exact (receiveChunk_of_last hne hlast hfit j _).trans (decodeVerify_eq_decoded hrxw j _)

end Attempt

/-- Settles O36: it holds; what every end of the attempt keeps is `WholeReceive`, and the three ends differ in the phase,
RXW_LEN, ATTEMPTS and the STATUS fields alone. -/
theorem completeReceiveIsVerified : Obligations.CompleteReceiveIsVerified := by
  intro fcmd retries i s j chunk hi he hne hlast hfit
  have hreceived : s.bytesAt 0x80000 s.regs.rxwLen.toNat ++ chunk = (s.storeChunk chunk).received :=
    (State.received_storeChunk hfit).symm
  rw [hreceived]
  intro w f e
  have hrxw : (s.storeChunk chunk).regs.rxwLen.toNat ≤ Config.regionSize := by rwa [State.storeChunk_rxwLen hfit]
  have hexec := (exec_of_got_of_attempts hi he).trans (attemptsResume_of_last retries hne hlast hfit)
  have hwhole := wholeReceive_decodedState (j := j) hrxw
  have houtcome := decodeOutcome j (s.storeChunk chunk)
  generalize decodedState j (s.storeChunk chunk) = u at hexec hwhole houtcome
  obtain ⟨hrxwLen, hattempts, hstatus⟩ := houtcome.keeps
  have hlen : u.regs.rxwLen.toNat = w.length := (congrArg BitVec.toNat hrxwLen).trans (State.length_received _).symm
  by_cases h0 : decodeError j (s.storeChunk chunk) = .none
  · have hresp := houtcome.responseIs hrxw h0
    have hend := hwhole.finish .none
    rw [h0] at hexec
    refine ⟨_, hexec, hend.env, hend.rxw, hend.rxf, hend.noRxf, hend.regs, hend.bytes, fun h => absurd h0 h,
      hend.mismatch, hend.early, fun _ => ?_, fun h => absurd h0 h, fun h => absurd h0 h⟩
    exact ⟨rfl, rfl, rfl, rfl, hresp.rvalid, hresp.cmd, hresp.rsvd, hresp.lenf, hresp.stored, hresp.matched,
      hresp.computed, hresp.plen, hlen, hattempts⟩
  · by_cases hk : j.k < retries
    · have hend := hwhole.nextAttempt (decodeError j (s.storeChunk chunk))
      have hmax : u.env.rxChunkMax = s.env.rxChunkMax := congrArg Env.rxChunkMax hwhole.env
      exact ⟨_, hexec.trans (attemptResult_of_left h0 hk u), hend.env, hend.rxw, hend.rxf, hend.noRxf, hend.regs,
        hend.bytes, hend.sameResponse, hend.mismatch, hend.early, fun h => absurd h h0,
        fun _ _ => ⟨congrArg (Engine.waitRead · _) hmax, rfl, rfl, hstatus⟩, fun _ h => absurd hk h⟩
    · have hend := hwhole.finish (decodeError j (s.storeChunk chunk))
      exact ⟨_, hexec.trans (attemptResult_of_spent h0 hk u), hend.env, hend.rxw, hend.rxf, hend.noRxf, hend.regs,
        hend.bytes, hend.sameResponse, hend.mismatch, hend.early, fun h => absurd h h0, fun _ h => absurd h hk,
        fun _ _ => ⟨rfl, rfl, rfl, rfl, hlen, hattempts⟩⟩

end Sys2Proof.Machine

/-! SUPPORT. The checksums and one changed byte, and DECODE of the wire form of a built frame (R90 to R93, R110 to R116, R136,
R182). -/

namespace Sys2Proof.Machine

/-! ## The CRC of the spec's table and one changed byte -/

/-- The byte whose table entry has the given low byte, for the spec's table (R111). -/
def indexOfLow (v : Byte) : Byte := (v ^^^ (v <<< 5)) ^^^ ((v ^^^ (v <<< 5)) >>> 4)

theorem indexOfLow_loByte_iterate (b : Byte) : indexOfLow (loByte (iterate crcShift 8 (b ++ 0#8))) = b := by
  revert b; decide

/-- The low bytes of the entries of the spec's table tell the entries apart. -/
theorem eq_of_loByte_crcEntry {b b' : Byte}
    (h : loByte (crcEntry crc16Table b) = loByte (crcEntry crc16Table b')) : b = b' := by
  rw [crcEntry_crc16Table, crcEntry_crc16Table] at h
  rw [← indexOfLow_loByte_iterate b, h, indexOfLow_loByte_iterate]

theorem loByte_crcStep (table : CrcTable) (c : Half) (b : Byte) :
    loByte (crcStep table c b) = loByte (crcEntry table (hiByte c ^^^ b)) := by
  apply BitVec.eq_of_getLsbD_eq
  intro i hi
  simp [crcStep, loByte, hi, show i < 16 by omega]

/-- A byte of the update can be undone: it tells both the registers and the bytes apart (R110). -/
theorem crcStep_inj {c c' : Half} {b b' : Byte} (h : crcStep crc16Table c b = crcStep crc16Table c' b') :
    hiByte c ^^^ b = hiByte c' ^^^ b' ∧ c <<< 8 = c' <<< 8 := by
  have hindex : hiByte c ^^^ b = hiByte c' ^^^ b' := by
    apply eq_of_loByte_crcEntry
    rw [← loByte_crcStep, ← loByte_crcStep, h]
  rw [crcStep, crcStep, hindex, BitVec.xor_left_inj] at h
  exact ⟨hindex, h⟩

theorem eq_of_hiByte_of_shift {c c' : Half} (hhi : hiByte c = hiByte c') (hlo : c <<< 8 = c' <<< 8) : c = c' := by
  have hlow : loByte c = loByte c' := by
    apply BitVec.eq_of_getLsbD_eq
    intro i hi
    have hbit := congrArg (BitVec.getLsbD · (8 + i)) hlo
    simpa [loByte, hi, show i < 16 by omega, show 8 + i < 16 by omega, BitVec.getLsbD_eq_getElem] using hbit
  rw [← be16_hiByte_loByte c, ← be16_hiByte_loByte c', hhi, hlow]

theorem crc16_seed_inj (bs : List Byte) {c c' : Half} (h : crc16 crc16Table c bs = crc16 crc16Table c' bs) : c = c' := by
  induction bs generalizing c c' with
  | nil => exact h
  | cons b bs ih =>
    obtain ⟨hindex, hlo⟩ := crcStep_inj (ih h)
    exact eq_of_hiByte_of_shift (BitVec.xor_left_inj b |>.1 hindex) hlo

/-- One changed byte changes the CRC with the spec's table. -/
theorem crc16_set_ne {bs : List Byte} {k : Nat} {b : Byte} (hk : k < bs.length) (hb : b ≠ byteOf bs k) (seed : Half) :
    crc16 crc16Table seed (bs.set k b) ≠ crc16 crc16Table seed bs := by
  induction bs generalizing k seed with
  | nil => simp at hk
  | cons b0 bs ih =>
    cases k with
    | zero =>
      intro h
      exact hb (BitVec.xor_right_inj _ |>.1 (crcStep_inj (crc16_seed_inj bs h)).1)
    | succ k => exact ih (Nat.lt_of_succ_lt_succ hk) hb _

/-! ## The Internet sum and one changed byte -/

theorem wordOf_modEq_left {le : Bool} {b b0 b1 : Byte} (h : wordOf le b b1 ≡ wordOf le b0 b1 [MOD 0xFFFF]) : b = b0 := by
  have := b.isLt; have := b0.isLt
  apply BitVec.eq_of_toNat_eq
  unfold Nat.ModEq at h
  cases le <;> simp only [wordOf_false, wordOf_true] at h <;> omega

theorem wordOf_modEq_right {le : Bool} {b b0 b1 : Byte} (h : wordOf le b0 b ≡ wordOf le b0 b1 [MOD 0xFFFF]) : b = b1 := by
  have := b.isLt; have := b1.isLt
  apply BitVec.eq_of_toNat_eq
  unfold Nat.ModEq at h
  cases le <;> simp only [wordOf_false, wordOf_true] at h <;> omega

/-- One changed byte changes the unfolded sum by less than the modulus of the carry fold (R113, R116). -/
theorem wordSum_set_not_modEq {le : Bool} {bs : List Byte} {k : Nat} {b : Byte} (hk : k < bs.length)
    (hb : b ≠ byteOf bs k) : ¬ wordSum le (bs.set k b) ≡ wordSum le bs [MOD 0xFFFF] := by
  induction bs using wordSum.induct generalizing k with
  | case1 => simp at hk
  | case2 b0 =>
    obtain rfl : k = 0 := by simpa using hk
    exact fun h => hb (wordOf_modEq_left h)
  | case3 b0 b1 rest ih =>
    match k with
    | 0 => exact fun h => hb (wordOf_modEq_left (Nat.ModEq.add_right_cancel' _ h))
    | 1 => exact fun h => hb (wordOf_modEq_right (Nat.ModEq.add_right_cancel' _ h))
    | k + 2 =>
      intro h
      exact ih (by simpa using hk) hb (Nat.ModEq.add_left_cancel' _ h)

theorem isum_set_ne {le : Bool} {bs : List Byte} {k : Nat} {b : Byte} (hk : k < bs.length) (hb : b ≠ byteOf bs k) :
    isum le (bs.set k b) ≠ isum le bs := by
  intro h
  obtain ⟨-, hset, -⟩ := isum_spec le (bs.set k b)
  obtain ⟨-, hold, -⟩ := isum_spec le bs
  rw [h] at hset
  exact wordSum_set_not_modEq hk hb (hset.symm.trans hold)

/-- One changed byte changes the frame checksum: with every table in INTERNET_SUM mode, in CRC mode with the spec's. -/
theorem checksum_set_ne {table : CrcTable} {m : ChecksumMode} (hm : m = .internetSum ∨ table = crc16Table) (le : Bool)
    {bs : List Byte} {k : Nat} {b : Byte} (hk : k < bs.length) (hb : b ≠ byteOf bs k) :
    checksum table m le (bs.set k b) ≠ checksum table m le bs := by
  cases m with
  | internetSum => exact isum_set_ne hk hb
  | crc =>
    obtain rfl : table = crc16Table := hm.resolve_left nofun
    exact crc16_set_ne hk hb _

/-! ## Frames with any region and any stored checksum -/

/-- A frame of the given checksummed region and stored checksum (R90, R92). -/
def framed (region : List Byte) (c : Half) : List Byte := Config.delimiter :: (region ++ frameTail c)

theorem logicalFrame_eq_framed (table : CrcTable) (m : ChecksumMode) (le : Bool) (cmd : Byte) (p : List Byte) :
    logicalFrame table m le cmd p = framed (frameRegion cmd p) (checksum table m le (frameRegion cmd p)) := rfl

theorem length_framed (region : List Byte) (c : Half) : (framed region c).length = region.length + 4 := by
  simp [framed]

theorem byteOf_framed_tail (region : List Byte) (c : Half) (i : Nat) :
    byteOf (framed region c) (region.length + i + 1) = byteOf (frameTail c) i := by
  rw [framed, byteOf, List.getD_cons_succ, List.getD_append_right _ _ _ _ (by omega), Nat.add_sub_cancel_left]
  rfl

/-- Changing a byte of the region changes nothing else of the frame. -/
theorem framed_set {region : List Byte} {k : Nat} (hk : k < region.length) (c : Half) (b : Byte) :
    (framed region c).set (k + 1) b = framed (region.set k b) c := by
  rw [framed, List.set_cons_succ, List.set_append_left _ _ hk]
  rfl

theorem byteOf_framed {region : List Byte} {k : Nat} (hk : k < region.length) (c : Half) :
    byteOf (framed region c) (k + 1) = byteOf region k := by
  rw [framed, byteOf, List.getD_cons_succ, List.getD_append _ _ _ _ hk]
  rfl

/-- A frame stands between two delimiters (R90). -/
theorem framed_eq_concat (region : List Byte) (c : Half) :
    framed region c = Config.delimiter :: ((region ++ [hiByte c, loByte c]) ++ [Config.delimiter]) := by
  simp [framed, frameTail]

/-- The wire form of a frame begins and ends with the delimiter (R131). -/
theorem stuff_framed (region : List Byte) (c : Half) :
    stuff (framed region c) =
      Config.delimiter :: ((region ++ [hiByte c, loByte c]).flatMap escape ++ [Config.delimiter]) := by
  rw [framed_eq_concat, stuff_cons_concat]

theorem unstuff_stuff_framed (region : List Byte) (c : Half) :
    unstuff (stuff (framed region c)) = (framed region c, .none) := by
  have hlast : (framed region c).getLast? = some Config.delimiter := by
    rw [framed_eq_concat, ← List.cons_append, List.getLast?_concat]
  refine unstuff_stuff nofun ?_
  rw [hlast]
  decide

theorem not_badDelimiters_framed (region : List Byte) (c : Half) : ¬ BadDelimiters (framed region c) := by
  have hlast : byteOf (framed region c) ((framed region c).length - 1) = Config.delimiter := by
    rw [length_framed]; exact byteOf_framed_tail region c 2
  rintro (hlen | hfirst | hend)
  · rw [length_framed] at hlen; omega
  · exact hfirst rfl
  · exact hend hlast

theorem storedChecksum_framed (region : List Byte) (c : Half) : storedChecksum (framed region c) = c := by
  have hhi : byteOf (framed region c) ((framed region c).length - 3) = hiByte c := by
    rw [length_framed]; exact byteOf_framed_tail region c 0
  have hlo : byteOf (framed region c) ((framed region c).length - 2) = loByte c := by
    rw [length_framed]; exact byteOf_framed_tail region c 1
  rw [storedChecksum, hhi, hlo, be16_hiByte_loByte]

theorem computedChecksum_framed (table : CrcTable) (m : ChecksumMode) (le : Bool) (region : List Byte) (c : Half) :
    computedChecksum table m le (framed region c) = checksum table m le region := by
  have hregion : slice (framed region c) 1 ((framed region c).length - 3) = region := by
    rw [length_framed, framed, slice, List.drop_one, List.tail_cons]
    exact List.take_left' rfl
  rw [computedChecksum, hregion]

/-- A frame whose region has the stored checksum passes every check (R166). -/
theorem frameError_framed_of_match {table : CrcTable} {m : ChecksumMode} {le : Bool} {region : List Byte} {c : Half}
    (hlen : 4 ≤ region.length) (hc : checksum table m le region = c) :
    frameError table m le (framed region c) = .none :=
  frameError_of_match (not_badDelimiters_framed region c) (by rw [length_framed]; omega)
    (by rw [computedChecksum_framed, storedChecksum_framed, hc])

theorem frameError_framed_of_mismatch {table : CrcTable} {m : ChecksumMode} {le : Bool} {region : List Byte} {c : Half}
    (hlen : 4 ≤ region.length) (hc : checksum table m le region ≠ c) :
    frameError table m le (framed region c) = .checksumMismatch :=
  frameError_of_mismatch (not_badDelimiters_framed region c) (by rw [length_framed]; omega)
    (by rwa [computedChecksum_framed, storedChecksum_framed])

/-! ## DECODE of a built frame -/

/-- A part of a span of BUF. -/
theorem slice_bytesAt (s : State) (off i n k : Nat) :
    slice (s.bytesAt off (i + n + k)) i (i + n) = s.bytesAt (off + i) n := by
  rw [State.bytesAt_append, State.bytesAt_append, List.append_assoc, slice, List.drop_left' (by simp),
    Nat.add_sub_cancel_left, List.take_left' (by simp)]

/-- The response in `t` is that of a frame of the command and the payload, which stands in RXF (R47, R48, R165). -/
structure RespondsWith (cmd : Byte) (p : List Byte) (t : State) : Prop where
  rvalid : t.regs.rvalid = true
  cmd : respCmd t.regs.resp = cmd
  lenf : (respLenf t.regs.resp).toNat = p.length
  plen : t.regs.respPlen.toNat = p.length
  payload : t.bytesAt 0xC0005 p.length = p

section BuiltFrame
variable {s : State} {j : Job} {cmd : Byte} {p : List Byte}

/-- Received bytes that are the wire form of a frame unstuff to the frame (R136). -/
theorem rxFrame_of_stuff_framed {region : List Byte} {c : Half} (h : s.received = stuff (framed region c)) :
    s.rxFrame = framed region c ∧ (unstuff s.received).2 = .none := by
  rw [State.rxFrame, h, unstuff_stuff_framed]
  exact ⟨rfl, rfl⟩

/-- Decoding the wire form of a built frame gives no error and the frame as its response (R165, R182). -/
theorem decoded_of_builtFrame (hp : p.length ≤ 65535) (hrxw : s.regs.rxwLen.toNat ≤ Config.regionSize)
    (h : s.received = stuff (logicalFrame s.env.crcTable j.m j.le cmd p)) :
    decodeError j s = .none ∧ RespondsWith cmd p (decodedState j s) := by
  obtain ⟨hframe, hunst⟩ := rxFrame_of_stuff_framed (h.trans (congrArg stuff (logicalFrame_eq_framed ..)))
  have hcheck : frameError s.env.crcTable j.m j.le s.rxFrame = .none := by
    rw [hframe]
    exact frameError_framed_of_match (by rw [length_frameRegion]; omega) rfl
  have herr := (decoded_of_match j hunst hcheck).1
  have hresp := (decodeOutcome j s).responseIs hrxw herr
  have hbytes := decodedState_bytesAt j hunst
  rw [← logicalFrame_eq_framed] at hframe
  have hlen : s.rxFrame.length = 5 + p.length + 3 := by rw [hframe, length_logicalFrame]; omega
  have hlenf : respLenf (decodedState j s).regs.resp = BitVec.ofNat 16 p.length := by
    rw [hresp.lenf, hframe]
    exact be16_hiByte_loByte _
  refine ⟨herr, hresp.rvalid, by rw [hresp.cmd, hframe]; rfl, ?_, by have := hresp.plen; omega, ?_⟩
  · rw [hlenf, BitVec.toNat_ofNat, Nat.mod_eq_of_lt (by omega)]
  · rw [hlen] at hbytes
    rw [← slice_bytesAt _ 0xC0000 5 p.length 3, hbytes, hframe, slice_logicalFrame_payload]

/-- Decoding finds one changed byte of the checksummed region (R182). -/
theorem decoded_of_changedFrame (hm : j.m = .internetSum ∨ s.env.crcTable = crc16Table) {k : Nat} {b : Byte} (h1 : 1 ≤ k)
    (hk : k < p.length + 5) (hb : b ≠ byteOf (logicalFrame s.env.crcTable j.m j.le cmd p) k)
    (h : s.received = stuff ((logicalFrame s.env.crcTable j.m j.le cmd p).set k b)) :
    decodeError j s = .checksumMismatch := by
  obtain ⟨i, rfl⟩ : ∃ i, k = i + 1 := ⟨k - 1, by omega⟩
  have hi : i < (frameRegion cmd p).length := by rw [length_frameRegion]; omega
  rw [logicalFrame_eq_framed, byteOf_framed hi] at hb
  rw [logicalFrame_eq_framed, framed_set hi] at h
  obtain ⟨hframe, hunst⟩ := rxFrame_of_stuff_framed h
  refine (decoded_of_mismatch j hunst ?_).1
  rw [hframe]
  exact frameError_framed_of_mismatch (by rw [List.length_set, length_frameRegion]; omega) (checksum_set_ne hm j.le hi hb)

end BuiltFrame

/-- Settles O54: it holds; unstuffing undoes the stuffing, and one changed byte changes the checksum
(`checksum_set_ne`). -/
theorem builtFrameVerifies : Obligations.BuiltFrameVerifies := by
  intro fcmd retries cmd p s j he hp f
  refine ⟨fun hw hrxw => ?_, fun k b hm h1 hk hb hw hrxw => ?_⟩
  · obtain ⟨herr, hresp⟩ := decoded_of_builtFrame hp hrxw hw
    have hexec := execDecode_of_start (fcmd := fcmd) (retries := retries) he hrxw
    rw [herr] at hexec
    exact ⟨_, hexec, rfl, rfl, hresp.rvalid, hresp.cmd, hresp.lenf, hresp.plen, hresp.payload⟩
  · have herr := decoded_of_changedFrame hm h1 hk hb hw
    obtain ⟨-, -, -, hvalid⟩ := (decodeOutcome j s).sameResponse (by rw [herr]; nofun)
    exact ⟨_, execDecode_of_start he hrxw, rfl, herr, hvalid⟩

end Sys2Proof.Machine

/-! SUPPORT. Whole operations as runs of the machine: the port's answers and the engine's steps in turn, a receive in any
number of chunks, and an exchange with a good reply (R54, R153, R172, R180). -/

namespace Sys2Proof.Machine

/-! ## Runs -/

theorem runSteps_succ {s t : State} (h : step s = .next t) (n : Nat) : runSteps (n + 1) s = runSteps n t := by
  have hstep : Sys2Proof.core.step s = .next t := h
  simp only [runSteps, Host.Core.run, hstep]
  rfl

/-- With nothing scheduled the running operation's step is the meaning of the instruction that it runs (R72). -/
theorem step_of_runs {s : State} {i : Instr} {j : Job} {p : Point} (hagenda : s.env.agenda = [])
    (he : s.eng = .run j p) (hi : s.Runs i) : step s = exec i s := by
  rw [step_of_run hagenda he]
  refine engineStep_of_decode he ?_
  rw [← hi j p he, decode_encode]

/-- The state in which the port has answered a read with the chunk (R54, R263). -/
def chunkDelivered (chunk : List Byte) (rest : List ReadAnswer) (j : Job) (s : State) : State :=
  { s with eng := .run j (.got (.ok chunk)), env := { s.env with portReads := rest } }

theorem step_of_delivery {s : State} {j : Job} {n : Nat} {chunk : List Byte} {rest : List ReadAnswer}
    (hagenda : s.env.agenda = []) (he : s.eng = .waitRead n j) (hreads : s.env.portReads = .ok chunk :: rest)
    (hn : chunk.length ≤ n) : step s = .next (chunkDelivered chunk rest j s) := by
  rw [step_of_waitRead hagenda he, portStep_of_waitRead he, answerRead_of_chunk hreads hn]
  rfl

/-- The state in which the port has answered a write (R54, R262). -/
def writeAnswered (a : WriteAnswer) (rest : List WriteAnswer) (j : Job) (s : State) : State :=
  { s with eng := .run j (.wrote a), env := { s.env with portWrites := rest } }

theorem step_of_writeAnswer {s : State} {j : Job} {bytes : List Byte} {a : WriteAnswer} {rest : List WriteAnswer}
    (hagenda : s.env.agenda = []) (he : s.eng = .waitWrite bytes j) (hwrites : s.env.portWrites = a :: rest) :
    step s = .next (writeAnswered a rest j s) := by
  rw [step_of_waitWrite hagenda he, portStep_of_waitWrite he, answerWrite_of_answer hwrites]
  rfl

/-! ## A receive in chunks -/

theorem runs_of_eng {s : State} {i : Instr} {j : Job} {p : Point} (he : s.eng = .run j p)
    (h : encode i = latchedWord j s) : s.Runs i := by
  intro j' p' he'
  obtain ⟨rfl, rfl⟩ : j = j' ∧ p = p' := by simpa using he.symm.trans he'
  exact h

/-- The opcode 0x08 runs RECV (R82). -/
theorem runs_recv {s : State} {j : Job} {p : Point} (he : s.eng = .run j p) (hop : j.op = 0x08) :
    s.Runs (.recv (cmdFcmd s.regs.cmd) (cmdRetries s.regs.cmd)) :=
  runs_of_eng he (by rw [latchedWord, hop]; rfl)

/-- RECV waits for a chunk of at most RX_CHUNK_MAX bytes, with nothing else scheduled (R160, R163). -/
structure RecvWaits (j : Job) (s : State) : Prop where
  agenda : s.env.agenda = []
  op : j.op = 0x08
  eng : s.eng = .waitRead s.env.rxChunkMax j

section RecvWaits
variable {j : Job} {s : State} {chunk : List Byte} {rest : List ReadAnswer}

/-- RECV at its start: one step to its first request (R163). -/
theorem step_recv_start (hagenda : s.env.agenda = []) (he : s.eng = .run j .start) (hop : j.op = 0x08) :
    ∃ t, step s = .next t ∧ RecvWaits j t ∧ t.env = s.env ∧ t.received = [] :=
  ⟨_, (step_of_runs hagenda he (runs_recv he hop)).trans (execRecv_of_start he), ⟨hagenda, hop, rfl⟩, rfl, rfl⟩

/-- The port's step and the engine's step for a chunk that ends in 0x7D: the chunk is stored, and RECV waits again
(R160). -/
theorem runSteps_recv_more (h : RecvWaits j s) (hreads : s.env.portReads = .ok chunk :: rest)
    (hn : chunk.length ≤ s.env.rxChunkMax) (hlast : chunk.getLast? = some 0x7D)
    (hfit : s.received.length + chunk.length ≤ Config.regionSize) (n : Nat) :
    ∃ t, runSteps (n + 2) s = runSteps n t ∧ RecvWaits j t ∧ t.env = { s.env with portReads := rest } ∧
      t.received = s.received ++ chunk := by
  rw [State.length_received] at hfit
  have hport := step_of_delivery h.agenda h.eng hreads hn
  have hengine := (step_of_runs (s := chunkDelivered chunk rest j s) h.agenda rfl (runs_recv rfl h.op)).trans
    (execRecv_of_more rfl hlast hfit)
  exact ⟨_, (runSteps_succ hport _).trans (runSteps_succ hengine _), ⟨h.agenda, h.op, rfl⟩, rfl,
    State.received_storeChunk (s := chunkDelivered chunk rest j s) hfit⟩

/-- The port's step and the engine's step for any other chunk: it is stored, and RECV finishes with NONE (R160). -/
theorem runSteps_recv_last (h : RecvWaits j s) (hreads : s.env.portReads = .ok chunk :: rest)
    (hn : chunk.length ≤ s.env.rxChunkMax) (hne : chunk ≠ []) (hlast : chunk.getLast? ≠ some 0x7D)
    (hfit : s.received.length + chunk.length ≤ Config.regionSize) :
    ∃ t, runSteps 2 s = .next (finish .none t) ∧ t.env = { s.env with portReads := rest } ∧
      t.received = s.received ++ chunk := by
  rw [State.length_received] at hfit
  have hport := step_of_delivery h.agenda h.eng hreads hn
  have hengine := (step_of_runs (s := chunkDelivered chunk rest j s) h.agenda rfl (runs_recv rfl h.op)).trans
    (execRecv_of_last rfl hne hlast hfit)
  exact ⟨_, (runSteps_succ hport _).trans (runSteps_succ hengine _), rfl,
    State.received_storeChunk (s := chunkDelivered chunk rest j s) hfit⟩

/-- A receive takes two steps for each chunk and stores the chunks one behind the other (R180). -/
theorem runSteps_recv_chunks {chunks : List (List Byte)} {last : List Byte} (h : RecvWaits j s)
    (hmore : ∀ c ∈ chunks, c.getLast? = some 0x7D) (hne : last ≠ []) (hlast : last.getLast? ≠ some 0x7D)
    (hn : ∀ c ∈ last :: chunks, c.length ≤ s.env.rxChunkMax)
    (hfit : (s.received ++ (chunks.flatten ++ last)).length ≤ Config.regionSize)
    (hreads : s.env.portReads = chunks.map ReadAnswer.ok ++ .ok last :: rest) :
    ∃ t, runSteps (2 * chunks.length + 2) s = .next (finish .none t) ∧ t.env.portReads = rest ∧
      t.received = s.received ++ (chunks.flatten ++ last) := by
  induction chunks generalizing s with
  | nil =>
    obtain ⟨t, hrun, henv, hrec⟩ := runSteps_recv_last h hreads (hn last (by simp)) hne hlast (by simpa using hfit)
    exact ⟨t, hrun, congrArg Env.portReads henv, hrec⟩
  | cons c chunks ih =>
    simp only [List.forall_mem_cons] at hmore hn
    obtain ⟨hc, hmore⟩ := hmore
    obtain ⟨hnl, hnc, hn⟩ := hn
    simp only [List.flatten_cons, List.length_append, List.append_assoc] at hfit
    obtain ⟨t, hrun, hwaits, henv, hrec⟩ :=
      runSteps_recv_more h hreads hnc hc (by omega) (2 * chunks.length + 2)
    obtain ⟨u, hrest, hreads', hrec'⟩ := ih hwaits hmore
      (by rw [henv]; exact List.forall_mem_cons.2 ⟨hnl, hn⟩)
      (by rw [hrec]; simp only [List.length_append]; omega) (congrArg Env.portReads henv)
    refine ⟨u, hrun.trans hrest, hreads', ?_⟩
    rw [hrec', hrec, List.flatten_cons, List.append_assoc, List.append_assoc]

end RecvWaits

/-- Settles O53: it holds, by induction on the chunks (`runSteps_recv_chunks`). -/
theorem receiveReassembles : Obligations.ReceiveReassembles := by
  intro s j chunks last rest hagenda he hop hmore hne hlast hn hfit hreads
  obtain ⟨t, hstart, hwaits, henv, hempty⟩ := step_recv_start hagenda he hop
  obtain ⟨u, hrun, hrest, hrec⟩ := runSteps_recv_chunks hwaits hmore hne hlast (by rwa [henv])
    (by rwa [hempty]) (by rwa [henv])
  rw [hempty, List.nil_append] at hrec
  have hlen : u.regs.rxwLen.toNat = (chunks.flatten ++ last).length := by rw [← hrec, State.length_received]
  refine ⟨_, (runSteps_succ hstart _).trans hrun, rfl, rfl, rfl, hlen, ?_, hrest⟩
  rw [← hlen]
  exact hrec

/-! ## An exchange with a good reply -/

theorem cmdFcmd_extractLsb (w : Word) : cmdFcmd (w.extractLsb' 0 24) = fcmdField w := by
  apply BitVec.eq_of_toNat_eq; simp [cmdFcmd, fcmdField]

theorem cmdRetries_extractLsb (w : Word) : cmdRetries (w.extractLsb' 0 24) = retriesField w := by
  apply BitVec.eq_of_toNat_eq; simp [cmdRetries, retriesField]

/-- The launched operation is the one that was written to CMD (R72, R80, R150). -/
theorem runs_of_launch {s : State} {i : Instr} {j : Job} {p : Point} (he : s.eng = .run j p)
    (hop : j.op = opField (encode i)) (hcmd : s.regs.cmd = (encode i).extractLsb' 0 24) : s.Runs i := by
  refine runs_of_eng he ?_
  rw [latchedWord, hop, hcmd, cmdFcmd_extractLsb, cmdRetries_extractLsb, commandWord_of_decode (decode_encode i)]

/-- While neither the opcode nor CMD changes, the same word is latched (R51, R72). -/
theorem latchedWord_congr {s u : State} {j j' : Job} (hop : j.op = j'.op) (hcmd : s.regs.cmd = u.regs.cmd) :
    latchedWord j s = latchedWord j' u := by
  rw [latchedWord, latchedWord, hop, hcmd]

theorem State.received_of_rxwLen_zero {s : State} (h : s.regs.rxwLen = 0) : s.received = [] := by
  rw [State.received, h]; rfl

/-- In `u` the first read of the operation that waited for its write in `s` has brought the reply (R172): one attempt is
counted, nothing is stored yet, and the port has used up one answer of each kind. -/
structure FirstReply (j : Job) (writes : List WriteAnswer) (reply : List Byte) (reads : List ReadAnswer) (s u : State) :
    Prop where
  eng : u.eng = .run { j with k := 1 } (.got (.ok reply))
  env : u.env = { s.env with portWrites := writes, portReads := reads }
  cmd : u.regs.cmd = s.regs.cmd
  attempts : u.regs.attempts = 1
  rxwLen : u.regs.rxwLen = 0

section Exchange
variable {s : State} {j : Job} {fcmd retries : Byte}

/-- The first step of an EXCHANGE builds the frame and hands its wire form to the port (R172). -/
theorem step_exchange_start (hagenda : s.env.agenda = []) (he : s.eng = .run j .start)
    (hi : s.Runs (.exchange fcmd retries)) (h0 : retries ≠ 0) :
    step s = .next (sentState j (builtState fcmd j s)) :=
  (step_of_runs hagenda he hi).trans (execExchange_of_start he h0)

/-- Three steps take an EXCHANGE from its write to its first reply: port, engine, port (R153, R172). -/
theorem runSteps_exchange_firstReply (hagenda : s.env.agenda = []) {bytes : List Byte} (he : s.eng = .waitWrite bytes j)
    (hi : encode (.exchange fcmd retries) = latchedWord j s) (h0 : retries ≠ 0) {writes : List WriteAnswer}
    {reply : List Byte} {reads : List ReadAnswer} (hwrites : s.env.portWrites = .ok :: writes)
    (hreads : s.env.portReads = .ok reply :: reads) (hn : reply.length ≤ s.env.rxChunkMax) (n : Nat) :
    ∃ u, runSteps (n + 3) s = runSteps n u ∧ FirstReply j writes reply reads s u := by
  have htaken := step_of_writeAnswer hagenda he hwrites
  have hbegun := (step_of_runs (s := writeAnswered .ok writes j s) hagenda rfl (runs_of_eng rfl hi)).trans
    (execExchange_of_taken rfl h0)
  have hreplied := step_of_delivery (s := firstAttempt j (writeAnswered .ok writes j s)) hagenda rfl hreads hn
  exact ⟨_, (runSteps_succ htaken _).trans ((runSteps_succ hbegun _).trans (runSteps_succ hreplied _)),
    rfl, rfl, rfl, rfl, rfl⟩

end Exchange

/-- The wire form of a built frame is one whole receive: it is not empty, does not end in 0x7D, and fits RXW (R98, R160). -/
theorem stuff_logicalFrame_receivable (table : CrcTable) (m : ChecksumMode) (le : Bool) (cmd : Byte) {p : List Byte}
    (hp : p.length ≤ 65535) :
    stuff (logicalFrame table m le cmd p) ≠ [] ∧ (stuff (logicalFrame table m le cmd p)).getLast? ≠ some 0x7D ∧
      (stuff (logicalFrame table m le cmd p)).length ≤ Config.regionSize := by
  have hlen := length_stuff_le (logicalFrame table m le cmd p)
  have hregion : Config.regionSize = 262144 := rfl
  rw [length_logicalFrame, if_neg (by omega)] at hlen
  have hlast : (stuff (logicalFrame table m le cmd p)).getLast? = some Config.delimiter := by
    rw [logicalFrame_eq_framed, stuff_framed, ← List.cons_append, List.getLast?_concat]
  exact ⟨nofun, by rw [hlast]; decide, by omega⟩

section GoodReply
variable {s : State} {j : Job} {fcmd retries cmd : Byte} {p : List Byte}

/-- The first reply of an attempt, when it is the wire form of a built frame, ends the EXCHANGE with that frame as its
response (R170). -/
theorem step_exchange_goodReply (hagenda : s.env.agenda = [])
    (he : s.eng = .run j (.got (.ok (stuff (logicalFrame s.env.crcTable j.m j.le cmd p)))))
    (hi : s.Runs (.exchange fcmd retries)) (hrxw : s.regs.rxwLen = 0) (hp : p.length ≤ 65535) :
    ∃ t, step s = .next (finish .none t) ∧ t.env = s.env ∧ t.regs.attempts = s.regs.attempts ∧
      RespondsWith cmd p t := by
  obtain ⟨hne, hlast, hlen⟩ := stuff_logicalFrame_receivable s.env.crcTable j.m j.le cmd hp
  generalize hreply : stuff (logicalFrame s.env.crcTable j.m j.le cmd p) = reply at he hne hlast hlen
  have hfit : s.regs.rxwLen.toNat + reply.length ≤ Config.regionSize := by rw [hrxw]; simpa using hlen
  have hreceived : (s.storeChunk reply).received = stuff (logicalFrame s.env.crcTable j.m j.le cmd p) := by
    rw [State.received_storeChunk hfit, State.received_of_rxwLen_zero hrxw, hreply, List.nil_append]
  obtain ⟨herr, hresp⟩ := decoded_of_builtFrame hp (by rwa [State.storeChunk_rxwLen hfit]) hreceived
  have hexec := (step_of_runs hagenda he hi).trans
    ((exec_of_got_of_attempts (fcmd := fcmd) (by simp [attemptInstrs]) he).trans
      (attemptsResume_of_last retries hne hlast hfit))
  rw [herr] at hexec
  obtain ⟨-, hattempts, -⟩ := (decodeOutcome j (s.storeChunk reply)).keeps
  exact ⟨_, hexec, decodedState_env j _, hattempts, hresp⟩

/-- An EXCHANGE whose write is taken and whose first read brings the wire form of a built frame takes five steps from its
start (R172). -/
theorem runSteps_exchange_goodReply (hagenda : s.env.agenda = []) (he : s.eng = .run j .start)
    (hi : s.Runs (.exchange fcmd retries)) (h0 : retries ≠ 0) (hp : p.length ≤ 65535) {writes : List WriteAnswer}
    {reads : List ReadAnswer} (hwrites : s.env.portWrites = .ok :: writes)
    (hreads : s.env.portReads = .ok (stuff (logicalFrame s.env.crcTable j.m j.le cmd p)) :: reads)
    (hn : (stuff (logicalFrame s.env.crcTable j.m j.le cmd p)).length ≤ s.env.rxChunkMax) :
    ∃ t, runSteps 5 s = .next (finish .none t) ∧ t.env = { s.env with portWrites := writes, portReads := reads } ∧
      t.regs.attempts = 1 ∧ RespondsWith cmd p t := by
  have hsent := step_exchange_start hagenda he hi h0
  have henv : (sentState j (builtState fcmd j s)).env = s.env := rfl
  have hlatched : encode (.exchange fcmd retries) = latchedWord j (sentState j (builtState fcmd j s)) :=
    (hi j _ he).trans (latchedWord_congr rfl rfl)
  have hwait : (sentState j (builtState fcmd j s)).eng = .waitWrite (txWire (builtState fcmd j s)) j := rfl
  generalize sentState j (builtState fcmd j s) = sent at hsent henv hlatched hwait
  rw [← henv] at hagenda hwrites hreads hn
  obtain ⟨u, hrun, hu⟩ := runSteps_exchange_firstReply hagenda hwait hlatched h0 hwrites hreads hn 1
  have hruns : u.Runs (.exchange fcmd retries) :=
    runs_of_eng hu.eng (hlatched.trans (latchedWord_congr rfl hu.cmd.symm))
  have htable : u.env.crcTable = s.env.crcTable := by rw [hu.env, henv]
  obtain ⟨t, hend, htenv, hattempts, hresp⟩ := step_exchange_goodReply (j := { j with k := 1 }) (cmd := cmd) (p := p)
    (by rw [hu.env]; exact hagenda) (by rw [hu.eng, htable, henv]) hruns hu.rxwLen hp
  exact ⟨t, (runSteps_succ hsent _).trans (hrun.trans (runSteps_succ hend 0)), by rw [htenv, hu.env, henv],
    hattempts.trans hu.attempts, hresp⟩

end GoodReply

/-- Settles O55: it holds; behind the launch it is `runSteps_exchange_goodReply`. -/
theorem exchangeOfGoodReply : Obligations.ExchangeOfGoodReply := by
  intro s fcmd retries cmd p writes reads hidle hagenda h0 hp sent reply hwrites hreads hn s0
  have hs0 : s0 = (launch (encode (.exchange fcmd retries)) s).setReply .done := busAccess_write_cmd_of_idle hidle _
  have heng : s0.eng = .run (launchedJob s.regs (encode (.exchange fcmd retries))) .start := by rw [hs0]; rfl
  have henv : s0.env = { s.env with reply := .done } := by rw [hs0]; rfl
  have hplen : s0.regs.plen = s.regs.plen := by rw [hs0]; rfl
  have hpayload : s0.txPayload = s.bytesAt 5 s.regs.plen.toNat := by rw [hs0]; rfl
  have hruns : s0.Runs (.exchange fcmd retries) := runs_of_launch heng rfl (by rw [hs0]; rfl)
  have hframe : txFrame fcmd (launchedJob s.regs (encode (.exchange fcmd retries))) s0 = sent := by
    rw [txFrame, hpayload, henv]; rfl
  clear_value s0
  have hagenda0 : s0.env.agenda = [] := by rw [henv]; exact hagenda
  obtain ⟨t, hrun, htenv, hattempts, hresp⟩ := runSteps_exchange_goodReply hagenda0 heng hruns h0 hp
    (by rw [henv]; exact hwrites) (by rw [henv]; exact hreads) (by rw [henv]; exact hn)
  refine ⟨⟨_, launchedJob s.regs (encode (.exchange fcmd retries)),
    runSteps_succ (step_exchange_start hagenda0 heng hruns h0) 0, ?_, ?_⟩, _, hrun, rfl, rfl, rfl, rfl, hresp.rvalid,
    hattempts, hresp.cmd, hresp.lenf, hresp.plen, hresp.payload, congrArg Env.portWrites htenv,
    congrArg Env.portReads htenv⟩
  · rw [← hframe, ← txWire_builtState]; rfl
  · rw [← hframe, ← hplen]; exact sentState_builtState_bytesAt ..

end Sys2Proof.Machine

/-! SUPPORT. The start payload of a transfer: the name, its padding, the size field and the zeros behind it (R214). -/

namespace Sys2Proof.Machine

theorem startPayload_of_le {name : List Half} (h : name.length ≤ 36) (sizeField : List Byte) :
    startPayload name sizeField =
      .ok (utf16le name ++ List.replicate (72 - 2 * name.length) 0 ++ sizeField ++ List.replicate 8 0) :=
  if_pos h

theorem startPayload_of_gt {name : List Half} (h : 36 < name.length) (sizeField : List Byte) :
    startPayload name sizeField = .error .paramError :=
  if_neg (Nat.not_le.2 h)

/-! ## Code units -/

@[simp] theorem length_utf16le (us : List Half) : (utf16le us).length = 2 * us.length := by
  induction us with
  | nil => rfl
  | cons u us ih => rw [utf16le, List.length_cons, List.length_cons, List.length_cons, ih]; omega

theorem loByte_eq_setWidth (v : Half) : loByte v = v.setWidth 8 := (BitVec.setWidth_eq_extractLsb' (by decide)).symm

theorem hiByte_eq_setWidth (v : Half) : hiByte v = (v >>> 8).setWidth 8 := by
  rw [← hiByte_setWidth v, BitVec.setWidth_eq]

/-- Code unit `k` stands at byte `2k`, its low byte first, whatever stands behind the name. -/
theorem byteOf_utf16le_append {us : List Half} {k : Nat} {u : Half} (h : us[k]? = some u) (rest : List Byte) :
    byteOf (utf16le us ++ rest) (2 * k) = u.setWidth 8 ∧
      byteOf (utf16le us ++ rest) (2 * k + 1) = (u >>> 8).setWidth 8 := by
  induction us generalizing k with
  | nil => cases h
  | cons v us ih =>
    cases k with
    | zero => cases h; exact ⟨loByte_eq_setWidth u, hiByte_eq_setWidth u⟩
    | succ k => exact ih h

/-! ## The fields -/

theorem byteOf_append_left {xs : List Byte} {i : Nat} (h : i < xs.length) (ys : List Byte) :
    byteOf (xs ++ ys) i = byteOf xs i := List.getD_append xs ys 0 i h

theorem byteOf_append_right {xs : List Byte} {i : Nat} (h : xs.length ≤ i) (ys : List Byte) :
    byteOf (xs ++ ys) i = byteOf ys (i - xs.length) := List.getD_append_right xs ys 0 i h

theorem byteOf_replicate_zero (n i : Nat) : byteOf (List.replicate n 0) i = 0 := by
  rw [byteOf, List.getD_eq_getElem?_getD, List.getElem?_getD_replicate_default_eq]

theorem slice_append_middle {xs ys : List Byte} {i j : Nat} (hi : xs.length = i) (hj : i + ys.length = j)
    (zs : List Byte) : slice (xs ++ ys ++ zs) i j = ys := by
  subst hi hj
  rw [slice, List.append_assoc, List.drop_left, Nat.add_sub_cancel_left, List.take_left]

/-- The name with its zeros fills the first 72 bytes (R214). -/
theorem length_paddedName {name : List Half} (h : name.length ≤ 36) :
    (utf16le name ++ List.replicate (72 - 2 * name.length) 0).length = 72 := by
  rw [List.length_append, length_utf16le, List.length_replicate]; omega

/-- Settles O57: it holds, field by field of the payload. -/
theorem startPayloadLayout : Obligations.StartPayloadLayout := by
  intro name size hsize
  refine ⟨fun hle => ⟨_, startPayload_of_le hle size, ?_, fun k u hu => ?_, fun k hk hk' => ?_, ?_, fun k hk _ => ?_⟩,
    fun hgt => startPayload_of_gt hgt size⟩
  · rw [List.length_append, List.length_append, length_paddedName hle, hsize, List.length_replicate]
  · rw [List.append_assoc, List.append_assoc]
    exact byteOf_utf16le_append hu _
  · have hpad := length_paddedName hle
    rw [List.append_assoc _ size, byteOf_append_left (by omega), byteOf_append_right (by simpa using hk),
      byteOf_replicate_zero]
  · exact slice_append_middle (length_paddedName hle) (by rw [hsize]) _
  · rw [byteOf_append_right (by rw [List.length_append, length_paddedName hle, hsize]; exact hk), byteOf_replicate_zero]

end Sys2Proof.Machine

/-! SUPPORT. The accounting of a transfer: its chunks and their offsets, the launches of its exchanges, and a transfer that
is turned away (R214 to R217, R219, R225). -/

namespace Sys2Proof.Machine

/-! ## Chunks -/

/-- The chunk behind the whole windows of a transfer, where its size leaves one (R225). -/
def partialChunk (size w : Nat) : List Nat := if size % w = 0 then [] else [size % w]

/-- The loop cuts off whole windows while there are any, and then what is left. -/
theorem chunkLoop_eq {w : Nat} (hw : 1 ≤ w) (fuel : Nat) {remaining : Nat} (hfuel : remaining ≤ fuel) :
    chunkLoop w fuel remaining = List.replicate (remaining / w) w ++ partialChunk remaining w := by
  induction fuel generalizing remaining with
  | zero =>
    obtain rfl : remaining = 0 := by omega
    simp [chunkLoop, partialChunk]
  | succ n ih =>
    rw [chunkLoop]
    rcases Nat.eq_zero_or_pos remaining with rfl | hpos
    · simp [partialChunk]
    · rw [if_neg (by omega)]
      rcases Nat.lt_or_ge remaining w with hlt | hge
      · rw [Nat.min_eq_left hlt.le, Nat.sub_self, ih (Nat.zero_le n)]
        simp [partialChunk, Nat.div_eq_of_lt hlt, Nat.mod_eq_of_lt hlt, Nat.ne_of_gt hpos]
      · obtain ⟨rest, rfl⟩ := Nat.exists_eq_add_of_le' hge
        rw [Nat.min_eq_right hge, Nat.add_sub_cancel, ih (by omega), Nat.add_div_right rest hw, List.replicate_succ,
          partialChunk, partialChunk, Nat.add_mod_right, List.cons_append]

theorem chunkSizes_eq {w : Nat} (hw : 1 ≤ w) (size : Nat) :
    chunkSizes size w = List.replicate (size / w) w ++ partialChunk size w :=
  chunkLoop_eq hw size le_rfl

/-- The size rounded up to windows: the whole windows, and one more where some of it is left. -/
theorem chunkCount_eq {w : Nat} (hw : 1 ≤ w) (size : Nat) :
    (size + w - 1) / w = size / w + (partialChunk size w).length := by
  have hlt := Nat.mod_lt size hw
  have hsplit : size + w - 1 = w * (size / w) + (size % w + w - 1) := by
    have := Nat.div_add_mod size w
    omega
  rw [hsplit, Nat.mul_add_div hw, partialChunk]
  split
  · next h0 => exact congrArg (size / w + ·) (Nat.div_eq_of_lt (by omega))
  · next h0 => exact congrArg (size / w + ·) (Nat.div_eq_of_lt_le (k := 1) (by omega) (by omega))

theorem length_chunkSizes {w : Nat} (hw : 1 ≤ w) (size : Nat) : (chunkSizes size w).length = (size + w - 1) / w := by
  rw [chunkSizes_eq hw, chunkCount_eq hw, List.length_append, List.length_replicate]

theorem sum_chunkSizes {w : Nat} (hw : 1 ≤ w) (size : Nat) : (chunkSizes size w).sum = size := by
  have hrest : (partialChunk size w).sum = size % w := by
    rw [partialChunk]
    split
    · next h0 => simp [h0]
    · simp
  rw [chunkSizes_eq hw, List.sum_append, List.sum_replicate, hrest, smul_eq_mul, Nat.div_add_mod']

/-- Every chunk before another one is a whole window. -/
theorem take_chunkSizes {size w k : Nat} (hw : 1 ≤ w) (hk : k < (chunkSizes size w).length) :
    (chunkSizes size w).take k = List.replicate k w := by
  have hpartial : (partialChunk size w).length ≤ 1 := by rw [partialChunk]; split <;> simp
  rw [length_chunkSizes hw, chunkCount_eq hw] at hk
  rw [chunkSizes_eq hw, List.take_append_of_le_length (by simp; omega), List.take_replicate, Nat.min_eq_left (by omega)]

theorem chunkSizes_getElem?_of_not_last {size w k : Nat} (hw : 1 ≤ w) (hk : k + 1 < (chunkSizes size w).length) :
    (chunkSizes size w)[k]? = some w := by
  rw [← List.getElem?_take_of_lt k.lt_succ_self, take_chunkSizes hw hk, List.getElem?_replicate_of_lt k.lt_succ_self]

theorem chunkSizes_getLast? {size w : Nat} (hw : 1 ≤ w) (hsize : 0 < size) :
    (chunkSizes size w).getLast? = some (size - w * ((size + w - 1) / w - 1)) := by
  have hdiv := Nat.div_add_mod size w
  rw [chunkSizes_eq hw, chunkCount_eq hw, partialChunk]
  split
  · next h0 =>
    have hq : size / w ≠ 0 := by
      intro hq
      rw [hq, h0] at hdiv
      omega
    obtain ⟨q, hq⟩ := Nat.exists_eq_succ_of_ne_zero hq
    rw [hq, Nat.mul_succ] at hdiv
    simp [hq, List.getLast?_replicate]
    omega
  · rw [List.getLast?_concat]
    simp
    omega

/-- A chunk begins where those before it end. -/
theorem chunkOffsets_getElem? {cs : List Nat} {k : Nat} (hk : k < cs.length) (start : Nat) :
    (chunkOffsets start cs)[k]? = some (start + (cs.take k).sum) := by
  induction cs generalizing start k with
  | nil => cases hk
  | cons c cs ih =>
    cases k with
    | zero => rfl
    | succ k =>
      rw [chunkOffsets, List.getElem?_cons_succ, ih (Nat.lt_of_succ_lt_succ hk), List.take_succ_cons, List.sum_cons,
        Nat.add_assoc]

theorem chunkOffsets_chunkSizes {size w k : Nat} (hw : 1 ≤ w) (hk : k < (chunkSizes size w).length) :
    (chunkOffsets 0 (chunkSizes size w))[k]? = some (k * w) := by
  rw [chunkOffsets_getElem? hk, take_chunkSizes hw hk, List.sum_replicate, smul_eq_mul, Nat.zero_add]

/-! ## The sequence of an upload -/

/-- The sequence of an upload that is not turned away, with its start payload (R214 to R216). -/
def uploadSequence (P : HostParams) (request : List Byte → List Byte) (payload : List Byte) (size w : Nat) :
    List HostOp :=
  [.xfer .start, .file] ++
    xchg P P.codes.readFlashStart (request payload) P.policy.transferRetries [P.codes.ack, P.codes.downSizeError] ++
    [.xfer .transferring, .openWindow size w] ++ uploadMiddle P request size 0 (chunkSizes size w) ++
    [.xfer .end_] ++ xchg P P.codes.readFlashEnd [] P.policy.defaultRetries [P.codes.ack] ++ [.xfer .done]

theorem uploadWith_of_payload {P : HostParams} {request : List Byte → List Byte} {name : List Half} {size w : Nat}
    {payload : List Byte} (hp : startPayload name readAllField = .ok payload) (hw : 1 ≤ w) :
    uploadWith P request name size w = .ok (uploadSequence P request payload size w) := by
  simp only [uploadWith, hp, if_pos hw, uploadSequence]

/-- An upload that has a sequence has a start payload and a window of at least 1. -/
theorem uploadWith_ok {P : HostParams} {request : List Byte → List Byte} {name : List Half} {size w : Nat}
    {script : List HostOp} (h : uploadWith P request name size w = .ok script) :
    ∃ payload, startPayload name readAllField = .ok payload ∧ 1 ≤ w ∧
      script = uploadSequence P request payload size w := by
  unfold uploadWith at h
  split at h
  · cases h
  · next payload hp =>
    split at h
    · next hw => cases h; exact ⟨payload, hp, hw, rfl⟩
    · cases h

theorem windowLegal_iff {w : Nat} : windowLegal w = true ↔ 1 ≤ w ∧ w ≤ 65535 := by simp [windowLegal]

/-! ## Launches -/

/-- One middle exchange for each chunk (R215). -/
@[simp] theorem uploadMiddle_launches (P : HostParams) (request : List Byte → List Byte) (size offset : Nat)
    (cs : List Nat) :
    (uploadMiddle P request size offset cs).filter HostOp.launches =
      List.replicate cs.length (exchangeLaunch P.codes.readFlashMidst P.policy.defaultRetries) := by
  induction cs generalizing offset with
  | nil => rfl
  | cons c cs ih => simp [uploadMiddle, ih, HostOp.launches, List.replicate_succ]

/-- One middle exchange for each chunk (R217). -/
@[simp] theorem downloadMiddle_launches (P : HostParams) (n : Byte) (data : List Byte) (cs : List Nat) :
    (downloadMiddle P n data cs).filter HostOp.launches =
      List.replicate cs.length (exchangeLaunch P.codes.midstData n) := by
  induction cs generalizing data with
  | nil => rfl
  | cons c cs ih => simp [downloadMiddle, ih, HostOp.launches, List.replicate_succ]

theorem uploadSequence_launches {w : Nat} (hw : 1 ≤ w) (P : HostParams) (request : List Byte → List Byte)
    (payload : List Byte) (size : Nat) :
    (uploadSequence P request payload size w).filter HostOp.launches =
      transferLaunches P.codes.readFlashStart P.codes.readFlashMidst P.codes.readFlashEnd P.policy.transferRetries
        P.policy.defaultRetries P.policy.defaultRetries ((size + w - 1) / w) := by
  simp [uploadSequence, transferLaunches, HostOp.launches, length_chunkSizes hw]

theorem download_launches {w : Nat} (hw : 1 ≤ w) (P : HostParams) (n : Byte) (start data : List Byte) :
    (download P n start data w).filter HostOp.launches =
      transferLaunches P.codes.startData P.codes.midstData P.codes.endData n n P.policy.defaultRetries
        ((data.length + w - 1) / w) := by
  simp [download, transferLaunches, HostOp.launches, length_chunkSizes hw]

/-- A download with a start payload and a legal window has a sequence, whose launches are those of its exchanges. -/
theorem downloadFrom_launches {P : HostParams} {n : Byte} {start : List Byte → Except HostError (List Byte)}
    {data payload : List Byte} {w : Nat} (hstart : start data = .ok payload) (hw : 1 ≤ w) (hw' : w ≤ 65535) :
    ∃ script, downloadFrom P n start (some data) w = .ok script ∧
      script.filter HostOp.launches =
        transferLaunches P.codes.startData P.codes.midstData P.codes.endData n n P.policy.defaultRetries
          ((data.length + w - 1) / w) :=
  ⟨_, downloadFrom_some hstart (windowLegal_iff.2 ⟨hw, hw'⟩), download_launches hw P n payload data⟩

theorem downloadImage_launches (P : HostParams) (addr : Nat) (data : List Byte) {w : Nat} (hw : 1 ≤ w)
    (hw' : w ≤ 65535) :
    ∃ script, downloadImage P addr (some data) w = .ok script ∧
      script.filter HostOp.launches =
        transferLaunches P.codes.startData P.codes.midstData P.codes.endData P.policy.defaultRetries
          P.policy.defaultRetries P.policy.defaultRetries ((data.length + w - 1) / w) :=
  downloadFrom_launches rfl hw hw'

/-! ## A transfer that is turned away -/

/-- Reaching a transfer state is no access to the block (R219). -/
theorem hostStep_of_xfer {h : HostState} {x : XferState} {rest : List HostOp} (hs : h.script = .xfer x :: rest)
    (s : State) : hostStep h s = ({ h with script := rest, xfer := some x }, s) := by
  simp only [hostStep, hs]

/-- An action that fails by itself is no access to the block (R217, R220). -/
theorem hostStep_of_raise {h : HostState} {e : HostError} {rest : List HostOp} (hs : h.script = .raise e :: rest)
    (s : State) : hostStep h s = (h.fail e, s) := by
  simp only [hostStep, hs]

/-- Settles O56: it holds; the chunks are the whole windows and a partial one (`chunkSizes_eq`). -/
theorem transferAccounting : Obligations.TransferAccounting := by
  intro size w hw cs
  refine ⟨length_chunkSizes hw size, sum_chunkSizes hw size, fun k => chunkSizes_getElem?_of_not_last hw,
    chunkSizes_getLast? hw, fun k => chunkOffsets_chunkSizes hw, ?_⟩
  intro P name data hname count
  refine ⟨?_, ?_, ?_, rfl, fun addr => rfl, fun e h s hs => ?_⟩
  · exact ⟨_, uploadWith_of_payload (startPayload_of_le hname _) hw, uploadSequence_launches hw P id _ size⟩
  · rintro rfl hw'
    exact downloadFrom_launches (startPayload_of_le hname _) hw hw'
  · rintro addr rfl hw'
    exact downloadImage_launches P addr data hw hw'
  · intro one two
    have hone : one = _ := hostStep_of_xfer hs s
    have htwo : two = _ := hostStep_of_raise (congrArg (fun x => x.1.script) hone) one.2
    rw [htwo, hone]
    exact ⟨rfl, rfl, rfl, rfl⟩

end Sys2Proof.Machine

/-! SUPPORT. The host's response check (R203, R218): what it does to host and block, and where it stands in an exchange and
so in the sequences of a download and an upload (R214, R217, R223). -/

namespace Sys2Proof.Machine

/-! ## The check -/

/-- The error of a response that is not accepted (R203, R218). -/
def responseError (accept : List Byte) (refusal : Option Byte) (code : Byte) : HostError :=
  if refusal = some code then .sizeMismatch else .unexpectedResponse (accept.headD 0) code

/-- A response check reads RESP and goes on or fails by its CMD byte (R203). -/
theorem hostStep_of_checkResp {h : HostState} {accept : List Byte} {refusal : Option Byte} {rest : List HostOp}
    (hs : h.script = .checkResp accept refusal :: rest) (s : State) :
    hostStep h s =
      (if respCmd s.regs.resp ∈ accept then (h.pop rest).accepted accept (respCmd s.regs.resp)
        else h.fail (responseError accept refusal (respCmd s.regs.resp)), s.setReply (.data s.regs.resp)) := by
  have hread : busAccess (rdAccess .resp) s = s.setReply (.data s.regs.resp) := busAccess_read_reg s (r := .resp) rfl
  simp only [hostStep, hs, hread, List.contains_iff_mem, responseError, apply_ite h.fail]
  rfl

theorem HostState.accepted_eq (h : HostState) (accept : List Byte) (code : Byte) :
    h.accepted accept code =
      { h with logged := if accept.headD 0 = code then h.logged else h.logged ++ [code] } := by
  unfold HostState.accepted
  split <;> rfl

/-- A failure ends a transfer that is under way (R219). -/
theorem HostState.fail_xfer {h : HostState} {x : XferState} (hx : x ∈ [XferState.start, .transferring, .end_])
    (hxfer : h.xfer = some x) (e : HostError) : (h.fail e).xfer = some (.failed e) := by
  have hfail : ∀ x ∈ [XferState.start, .transferring, .end_], x.fail e = .failed e := by
    simp [XferState.fail]
  rw [HostState.fail, hxfer, Option.map_some, hfail x hx]

/-- What a response check leaves of the host, case by case of the code (R203, R218, R219). -/
theorem responseCheck_outcomes {h : HostState} {accept : List Byte} {refusal : Option Byte} {rest : List HostOp}
    (hs : h.script = .checkResp accept refusal :: rest) (s : State) :
    (respCmd s.regs.resp ∈ accept →
      (hostStep h s).1 = { h with
        script := rest
        logged := if accept.headD 0 = respCmd s.regs.resp then h.logged else h.logged ++ [respCmd s.regs.resp] }) ∧
    (respCmd s.regs.resp ∉ accept →
      (hostStep h s).1 = h.fail (responseError accept refusal (respCmd s.regs.resp))) := by
  rw [hostStep_of_checkResp hs]
  exact ⟨fun hmem => by rw [if_pos hmem, HostState.accepted_eq]; rfl, fun hmem => if_neg hmem⟩

/-! ## Its place in an exchange -/

/-- An exchange up to its response check (R223). -/
def beforeResponseCheck (P : HostParams) (code : Byte) (payload : List Byte) (n : Byte) : List HostOp :=
  wrb 0x00005 payload ++
    [wr .plen (BitVec.ofNat 32 payload.length), clr, cmdOpStep 0x0B code n, waitOp P, .checkStatus]

theorem xchg_eq (P : HostParams) (code : Byte) (payload : List Byte) (n : Byte) (accept : List Byte)
    (refusal : Option Byte) :
    xchg P code payload n accept refusal =
      beforeResponseCheck P code payload n ++ .checkResp accept refusal :: [.readPlen] := by
  rw [xchg, beforeResponseCheck, List.append_assoc]
  rfl

theorem beforeResponseCheck_launches (P : HostParams) (code : Byte) (payload : List Byte) (n : Byte) :
    (beforeResponseCheck P code payload n).filter HostOp.launches = [exchangeLaunch code n] := by
  have h := xchg_launches P code payload n [] none
  rw [xchg_eq, List.filter_append] at h
  exact (List.append_nil _).symm.trans h

theorem wrb_access {off : Nat} {bs : List Byte} {op : HostOp} (h : op ∈ wrb off bs) : ∃ a, op = .access a := by
  induction bs generalizing off with
  | nil => cases h
  | cons b bs ih =>
    rcases List.mem_cons.1 h with rfl | h
    · exact ⟨_, rfl⟩
    · exact ih h

/-- The check of an exchange is its first one (R223). -/
theorem beforeResponseCheck_no_check (P : HostParams) (code : Byte) (payload : List Byte) (n : Byte) :
    ∀ op ∈ beforeResponseCheck P code payload n, ∀ accept refusal, op ≠ .checkResp accept refusal := by
  have hwait : ∀ accept refusal, waitOp P ≠ .checkResp accept refusal := by
    unfold waitOp; split <;> exact nofun
  intro op hop
  rcases List.mem_append.1 hop with hop | hop
  · obtain ⟨a, rfl⟩ := wrb_access hop
    exact nofun
  · simp only [List.mem_cons, List.not_mem_nil, or_false] at hop
    rcases hop with rfl | rfl | rfl | rfl | rfl
    · exact nofun
    · exact nofun
    · exact nofun
    · exact hwait
    · exact nofun

/-- A download's first check stands in its start exchange, before it transfers (R217, R218). -/
theorem download_firstCheck (P : HostParams) (n : Byte) (start data : List Byte) (w : Nat) :
    ∃ after, download P n start data w =
      .xfer .start :: beforeResponseCheck P P.codes.startData start n ++
        .checkResp [P.codes.ack] (some P.codes.downSizeError) :: .readPlen :: .xfer .transferring :: after := by
  rw [download, xchg_eq P P.codes.startData]
  simp only [List.append_assoc, List.cons_append, List.nil_append]
  exact ⟨_, rfl⟩

/-- An upload's first check stands in its start exchange, before it transfers (R214). -/
theorem uploadSequence_firstCheck (P : HostParams) (request : List Byte → List Byte) (payload : List Byte)
    (size w : Nat) :
    ∃ after, uploadSequence P request payload size w =
      [.xfer .start, .file] ++
        beforeResponseCheck P P.codes.readFlashStart (request payload) P.policy.transferRetries ++
        .checkResp [P.codes.ack, P.codes.downSizeError] none :: .readPlen :: .xfer .transferring :: after := by
  rw [uploadSequence, xchg_eq P P.codes.readFlashStart]
  simp only [List.append_assoc, List.cons_append, List.nil_append]
  exact ⟨_, rfl⟩

/-- Settles O58: it holds; the check by the cases of its code (`hostStep_of_checkResp`), its place by that in an exchange
(`xchg_eq`). -/
theorem responseCheckFails : Obligations.ResponseCheckFails := by
  refine ⟨fun h s accept refusal rest hs => ?_, fun P n start data w => ?_, fun P name size w script hok => ?_⟩
  · obtain ⟨haccepted, hrefused⟩ := responseCheck_outcomes hs s
    refine ⟨congrArg Prod.snd (hostStep_of_checkResp hs s), haccepted, fun hmem => ?_⟩
    rw [hrefused hmem]
    refine ⟨rfl, fun hr => ?_, fun hr => ?_⟩
    · rw [responseError, if_pos hr]
      exact ⟨rfl, fun x hx hxfer => HostState.fail_xfer hx hxfer _⟩
    · rw [responseError, if_neg hr]
      exact ⟨rfl, fun x hx hxfer => HostState.fail_xfer hx hxfer _⟩
  · obtain ⟨after, heq⟩ := download_firstCheck P n start data w
    exact ⟨_, _, heq, beforeResponseCheck_no_check _ _ _ _, beforeResponseCheck_launches .., by simp⟩
  · obtain ⟨payload, -, -, rfl⟩ := uploadWith_ok hok
    obtain ⟨after, heq⟩ := uploadSequence_firstCheck P id payload size w
    exact ⟨_, _, heq, beforeResponseCheck_no_check _ _ _ _, beforeResponseCheck_launches .., by simp⟩

end Sys2Proof.Machine

/-! SUPPORT. The host's sequences wait right after each launch (R201), and the launches of the bootstrap (R207). -/

namespace Sys2Proof.Machine

/-! ## Conforming sequences -/

/-- The sequence goes on with a wait, by polling or for the interrupt (R103, R223). -/
def Waits (ops : List HostOp) : Prop := ops.head? = some .wait ∨ ops.head? = some .waitIrq

theorem conforming_cons {op : HostOp} {rest : List HostOp} :
    conforming (op :: rest) = true ↔ (op.launches = true → Waits rest) ∧ conforming rest = true := by
  rw [conforming]
  cases op.launches <;> simp [Waits]

theorem Waits.append {xs : List HostOp} (h : Waits xs) (ys : List HostOp) : Waits (xs ++ ys) := by
  cases xs with
  | nil => rcases h with h | h <;> cases h
  | cons x xs => exact h

/-- Sequences that wait right after each of their launches do so one behind the other. -/
theorem conforming_append {xs ys : List HostOp} (hx : conforming xs = true) (hy : conforming ys = true) :
    conforming (xs ++ ys) = true := by
  induction xs with
  | nil => exact hy
  | cons x xs ih =>
    obtain ⟨hwait, hrest⟩ := conforming_cons.1 hx
    exact conforming_cons.2 ⟨fun hl => (hwait hl).append ys, ih hrest⟩

theorem conforming_flatMap {α : Type} {f : α → List HostOp} {xs : List α} (h : ∀ x ∈ xs, conforming (f x) = true) :
    conforming (xs.flatMap f) = true := by
  induction xs with
  | nil => rfl
  | cons x xs ih =>
    rw [List.forall_mem_cons] at h
    exact conforming_append h.1 (ih h.2)

/-- A sequence without a launch has nothing to wait for. -/
theorem conforming_of_no_launch {ops : List HostOp} (h : ops.filter HostOp.launches = []) : conforming ops = true := by
  induction ops with
  | nil => rfl
  | cons op ops ih =>
    rw [List.filter_eq_nil_iff, List.forall_mem_cons] at h
    exact conforming_cons.2 ⟨fun hl => absurd hl h.1, ih (List.filter_eq_nil_iff.2 h.2)⟩

/-! ## The pseudo-operations -/

theorem setMode_launches (P : HostParams) (m : ChecksumMode) : (setMode P m).filter HostOp.launches = [] := by
  cases m <;> rfl

theorem probeOps_launches (P : HostParams) (n : Byte) :
    (probeOps P n).filter HostOp.launches = [.access (.write 32 0x004#21 (encode (.probe 0x00 n)))] := by
  unfold probeOps waitOp
  split <;> rfl

/-- A launch with the host's wait behind it. -/
theorem conforming_launch_wait (P : HostParams) (op : HostOp) {rest : List HostOp} (h : conforming rest = true) :
    conforming (op :: waitOp P :: rest) = true := by
  have hwait : Waits (waitOp P :: rest) ∧ (waitOp P).launches = false := by
    unfold waitOp
    split
    · exact ⟨.inr rfl, rfl⟩
    · exact ⟨.inl rfl, rfl⟩
  exact conforming_cons.2 ⟨fun _ => hwait.1, conforming_cons.2 ⟨fun hl => by simp [hwait.2] at hl, h⟩⟩

theorem conforming_probeOps (P : HostParams) (n : Byte) : conforming (probeOps P n) = true :=
  conforming_append (xs := [clr]) rfl (conforming_launch_wait P _ rfl)

theorem conforming_xchg (P : HostParams) (code : Byte) (payload : List Byte) (n : Byte) (accept : List Byte)
    (refusal : Option Byte) : conforming (xchg P code payload n accept refusal) = true :=
  conforming_append (conforming_of_no_launch (wrb_launches _ _))
    (conforming_append (xs := [wr .plen _, clr]) rfl (conforming_launch_wait P _ rfl))

/-! ## The transfers -/

theorem conforming_uploadMiddle (P : HostParams) (request : List Byte → List Byte) (size offset : Nat) (cs : List Nat) :
    conforming (uploadMiddle P request size offset cs) = true := by
  induction cs generalizing offset with
  | nil => rfl
  | cons c cs ih => exact conforming_append (conforming_append (conforming_xchg ..) rfl) (ih _)

theorem conforming_downloadMiddle (P : HostParams) (n : Byte) (data : List Byte) (cs : List Nat) :
    conforming (downloadMiddle P n data cs) = true := by
  induction cs generalizing data with
  | nil => rfl
  | cons c cs ih =>
    exact conforming_append (conforming_append (conforming_append rfl (conforming_xchg ..)) rfl) (ih _)

theorem conforming_uploadWith {P : HostParams} {request : List Byte → List Byte} {name : List Half} {size w : Nat}
    {script : List HostOp} (h : uploadWith P request name size w = .ok script) : conforming script = true := by
  obtain ⟨payload, -, -, rfl⟩ := uploadWith_ok h
  exact conforming_append (conforming_append (conforming_append (conforming_append (conforming_append
    (conforming_append rfl (conforming_xchg ..)) rfl) (conforming_uploadMiddle ..)) rfl) (conforming_xchg ..)) rfl

theorem conforming_downloadFrom {P : HostParams} {n : Byte} {start : List Byte → Except HostError (List Byte)}
    {source : Option (List Byte)} {w : Nat} {script : List HostOp} (h : downloadFrom P n start source w = .ok script) :
    conforming script = true := by
  obtain ⟨data, payload, -, -, -, rfl⟩ := downloadFrom_ok h
  exact conforming_append (conforming_append (conforming_append (conforming_append (conforming_append
    (conforming_append rfl (conforming_xchg ..)) rfl) (conforming_downloadMiddle ..)) rfl) (conforming_xchg ..)) rfl

theorem conforming_transferOps_downloadImage (P : HostParams) (addr : Nat) (image : Option (List Byte)) (w : Nat) :
    conforming (transferOps (downloadImage P addr image w)) = true := by
  cases h : downloadImage P addr image w with
  | error e => rfl
  | ok script => exact conforming_downloadFrom h

/-! ## The bootstrap -/

/-- Every row of R207 waits right after its launches. -/
theorem conforming_bootRows (P : HostParams) (image1 image2 : Option (List Byte)) :
    ∀ row ∈ bootRows P image1 image2, conforming row.2 = true := by
  have hconnected := conforming_append (conforming_probeOps P P.policy.probeRetries)
    (conforming_xchg P codeConnect [] P.policy.defaultRetries [P.codes.ack] none)
  simp only [bootRows, List.forall_mem_cons]
  exact ⟨conforming_of_no_launch (setMode_launches ..), hconnected, conforming_transferOps_downloadImage ..,
    conforming_xchg .., conforming_of_no_launch (setMode_launches ..), hconnected,
    conforming_transferOps_downloadImage .., conforming_xchg .., rfl, nofun⟩

theorem conforming_bootstrap (P : HostParams) (image1 image2 : Option (List Byte)) :
    conforming (bootstrap P image1 image2) = true :=
  conforming_flatMap fun row hrow => conforming_append (conforming_bootRows P image1 image2 row hrow) rfl

/-- The launches of a bootstrap are those of its rows (R207): reaching a state launches nothing. -/
theorem bootstrap_launches (P : HostParams) (image1 image2 : Option (List Byte)) :
    (bootstrap P image1 image2).filter HostOp.launches =
      (bootRows P image1 image2).flatMap fun row => row.2.filter HostOp.launches := by
  rw [bootstrap, List.filter_flatMap]
  exact List.flatMap_congr fun row _ => (List.filter_append ..).trans (List.append_nil _)

theorem transferOps_downloadImage_launches (P : HostParams) (addr : Nat) (data : List Byte) {w : Nat} (hw : 1 ≤ w)
    (hw' : w ≤ 65535) :
    (transferOps (downloadImage P addr (some data) w)).filter HostOp.launches =
      transferLaunches P.codes.startData P.codes.midstData P.codes.endData P.policy.defaultRetries
        P.policy.defaultRetries P.policy.defaultRetries ((data.length + w - 1) / w) := by
  obtain ⟨script, hok, hlaunches⟩ := downloadImage_launches P addr data hw hw'
  rw [hok, transferOps_ok, hlaunches]

/-- Settles O59: it holds, sequence by sequence; the bootstrap's launches row by row. -/
theorem hostSequencesWait : Obligations.HostSequencesWait := by
  intro P image1 image2 op d bop script
  refine ⟨conforming_bootstrap P image1 image2, fun h => ?_, fun h => ?_, ?_⟩
  · cases op with
    | ready image1 image2 => cases h; exact conforming_bootstrap P image1 image2
    | read name size w => exact conforming_uploadWith (Option.some.inj h)
    | write name source w => exact conforming_downloadFrom (Option.some.inj h)
    | reset => cases h
    | shutdown => cases h
    | camera => cases h
  · cases bop with
    | readBlock start count => exact conforming_uploadWith (Option.some.inj h)
    | writeBlock start data => cases h
    | close => cases h; rfl
  · rintro data1 data2 rfl rfl hw1 hw1' hw2 hw2' n probeLaunch connectLaunch loader
    rw [bootstrap_launches]
    simp only [bootRows, List.flatMap_cons, List.flatMap_nil, List.filter_append, setMode_launches, probeOps_launches,
      connect, xchg_launches, transferOps_downloadImage_launches P _ _ hw1 hw1',
      transferOps_downloadImage_launches P _ _ hw2 hw2', List.filter_nil]
    simp only [List.append_assoc, List.cons_append, List.nil_append, List.append_nil]
    rfl

end Sys2Proof.Machine

/-! SUPPORT. A host that waits right after each launch: the invariant of host and block in turn under which no access falls
into a running operation (R51, R201, R296). -/

namespace Sys2Proof.Machine

/-! ## Accesses to an idle block -/

/-- A register stands at its own offset and nowhere else (R25). -/
theorem offset_of_regAt {off : Nat} {r : Reg} (h : regAt off = some r) : off = r.offset := by
  obtain ⟨p, hp, rfl⟩ := Option.map_eq_some_iff.1 h
  have hoff : p.1 = off := by simpa using List.find?_some hp
  have hall : ∀ p ∈ regTable, p.1 = p.2.offset := by decide
  exact hoff ▸ hall p (List.mem_of_find?_eq_some hp)

/-- From `s` to `t` the block has stayed idle and nothing has set BUSYERR or changed the schedule. -/
structure StaysIdle (s t : State) : Prop where
  eng : t.eng = .idle
  busyerr : t.regs.busyerr = true → s.regs.busyerr = true
  agenda : t.env.agenda = s.env.agenda

section Idle
variable {s : State} (he : s.eng = .idle) (hb : s.regs.busy = false)
include he hb

theorem writeReg_staysIdle {reg : Option Reg} (hcmd : reg ≠ some .cmd) (v : Word) : StaysIdle s (writeReg reg v s) := by
  cases reg with
  | none =>
    rw [show writeReg none v s = s from if_neg (by simp [hb])]
    exact ⟨he, id, rfl⟩
  | some r =>
    by_cases hstatus : r = .status
    · subst hstatus
      exact ⟨he, fun h => (Bool.and_eq_true_iff.1 h).1, rfl⟩
    · rw [writeReg_of_not_busy hb (fun h => hcmd (congrArg some h)) hstatus]
      refine ⟨he, fun h => ?_, rfl⟩
      cases r <;> exact h

/-- An idle block takes a read and every write but the launch without leaving its phase or setting BUSYERR (R51). -/
theorem busAccess_staysIdle {a : Access} (h : (HostOp.access a).launches = false) : StaysIdle s (busAccess a s) := by
  have hreply : ∀ {t : State} (rep : Reply), StaysIdle s t → StaysIdle s (t.setReply rep) :=
    fun rep ht => ⟨ht.eng, ht.busyerr, ht.agenda⟩
  have hself : StaysIdle s s := ⟨he, id, rfl⟩
  have hnb : ¬ s.regs.busy = true := by simp [hb]
  cases a with
  | read bits off =>
    simp only [busAccess, busRead, if_neg hnb]
    split
    · split
      · split <;> exact hreply _ hself
      · exact hreply _ hself
    · split
      · exact hreply _ hself
      · split <;> exact hreply _ hself
  | write bits off v =>
    simp only [busAccess, busWrite, if_neg hnb]
    split
    · split
      · next hlegal =>
        refine hreply _ (writeReg_staysIdle he hb (fun hcmd => ?_) v)
        obtain rfl : off = 0x004#21 := BitVec.eq_of_toNat_eq (offset_of_regAt hcmd)
        obtain rfl : bits = 32 := by simpa [regAccessLegal] using hlegal
        simp [HostOp.launches] at h
      · exact hreply _ hself
    · split
      · exact hreply _ hself
      · split
        · exact hreply _ ⟨he, id, rfl⟩
        · exact hreply _ hself

end Idle

/-! ## The block's steps -/

theorem portStep_keeps (s : State) : (portStep s).env.agenda = s.env.agenda ∧ (portStep s).regs = s.regs := by
  rcases portStep_cases s with ⟨bytes, j, -, h⟩ | ⟨n, j, -, h⟩ | ⟨-, h⟩
  · have henv := congrArg Env.agenda (answerWrite_env s.env)
    rw [h]
    exact ⟨henv, rfl⟩
  · have henv := congrArg Env.agenda (answerRead_env n s.env)
    rw [h]
    exact ⟨henv, rfl⟩
  · rw [h]
    exact ⟨rfl, rfl⟩

theorem engineStep_keeps {s t : State} (h : engineStep s = .next t) :
    t.regs.busyerr = s.regs.busyerr ∧ t.env.agenda = s.env.agenda := by
  unfold engineStep at h
  split at h
  · split at h
    · next i _ =>
      have hframe := exec_frame h
      exact ⟨by rw [hframe.regs]; rfl, congrArg Env.agenda hframe.env⟩
    · cases h; exact ⟨rfl, rfl⟩
  · cases h; exact ⟨rfl, rfl⟩
  · cases h; exact ⟨rfl, rfl⟩
  · cases h; exact ⟨rfl, rfl⟩

/-- A block that nothing is scheduled for never sets BUSYERR by itself (R38). -/
theorem step_keeps_busyerr {s t : State} (hagenda : s.env.agenda = []) (h : step s = .next t) :
    t.regs.busyerr = s.regs.busyerr ∧ t.env.agenda = [] := by
  rw [← hagenda]
  simp only [step, hagenda, runOn] at h
  split at h
  · exact engineStep_keeps h
  · cases h
    obtain ⟨henv, hregs⟩ := portStep_keeps s
    exact ⟨congrArg Regs.busyerr hregs, henv⟩
  · cases h
    obtain ⟨henv, hregs⟩ := portStep_keeps s
    exact ⟨congrArg Regs.busyerr hregs, henv⟩
  · cases h; exact ⟨rfl, rfl⟩

/-! ## The host's steps -/

theorem HostState.advance_script (h : HostState) (chunk : Nat) (total : Option Nat) :
    (h.advance chunk total).script = h.script := by
  unfold HostState.advance
  split
  · rfl
  · split
    · rfl
    · dsimp only
      split <;> rfl

theorem HostState.accepted_script (h : HostState) (accept : List Byte) (code : Byte) :
    (h.accepted accept code).script = h.script := by
  rw [HostState.accepted_eq]

/-- What a step can leave of a sequence. -/
inductive NextScript (ops : List HostOp) : List HostOp → Prop where
  | stay : NextScript ops ops
  | stop : NextScript ops []
  | tail {op : HostOp} {rest : List HostOp} (hs : ops = op :: rest) : NextScript ops rest
  | sinkOn {op : HostOp} {rest : List HostOp} (hs : ops = op :: rest) (i : Nat) : NextScript ops (.sink i :: rest)

theorem nextScript_fileOp {ops rest : List HostOp} {op : HostOp} (hs : ops = op :: rest) (h : HostState)
    {done : HostState → HostState} (hdone : ∀ h, (done h).script = h.script) :
    NextScript ops ((h.pop rest).fileOp done).script := by
  rcases (h.pop rest).fileOp_cases done with ⟨files, heq⟩ | ⟨files, heq⟩
  · rw [heq, hdone]; exact .tail hs
  · rw [heq]; exact .stop

theorem hostStep_script (h : HostState) (s : State) : NextScript h.script (hostStep h s).1.script := by
  cases hs : h.script with
  | nil => simp only [hostStep, hs]; exact .stay
  | cons op rest =>
    cases op with
    | access a => simp only [hostStep, hs]; exact .tail rfl
    | wait => simp only [hostStep, hs]; split <;> [exact hs ▸ .stay; exact .tail rfl]
    | waitIrq => simp only [hostStep, hs]; split <;> [exact .tail rfl; exact hs ▸ .stay]
    | checkStatus => simp only [hostStep, hs]; split <;> [exact .stop; exact .tail rfl]
    | checkResp accept refusal =>
      rw [hostStep_of_checkResp hs]
      dsimp only
      split
      · rw [HostState.accepted_script]; exact .tail rfl
      · exact .stop
    | readPlen => simp only [hostStep, hs]; exact .tail rfl
    | sink i =>
      simp only [hostStep, hs]
      split
      · exact .sinkOn rfl _
      · exact nextScript_fileOp rfl h fun _ => rfl
    | file => simp only [hostStep, hs]; exact nextScript_fileOp rfl h fun _ => rfl
    | advance chunk total => simp only [hostStep, hs]; rw [HostState.advance_script]; exact .tail rfl
    | openWindow size w => simp only [hostStep, hs]; exact .tail rfl
    | raise e => rw [hostStep_of_raise hs]; exact .stop
    | boot b => simp only [hostStep, hs]; exact .tail rfl
    | xfer x => rw [hostStep_of_xfer hs]; exact .tail rfl

theorem conforming_hostStep {h : HostState} (hc : conforming h.script = true) (s : State) :
    conforming (hostStep h s).1.script = true := by
  have htail : ∀ {op rest}, h.script = op :: rest → conforming rest = true := by
    intro op rest hs
    rw [hs] at hc
    exact (conforming_cons.1 hc).2
  have hnext := hostStep_script h s
  generalize (hostStep h s).1.script = next at hnext ⊢
  cases hnext with
  | stay => exact hc
  | stop => rfl
  | tail hs => exact htail hs
  | sinkOn hs i => exact conforming_cons.2 ⟨nofun, htail hs⟩

/-- What a step of the host does to the block: the access of its sequence, a read of its own, or nothing. -/
inductive HostMove (h : HostState) (s : State) : HostState × State → Prop where
  | access {a : Access} {rest : List HostOp} (hs : h.script = .access a :: rest) :
    HostMove h s (h.pop rest, busAccess a s)
  | read (h' : HostState) (bits : Nat) (off : BitVec 21) : HostMove h s (h', busAccess (.read bits off) s)
  | nothing (h' : HostState) : HostMove h s (h', s)

theorem hostStep_move (h : HostState) (s : State) : HostMove h s (hostStep h s) := by
  cases hs : h.script with
  | nil => simp only [hostStep, hs]; exact .nothing _
  | cons op rest =>
    cases op with
    | access a => simp only [hostStep, hs]; exact .access hs
    | wait | checkStatus | checkResp | readPlen => simp only [hostStep, hs]; exact .read ..
    | sink i => simp only [hostStep, hs]; split <;> [exact .read ..; exact .nothing _]
    | _ => simp only [hostStep, hs]; exact .nothing _

/-- Polling a running operation leaves the host where it is (R103). -/
theorem hostStep_of_wait_of_busy {h : HostState} {rest : List HostOp} (hs : h.script = .wait :: rest) {s : State}
    (hb : s.regs.busy = true) : hostStep h s = (h, s.setReply (.data s.regs.statusWord)) := by
  have hread : busAccess (rdAccess .status) s = s.setReply (.data s.regs.statusWord) :=
    busAccess_read_reg s (r := .status) rfl
  have hbit : s.regs.statusWord.getLsbD 0 = true := (getLsbD_statusWord ..).trans hb
  simp only [hostStep, hs, hread, State.setReply_env, Reply.value, hbit, if_true]

/-- There is no interrupt while an operation runs (R53). -/
theorem hostStep_of_waitIrq_of_not_done {h : HostState} {rest : List HostOp} (hs : h.script = .waitIrq :: rest)
    {s : State} (hd : s.regs.done = false) : hostStep h s = (h, s) := by
  simp only [hostStep, hs, irq_of_not_done hd]
  rfl

/-! ## Host and block in turn -/

/-- The host waits while the block runs an operation, and nothing has set BUSYERR. -/
structure HostWaits (h : HostState) (s : State) : Prop where
  conforming : conforming h.script = true
  inv : s.Inv
  agenda : s.env.agenda = []
  busyerr : s.regs.busyerr = false
  waits : s.eng ≠ .idle → Waits h.script

section Turns
variable {h : HostState} {s : State} (hw : HostWaits h s)
include hw

/-- The block's turn. -/
theorem HostWaits.step {t : State} (hstep : step s = .next t) : HostWaits h t := by
  obtain ⟨hbusyerr, hagenda⟩ := step_keeps_busyerr hw.agenda hstep
  refine ⟨hw.conforming, stepKeepsInv s t hw.inv hstep, hagenda, hbusyerr.trans hw.busyerr, fun hne => hw.waits ?_⟩
  intro hidle
  rw [step_of_idle hw.agenda hidle] at hstep
  cases hstep
  exact hne hidle

/-- The host's turn beside a running operation: it goes on waiting. -/
theorem HostWaits.hostStep_of_running (hne : s.eng ≠ .idle) : HostWaits (hostStep h s).1 (hostStep h s).2 := by
  have hb := hw.inv.busy.2 hne
  rcases hw.waits hne with hhead | hhead
  · obtain ⟨rest, hs⟩ := List.head?_eq_some_iff.1 hhead
    rw [hostStep_of_wait_of_busy hs hb]
    exact { hw with inv := hw.inv.setReply _ }
  · obtain ⟨rest, hs⟩ := List.head?_eq_some_iff.1 hhead
    rw [hostStep_of_waitIrq_of_not_done hs (hw.inv.running hb).1]
    exact hw

/-- The host's turn beside an idle block, when its step launches nothing. -/
theorem HostWaits.of_staysIdle {h' : HostState} {t : State} (hc : Machine.conforming h'.script = true) (hinv : t.Inv)
    (ht : StaysIdle s t) : HostWaits h' t :=
  { conforming := hc
    inv := hinv
    agenda := ht.agenda.trans hw.agenda
    busyerr := Bool.eq_false_iff.2 fun htrue => Bool.eq_false_iff.1 hw.busyerr (ht.busyerr htrue)
    waits := fun hne => absurd ht.eng hne }

/-- The host's turn beside an idle block, when its step is a launch: a wait stands behind it (R150, R201). -/
theorem HostWaits.launch {a : Access} {rest : List HostOp} (he : s.eng = .idle) (hs : h.script = .access a :: rest)
    (hl : (HostOp.access a).launches = true) : HostWaits (h.pop rest) (busAccess a s) := by
  have hc := hw.conforming
  rw [hs, conforming_cons] at hc
  cases a with
  | read bits off => cases hl
  | write bits off v =>
    obtain ⟨rfl, rfl⟩ : bits = 32 ∧ off = 0x004#21 := by simpa [HostOp.launches] using hl
    have hinv := busAccess_inv hw.inv (.write 32 0x004#21 v)
    rw [busAccess_write_cmd_of_idle he] at hinv ⊢
    exact ⟨hc.2, hinv, hw.agenda, hw.busyerr, fun _ => hc.1 hl⟩

/-- The host's turn beside an idle block. -/
theorem HostWaits.hostStep_of_idle (he : s.eng = .idle) : HostWaits (hostStep h s).1 (hostStep h s).2 := by
  have hb : s.regs.busy = false := Bool.eq_false_iff.2 fun htrue => hw.inv.busy.1 htrue he
  have hc := conforming_hostStep hw.conforming s
  have hmove := hostStep_move h s
  generalize hostStep h s = next at hc hmove ⊢
  cases hmove with
  | @access a rest hs =>
    cases hl : (HostOp.access a).launches with
    | true => exact hw.launch he hs hl
    | false => exact hw.of_staysIdle hc (busAccess_inv hw.inv a) (busAccess_staysIdle he hb hl)
  | read h' bits off =>
    exact hw.of_staysIdle hc (busAccess_inv hw.inv (.read bits off)) (busAccess_staysIdle (a := .read bits off) he hb rfl)
  | nothing h' => exact hw.of_staysIdle hc hw.inv ⟨he, id, rfl⟩

end Turns

/-- Every turn, of the host or of the block, keeps the host waiting for what runs (R201). -/
theorem systemStep_keeps_hostWaits {y z : System} (hw : HostWaits y.host y.block) (h : systemStep y = .next z) :
    HostWaits z.host z.block := by
  unfold systemStep at h
  split at h
  · cases h
    by_cases he : y.block.eng = .idle
    · exact hw.hostStep_of_idle he
    · exact hw.hostStep_of_running he
  · split at h
    · next t hstep => cases h; exact hw.step hstep
    · cases h
    · cases h

theorem systemRun_keeps_hostWaits {n : Nat} {y z : System} (hw : HostWaits y.host y.block)
    (h : systemRun n y = .next z) : HostWaits z.host z.block := by
  induction n generalizing y with
  | zero => cases h; exact hw
  | succ n ih =>
    rw [systemRun] at h
    split at h
    · next y' hstep => exact ih (systemStep_keeps_hostWaits hw hstep) h
    · cases h
    · cases h

/-- Settles O60: it holds, as a clause of an invariant of host and block in turn (`HostWaits`). -/
theorem waitingHostNeverBusyErr : Obligations.WaitingHostNeverBusyErr := by
  intro y z n hc hinv hidle hagenda hbusyerr hrun
  exact (systemRun_keeps_hostWaits ⟨hc, hinv, hagenda, hbusyerr, fun hne => absurd hidle hne⟩ hrun).busyerr

end Sys2Proof.Machine

/-! SUPPORT. The error codes that an operation finishes with: those of its row of R244, and the counter of attempts behind
the error of a last attempt (R170, R176, R244, R246). -/

namespace Sys2Proof.Machine

/-! ## Finishing with one of some codes -/

/-- If the operation has ended in `t`, its error code is NONE or one of `codes` (R244). -/
def FinishesWithin (codes : List ErrCode) (t : State) : Prop :=
  t.eng = .idle → t.regs.errcode ∈ ErrCode.none :: codes

section Codes
variable {codes : List ErrCode} {s t : State}

theorem finish_finishesWithin {e : ErrCode} (h : e ∈ ErrCode.none :: codes) (s : State) :
    FinishesWithin codes (finish e s) := fun _ => h

theorem FinishesWithin.of_not_idle (h : t.eng ≠ .idle) : FinishesWithin codes t := fun hidle => absurd hidle h

theorem storeOutput_finishesWithin {out : List Byte} (hparam : .param ∈ codes) (h : storeOutput out s = .next t) :
    FinishesWithin codes t := by
  rcases storeOutput_next h with rfl | ⟨-, rfl⟩
  · exact finish_finishesWithin (List.mem_cons_of_mem _ hparam) _
  · exact finish_finishesWithin List.mem_cons_self _

theorem checksumOp_finishesWithin {f : Job → List Byte → Half} (hparam : .param ∈ codes)
    (h : checksumOp f s = .next t) : FinishesWithin codes t := by
  rcases checksumOp_next h with rfl | ⟨j, -, rfl⟩
  · exact finish_finishesWithin (List.mem_cons_of_mem _ hparam) _
  · exact finish_finishesWithin List.mem_cons_self _

end Codes

/-! ## The operations without attempts -/

section Operations
variable {fcmd retries : Byte} {s t : State}

theorem execStuff_finishesWithin (h : exec (.stuff fcmd retries) s = .next t) : FinishesWithin [.param] t := by
  obtain ⟨-, rfl | h⟩ := execStuff_next h
  · exact finish_finishesWithin (by simp) s
  · exact storeOutput_finishesWithin (by simp) h

theorem execUnstuff_finishesWithin (h : exec (.unstuff fcmd retries) s = .next t) :
    FinishesWithin [.param, .escInvalid, .escTruncated] t := by
  obtain ⟨-, rfl | ⟨-, rfl⟩ | ⟨-, h⟩⟩ := execUnstuff_next h
  · exact finish_finishesWithin (by simp) s
  · have hcode := unstuff_error_mem (s.bytesAt s.regs.src.toNat s.regs.len.toNat)
    exact finish_finishesWithin (List.cons_subset_cons _ (List.subset_cons_self ..) hcode) _
  · exact storeOutput_finishesWithin (by simp) h

theorem execBuild_finishesWithin (h : exec (.build fcmd retries) s = .next t) : FinishesWithin [] t := by
  obtain ⟨j, -, rfl⟩ := execBuild_next h
  exact finish_finishesWithin (by simp) _

theorem execSend_finishesWithin (h : exec (.send fcmd retries) s = .next t) :
    FinishesWithin [.param, .transport] t := by
  rcases execSend_next h with ⟨j, -, -, rfl⟩ | ⟨j, -, -, rfl⟩ | ⟨j, a, -, rfl⟩
  · exact finish_finishesWithin (by simp) s
  · exact .of_not_idle nofun
  · exact finish_finishesWithin (by cases a <;> simp [WriteAnswer.errCode]) s

theorem execRecv_finishesWithin (h : exec (.recv fcmd retries) s = .next t) :
    FinishesWithin [.transport, .rxOverflow] t := by
  rcases execRecv_next h with ⟨j, -, rfl⟩ | ⟨j, a, -, h⟩
  · exact .of_not_idle nofun
  · rcases receiveChunk_next h with ⟨e, he, h⟩ | ⟨chunk, -, -, -, h | ⟨-, rfl⟩⟩
    · cases h; exact finish_finishesWithin (List.mem_cons_of_mem _ he) s
    · cases h; exact finish_finishesWithin (by simp) _
    · exact .of_not_idle nofun

/-- The codes of DECODE are those of unstuffing and those of the checks behind it (R165, R166). -/
theorem execDecode_finishesWithin (h : exec (.decode fcmd retries) s = .next t) :
    FinishesWithin [.escInvalid, .escTruncated, .badDelimiter, .shortFrame, .checksumMismatch] t := by
  obtain ⟨j, -, h⟩ := execDecode_next h
  rcases decodeVerify_next h with ⟨he, h⟩ | ⟨-, -, h⟩
  · cases h
    exact finish_finishesWithin (List.mem_cons_of_mem _ (List.mem_append_left _ he)) _
  · cases h
    have hcode := frameError_mem s.env.crcTable j.m j.le (unstuff s.received).1
    have hsub : [ErrCode.badDelimiter, .shortFrame, .checksumMismatch] ⊆
        [.escInvalid, .escTruncated, .badDelimiter, .shortFrame, .checksumMismatch] :=
      List.subset_append_right [ErrCode.escInvalid, .escTruncated] _
    exact finish_finishesWithin (List.cons_subset_cons _ hsub hcode) _

end Operations

/-! ## Receive attempts -/

/-- The codes of an operation with attempts: PARAM for RETRIES = 0, and those of a receive attempt (R176, R244). -/
def attemptCodes : List ErrCode := .param :: receiveErrors

theorem mem_attemptCodes_of_receive {e : ErrCode} (h : e ∈ ErrCode.none :: receiveErrors) :
    e ∈ ErrCode.none :: attemptCodes :=
  List.cons_subset_cons _ (List.subset_cons_self ..) h

section Attempts
variable {fcmd retries : Byte} {s t : State}

/-- Behind a taken write RETRIES = 0 would finish with the kept last error (R246). -/
theorem attemptsBegin_finishesWithin {n : Byte} {j : Job} (hlast : j.lasterr ∈ ErrCode.none :: receiveErrors)
    (h : attemptsBegin n j s = .next t) : FinishesWithin attemptCodes t := by
  rcases attemptsBegin_next h with ⟨rfl, -⟩ | ⟨rfl, -⟩
  · exact .of_not_idle nofun
  · exact finish_finishesWithin (mem_attemptCodes_of_receive hlast) s

/-- Behind a read the operation ends only with the code of the attempt that ends there (R170). -/
theorem attemptsResume_finishesWithin {n : Byte} {a : ReadAnswer} {j : Job} (h : attemptsResume n a j s = .next t) :
    FinishesWithin attemptCodes t := by
  rcases attemptsResume_next h with ⟨chunk, -, -, -, -, rfl⟩ | ⟨e, u, hends, h⟩
  · exact .of_not_idle nofun
  · rcases attemptResult_next h with ⟨rfl, -⟩ | ⟨-, -, rfl⟩
    · exact finish_finishesWithin (mem_attemptCodes_of_receive (attemptEnds_error hends)) u
    · exact .of_not_idle nofun

theorem execRecvx_finishesWithin (h : exec (.recvx fcmd retries) s = .next t) : FinishesWithin attemptCodes t := by
  rcases execRecvx_next h with ⟨j, -, -, rfl⟩ | ⟨j, -, -, rfl⟩ | ⟨j, a, -, h⟩
  · exact finish_finishesWithin (by simp [attemptCodes]) s
  · exact .of_not_idle nofun
  · exact attemptsResume_finishesWithin h

theorem execExchange_finishesWithin (hlast : ∀ j p, s.eng = .run j p → j.lasterr ∈ ErrCode.none :: receiveErrors)
    (h : exec (.exchange fcmd retries) s = .next t) : FinishesWithin attemptCodes t := by
  rcases execExchange_next h with ⟨j, -, -, rfl⟩ | ⟨j, -, -, rfl⟩ | ⟨j, -, rfl⟩ | ⟨j, hj, h⟩ | ⟨j, a, -, h⟩
  · exact finish_finishesWithin (by simp [attemptCodes]) s
  · exact .of_not_idle nofun
  · exact finish_finishesWithin (by simp [attemptCodes, receiveErrors]) s
  · exact attemptsBegin_finishesWithin (hlast j _ hj) h
  · exact attemptsResume_finishesWithin h

theorem execProbe_finishesWithin (hlast : ∀ j p, s.eng = .run j p → j.lasterr ∈ ErrCode.none :: receiveErrors)
    (h : exec (.probe fcmd retries) s = .next t) : FinishesWithin attemptCodes t := by
  rcases execProbe_next h with ⟨j, -, -, rfl⟩ | ⟨j, -, -, rfl⟩ | ⟨j, -, rfl⟩ | ⟨j, hj, h⟩ | ⟨j, a, -, h⟩
  · exact finish_finishesWithin (by simp [attemptCodes]) s
  · exact .of_not_idle nofun
  · exact finish_finishesWithin (by simp [attemptCodes, receiveErrors]) s
  · exact attemptsBegin_finishesWithin (hlast j _ hj) h
  · exact attemptsResume_finishesWithin h

end Attempts

/-! ## Every operation -/

/-- Settles O8: it holds, operation by operation. The premise on the kept last error serves EXCHANGE and PROBE behind a
taken write with RETRIES = 0, which finish with it (`attemptsBegin_finishesWithin`). -/
theorem finishCodesOfOperations : Obligations.FinishCodesOfOperations := by
  intro i s t h hidle hlast
  suffices hcodes : FinishesWithin (errorCodes i) t from hcodes hidle
  cases i with
  | crc16 fcmd retries => exact checksumOp_finishesWithin (by simp [errorCodes]) h
  | isum fcmd retries => exact checksumOp_finishesWithin (by simp [errorCodes]) h
  | cksum fcmd retries => exact checksumOp_finishesWithin (by simp [errorCodes]) h
  | stuff fcmd retries => exact execStuff_finishesWithin h
  | unstuff fcmd retries => exact execUnstuff_finishesWithin h
  | build fcmd retries => exact execBuild_finishesWithin h
  | send fcmd retries => exact execSend_finishesWithin h
  | recv fcmd retries => exact execRecv_finishesWithin h
  | decode fcmd retries => exact execDecode_finishesWithin h
  | recvx fcmd retries => exact execRecvx_finishesWithin h
  | exchange fcmd retries => exact execExchange_finishesWithin hlast h
  | probe fcmd retries => exact execProbe_finishesWithin hlast h

/-! ## The counter of attempts -/

theorem attemptEnds_attempts {j : Job} {a : ReadAnswer} {s u : State} {e : ErrCode} (h : AttemptEnds j a s e u) :
    u.regs.attempts = s.regs.attempts := by
  obtain ⟨-, -, _, _, _, _, _, _, _, hregs, -⟩ := attemptEnds_keeps h
  rw [hregs]

/-- Behind a read an operation ends with an error only when no attempt is left, and ending counts none (R170, R246). -/
theorem attemptsResume_spent_of_error {n : Byte} {a : ReadAnswer} {j : Job} {s t : State}
    (h : attemptsResume n a j s = .next t) (hidle : t.eng = .idle) (herr : t.regs.errcode ≠ .none) :
    ¬ j.k < n ∧ t.regs.attempts = s.regs.attempts := by
  rcases attemptsResume_next h with ⟨chunk, -, -, -, -, rfl⟩ | ⟨e, u, hends, h⟩
  · cases hidle
  · have hkept := attemptEnds_attempts hends
    rcases attemptResult_next h with ⟨rfl, hnone | hspent⟩ | ⟨-, -, rfl⟩
    · exact absurd hnone herr
    · exact ⟨hspent, hkept⟩
    · cases hidle

/-- Settles O37: it holds; no attempt is left, and the counter is not past RETRIES. -/
theorem lastErrorAfterAllAttempts : Obligations.LastErrorAfterAllAttempts := by
  intro fcmd retries i s t j a hi he hcount hle h hidle herr
  rw [exec_of_got_of_attempts hi he] at h
  obtain ⟨hspent, hkept⟩ := attemptsResume_spent_of_error h hidle herr
  calc t.regs.attempts = s.regs.attempts := hkept
    _ = j.k := hcount.symm
    _ = retries := BitVec.le_antisymm hle (BitVec.not_lt.1 hspent)

end Sys2Proof.Machine

/-! SUPPORT. The reset input (R280 to R283): what it leaves of the schedule and the port's answers (R266). -/

namespace Sys2Proof.Machine

/-! ## A discarded request -/

/-- The legal answer to a discarded read is dropped with it (R266). -/
theorem discardRequest_waitRead {n : Nat} {e : Env} {a : ReadAnswer} {reads : List ReadAnswer} (j : Job)
    (h : e.portReads = a :: reads) (hn : ∀ chunk, a = .ok chunk → chunk.length ≤ n) :
    discardRequest (.waitRead n j) e = { e with portReads := reads } := by
  cases a with
  | ok chunk => exact congrArg Prod.snd (answerRead_of_chunk h (hn chunk rfl))
  | err => exact congrArg Prod.snd (answerRead_of_err h)

/-- The answer to a discarded write is dropped with it (R266). -/
theorem discardRequest_waitWrite {e : Env} {a : WriteAnswer} {writes : List WriteAnswer} (bytes : List Byte) (j : Job)
    (h : e.portWrites = a :: writes) : discardRequest (.waitWrite bytes j) e = { e with portWrites := writes } :=
  congrArg Prod.snd (answerWrite_of_answer h)

theorem discardRequest_of_no_request {eng : Engine} (h : eng = .idle ∨ ∃ j p, eng = .run j p) (e : Env) :
    discardRequest eng e = e := by
  rcases h with rfl | ⟨j, p, rfl⟩ <;> rfl

/-! ## The state behind the reset input -/

theorem resetStep_byte? (s : State) (a : Nat) : (resetStep s).buf.byte? a = none := rfl

@[simp] theorem resetStep_byteAt (s : State) (a : Nat) :
    (resetStep s).byteAt a = Config.freeByte (s.env.epoch + 1) a := rfl

theorem resetStep_agenda (s : State) : (resetStep s).env.agenda = s.env.agenda := by
  rw [resetStep_env, discardRequest_env]

/-- Settles O48: it holds; the scheduled reset is `resetStep`, and what it takes from the port is the answer to the request
that is outstanding, phase by phase. -/
theorem resetInputAnyTime : Obligations.ResetInputAnyTime := by
  intro s rest h
  refine ⟨resetStep (s.setAgenda rest), step_of_scheduled h, rfl, rfl, resetStep_byte? _, rfl, resetStep_byteAt _,
    resetStep_agenda _, fun n j a reads he hreads hn => ?_, fun bytes j a writes he hwrites => ?_, fun hnone => ?_⟩
  · have hdrop := discardRequest_waitRead (e := (s.setAgenda rest).env) j hreads hn
    rw [resetStep_env, State.setAgenda_eng, he, hdrop]
    exact ⟨rfl, rfl⟩
  · have hdrop := discardRequest_waitWrite (e := (s.setAgenda rest).env) bytes j hwrites
    rw [resetStep_env, State.setAgenda_eng, he, hdrop]
    exact ⟨rfl, rfl⟩
  · rw [resetStep_env, State.setAgenda_eng, discardRequest_of_no_request hnone]
    exact ⟨rfl, rfl⟩

end Sys2Proof.Machine

/-! SUPPORT. Liveness: what a step does to an operation that nothing disturbs, the number of steps it can still take, and the
run to its finish (R293, R297). -/

namespace Sys2Proof.Machine

/-! ## The reads that can still come -/

/-- The receive attempts that the command in CMD can make: RETRIES where they are counted, one for RECV (R163, R170). -/
def attemptLimit (cmd : BitVec 24) : Nat :=
  if opAttempts (cmdOp cmd) then (cmdRetries cmd).toNat else if cmdOp cmd = 0x08 then 1 else 0

/-- The reads of one attempt: REGION_SIZE chunks of one byte, and the one that overflows (R160 to R162; log entry 8). -/
def readsPerAttempt : Nat := Config.regionSize + 1

/-- The reads that the running operation can still make, the one under way included: those of the attempts not yet
counted, and in this attempt one for each byte that RXW has room for and one more. -/
def State.readsLeft (s : State) (j : Job) : Nat :=
  (if opAttempts j.op then (cmdRetries s.regs.cmd).toNat - j.k.toNat else 0) * readsPerAttempt +
    (readsPerAttempt - s.regs.rxwLen.toNat)

theorem State.readsLeft_pos {s : State} (hs : s.Inv) (j : Job) : 0 < s.readsLeft j := by
  have hrxw := hs.rxwLen
  simp only [State.readsLeft, readsPerAttempt]
  omega

/-- An operation that reads has counted the attempt under way, so the reads left are those of all its attempts at most. -/
theorem State.readsLeft_le {s : State} {j : Job} (hj : JobOk s.regs j) (hr : j.Reads) :
    s.readsLeft j ≤ attemptLimit s.regs.cmd * readsPerAttempt := by
  unfold State.readsLeft attemptLimit
  rw [← hj.op]
  by_cases hop : opAttempts j.op = true
  · have hcounted := hr.counted hop
    have hbounded := hj.bounded hop
    simp only [hop, if_true, readsPerAttempt, Config.regionSize]
    omega
  · have hrecv : j.op = 0x08 := by
      have hreads := hr.op
      simp only [opReads, opAttempts, Bool.or_eq_true, beq_iff_eq] at hreads hop
      tauto
    simp [hrecv, opAttempts]

/-- A stored chunk takes room from RXW (R160). -/
theorem State.readsLeft_storeChunk_lt {s : State} (j : Job) {chunk : List Byte} (hne : chunk ≠ [])
    (hfit : s.regs.rxwLen.toNat + chunk.length ≤ Config.regionSize) :
    (s.storeChunk chunk).readsLeft j < s.readsLeft j := by
  have hpos := List.length_pos_of_ne_nil hne
  simp only [State.readsLeft, State.storeChunk_regs, BitVec.toNat_ofNat, readsPerAttempt, Config.regionSize] at hfit ⊢
  omega

/-- The next attempt uses up those that are not yet counted (R170). -/
theorem State.readsLeft_nextAttempt_lt {s t : State} {j j' : Job} (hs : s.Inv) (hop : opAttempts j.op = true)
    (hop' : j'.op = j.op) (hk : j.k < cmdRetries s.regs.cmd) (hk' : j'.k = j.k + 1) (hcmd : t.regs.cmd = s.regs.cmd) :
    t.readsLeft j' < s.readsLeft j := by
  have hrxw := hs.rxwLen
  have hlt : j.k.toNat < (cmdRetries s.regs.cmd).toNat := hk
  have hsucc : j'.k.toNat = j.k.toNat + 1 := by
    have := (cmdRetries s.regs.cmd).isLt
    rw [hk', BitVec.toNat_add]; simp; omega
  simp only [State.readsLeft, hop', hop, if_true, hcmd, hsucc, readsPerAttempt, Config.regionSize] at hrxw ⊢
  omega

/-! ## The undisturbed step -/

/-- What a step of a block that nothing is scheduled for does to its operation (R153, R178): the operation finishes; from
its start it requests a write; from its start or behind the write it requests its first read; behind a read it requests
another one, with fewer left; or the port answers the request. -/
inductive StepsOn (s t : State) : Prop where
  | finished (ht : t.eng = .idle) (hdone : t.regs.done = true)
  | sent {j j' : Job} {bytes : List Byte} (he : s.eng = .run j .start) (ht : t.eng = .waitWrite bytes j')
      (hcmd : t.regs.cmd = s.regs.cmd)
  | begun {j j' : Job} {p : Point} {n : Nat} (he : s.eng = .run j p) (hp : ∀ a, p ≠ .got a) (ht : t.eng = .waitRead n j')
      (hcmd : t.regs.cmd = s.regs.cmd)
  | readOn {j j' : Job} {a : ReadAnswer} {n : Nat} (he : s.eng = .run j (.got a)) (ht : t.eng = .waitRead n j')
      (hless : t.readsLeft j' < s.readsLeft j)
  | writeAnswered {j : Job} {bytes : List Byte} {a : WriteAnswer} (he : s.eng = .waitWrite bytes j)
      (ht : t.eng = .run j (.wrote a)) (hregs : t.regs = s.regs)
  | readAnswered {j : Job} {n : Nat} {a : ReadAnswer} (he : s.eng = .waitRead n j) (ht : t.eng = .run j (.got a))
      (hregs : t.regs = s.regs)

theorem StepsOn.finish (s : State) (e : ErrCode) (u : State) : StepsOn s (finish e u) := .finished rfl rfl

theorem checksumOp_stepsOn {f : Job → List Byte → Half} {s t : State} (h : checksumOp f s = .next t) : StepsOn s t := by
  rcases checksumOp_next h with rfl | ⟨j, -, rfl⟩ <;> exact .finish ..

theorem storeOutput_stepsOn {out : List Byte} {s t : State} (h : storeOutput out s = .next t) : StepsOn s t := by
  rcases storeOutput_next h with rfl | ⟨-, rfl⟩ <;> exact .finish ..

theorem attemptsBegin_stepsOn {n : Byte} {j : Job} {a : WriteAnswer} {s t : State} (he : s.eng = .run j (.wrote a))
    (h : attemptsBegin n j s = .next t) : StepsOn s t := by
  rcases attemptsBegin_next h with ⟨rfl, -⟩ | ⟨rfl, -⟩
  · exact .begun he nofun rfl rfl
  · exact .finish ..

/-- RECVX, EXCHANGE and PROBE behind a read: less room in RXW, or fewer attempts left (R160, R170). -/
theorem attemptsResume_stepsOn {i : Instr} {fcmd retries : Byte} {j : Job} {a : ReadAnswer} {s t : State} (hs : s.Inv)
    (hr : s.Runs i) (hi : i ∈ attemptInstrs fcmd retries) (he : s.eng = .run j (.got a))
    (h : attemptsResume retries a j s = .next t) : StepsOn s t := by
  obtain ⟨hop, rfl⟩ := hr.attempts hi he
  rcases attemptsResume_next h with ⟨chunk, -, hne, -, hfit, rfl⟩ | ⟨e, u, hends, h⟩
  · exact .readOn he rfl (State.readsLeft_storeChunk_lt j hne hfit)
  · rcases attemptResult_next h with ⟨rfl, -⟩ | ⟨-, hk, rfl⟩
    · exact .finish ..
    · obtain ⟨-, -, _, _, _, _, _, _, _, hregs, -⟩ := attemptEnds_keeps hends
      have hcmd : u.regs.cmd = s.regs.cmd := by rw [hregs]
      exact .readOn he rfl (State.readsLeft_nextAttempt_lt hs hop rfl hk rfl hcmd)

theorem execRecv_stepsOn {fcmd retries : Byte} {s t : State} (h : exec (.recv fcmd retries) s = .next t) :
    StepsOn s t := by
  rcases execRecv_next h with ⟨j, he, rfl⟩ | ⟨j, a, he, h⟩
  · exact .begun he nofun rfl rfl
  · rcases receiveChunk_next h with ⟨e, -, h⟩ | ⟨chunk, -, hne, hfit, h | ⟨-, rfl⟩⟩
    · cases h; exact .finish ..
    · cases h; exact .finish ..
    · exact .readOn he rfl (State.readsLeft_storeChunk_lt j hne hfit)

theorem execRecvx_stepsOn {fcmd retries : Byte} {s t : State} (hs : s.Inv) (hr : s.Runs (.recvx fcmd retries))
    (h : exec (.recvx fcmd retries) s = .next t) : StepsOn s t := by
  rcases execRecvx_next h with ⟨j, -, -, rfl⟩ | ⟨j, he, -, rfl⟩ | ⟨j, a, he, h⟩
  · exact .finish ..
  · exact .begun he nofun rfl rfl
  · exact attemptsResume_stepsOn (fcmd := fcmd) hs hr (by simp [attemptInstrs]) he h

theorem execExchange_stepsOn {fcmd retries : Byte} {s t : State} (hs : s.Inv) (hr : s.Runs (.exchange fcmd retries))
    (h : exec (.exchange fcmd retries) s = .next t) : StepsOn s t := by
  rcases execExchange_next h with ⟨j, -, -, rfl⟩ | ⟨j, he, -, rfl⟩ | ⟨j, -, rfl⟩ | ⟨j, he, h⟩ | ⟨j, a, he, h⟩
  · exact .finish ..
  · exact .sent he rfl rfl
  · exact .finish ..
  · exact attemptsBegin_stepsOn he h
  · exact attemptsResume_stepsOn (fcmd := fcmd) hs hr (by simp [attemptInstrs]) he h

theorem execProbe_stepsOn {fcmd retries : Byte} {s t : State} (hs : s.Inv) (hr : s.Runs (.probe fcmd retries))
    (h : exec (.probe fcmd retries) s = .next t) : StepsOn s t := by
  rcases execProbe_next h with ⟨j, -, -, rfl⟩ | ⟨j, he, -, rfl⟩ | ⟨j, -, rfl⟩ | ⟨j, he, h⟩ | ⟨j, a, he, h⟩
  · exact .finish ..
  · exact .sent he rfl rfl
  · exact .finish ..
  · exact attemptsBegin_stepsOn he h
  · exact attemptsResume_stepsOn (fcmd := fcmd) hs hr (by simp [attemptInstrs]) he h

theorem exec_stepsOn {i : Instr} {s t : State} (hs : s.Inv) (hr : s.Runs i) (h : exec i s = .next t) : StepsOn s t := by
  cases i with
  | crc16 fcmd retries => exact checksumOp_stepsOn h
  | isum fcmd retries => exact checksumOp_stepsOn h
  | cksum fcmd retries => exact checksumOp_stepsOn h
  | stuff fcmd retries =>
    obtain ⟨-, rfl | h⟩ := execStuff_next h
    · exact .finish ..
    · exact storeOutput_stepsOn h
  | unstuff fcmd retries =>
    obtain ⟨-, rfl | ⟨-, rfl⟩ | ⟨-, h⟩⟩ := execUnstuff_next h
    · exact .finish ..
    · exact .finish ..
    · exact storeOutput_stepsOn h
  | build fcmd retries =>
    obtain ⟨j, -, rfl⟩ := execBuild_next h
    exact .finish ..
  | send fcmd retries =>
    rcases execSend_next h with ⟨j, -, -, rfl⟩ | ⟨j, he, -, rfl⟩ | ⟨j, a, -, rfl⟩
    · exact .finish ..
    · exact .sent he rfl rfl
    · exact .finish ..
  | recv fcmd retries => exact execRecv_stepsOn h
  | decode fcmd retries =>
    obtain ⟨j, -, h⟩ := execDecode_next h
    rcases decodeVerify_next h with ⟨-, h⟩ | ⟨-, -, h⟩ <;> cases h <;> exact .finish ..
  | recvx fcmd retries => exact execRecvx_stepsOn hs hr h
  | exchange fcmd retries => exact execExchange_stepsOn hs hr h
  | probe fcmd retries => exact execProbe_stepsOn hs hr h

theorem portStep_stepsOn {s : State} (hne : s.eng ≠ .idle) (hrun : ∀ j p, s.eng ≠ .run j p) :
    StepsOn s (portStep s) := by
  rcases portStep_cases s with ⟨bytes, j, he, h⟩ | ⟨n, j, he, h⟩ | ⟨hidle | ⟨j, p, he⟩, -⟩
  · rw [h]; exact .writeAnswered he rfl rfl
  · rw [h]; exact .readAnswered he rfl rfl
  · exact absurd hidle hne
  · exact absurd he (hrun j p)

/-- With nothing scheduled every step of a running operation brings it on, an illegal opcode included (R83, R264). -/
theorem step_stepsOn {s t : State} (hs : s.Inv) (hagenda : s.env.agenda = []) (hne : s.eng ≠ .idle)
    (h : step s = .next t) : StepsOn s t := by
  cases he : s.eng with
  | idle => exact absurd he hne
  | run j p =>
    rw [step_of_run hagenda he] at h
    simp only [engineStep, he] at h
    split at h
    · next i hi => exact exec_stepsOn hs (runs_of_decode he hi) h
    · cases h; exact .finish ..
  | waitWrite bytes j =>
    rw [step_of_waitWrite hagenda he] at h
    cases h
    exact portStep_stepsOn hne (by simp [he])
  | waitRead n j =>
    rw [step_of_waitRead hagenda he] at h
    cases h
    exact portStep_stepsOn hne (by simp [he])

/-! ## The steps that can still come -/

/-- The steps an undisturbed operation can still take: two for each read, and from its start two for its write and the
engine's first one (R293). -/
def State.stepsLeft (s : State) : Nat :=
  match s.eng with
  | .idle => 0
  | .run _ .start => 2 * (1 + attemptLimit s.regs.cmd * readsPerAttempt) + 1
  | .waitWrite _ _ => 2 * (1 + attemptLimit s.regs.cmd * readsPerAttempt)
  | .run _ (.wrote _) => 2 * (attemptLimit s.regs.cmd * readsPerAttempt) + 1
  | .waitRead _ j => 2 * s.readsLeft j
  | .run j (.got _) => 2 * s.readsLeft j - 1

theorem State.Inv.readsLeft_le_of_got {s : State} (hs : s.Inv) {j : Job} {a : ReadAnswer} (he : s.eng = .run j (.got a)) :
    s.readsLeft j ≤ attemptLimit s.regs.cmd * readsPerAttempt :=
  State.readsLeft_le (hs.active_run he).job (hs.reads_of_got he)

theorem State.Inv.readsLeft_le_of_waitRead {s : State} (hs : s.Inv) {j : Job} {n : Nat} (he : s.eng = .waitRead n j) :
    s.readsLeft j ≤ attemptLimit s.regs.cmd * readsPerAttempt := by
  obtain ⟨hactive, hreads, -⟩ := hs.waitRead he
  exact State.readsLeft_le hactive.job hreads

/-- No state has more steps to come than the start of its operation. -/
theorem State.Inv.stepsLeft_le {s : State} (hs : s.Inv) :
    s.stepsLeft ≤ 2 * (1 + attemptLimit s.regs.cmd * readsPerAttempt) + 1 := by
  unfold State.stepsLeft
  split
  · omega
  · omega
  · omega
  · omega
  · next n j he =>
    have := hs.readsLeft_le_of_waitRead he
    omega
  · next j a he =>
    have := hs.readsLeft_le_of_got he
    omega

theorem State.Inv.stepsLeft_pos {s : State} (hs : s.Inv) (hne : s.eng ≠ .idle) : 0 < s.stepsLeft := by
  unfold State.stepsLeft
  split
  · next he => exact absurd he hne
  · omega
  · omega
  · omega
  · next n j he =>
    have := State.readsLeft_pos hs j
    omega
  · next j a he =>
    have := State.readsLeft_pos hs j
    omega

/-- Every undisturbed step leaves fewer to come. -/
theorem StepsOn.stepsLeft_lt {s t : State} (h : StepsOn s t) (hs : s.Inv) (ht : t.Inv) (hne : s.eng ≠ .idle) :
    t.stepsLeft < s.stepsLeft := by
  cases h with
  | finished he =>
    have hpos := hs.stepsLeft_pos hne
    simpa only [State.stepsLeft, he] using hpos
  | sent he he' hcmd => simp only [State.stepsLeft, he, he', hcmd]; omega
  | @begun j j' p n he hp he' hcmd =>
    have hle := ht.readsLeft_le_of_waitRead he'
    rw [hcmd] at hle
    cases p with
    | start => simp only [State.stepsLeft, he, he']; omega
    | wrote a => simp only [State.stepsLeft, he, he']; omega
    | got a => exact absurd rfl (hp a)
  | readOn he he' hless => simp only [State.stepsLeft, he, he']; omega
  | writeAnswered he he' hregs => simp only [State.stepsLeft, he, he', hregs]; omega
  | @readAnswered j n a he he' hregs =>
    have hpos := State.readsLeft_pos hs j
    have hsame : t.readsLeft j = s.readsLeft j := by rw [State.readsLeft, State.readsLeft, hregs]
    simp only [State.stepsLeft, he, he', hsame]
    omega

/-- An undisturbed operation becomes idle only through `finish` (R151). -/
theorem StepsOn.done_of_idle {s t : State} (h : StepsOn s t) (hidle : t.eng = .idle) : t.regs.done = true := by
  cases h with
  | finished _ hdone => exact hdone
  | sent _ ht => simp [hidle] at ht
  | begun _ _ ht => simp [hidle] at ht
  | readOn _ ht => simp [hidle] at ht
  | writeAnswered _ ht => simp [hidle] at ht
  | readAnswered _ ht => simp [hidle] at ht

/-! ## The run to the finish -/

theorem State.Inv.not_busy_of_idle {s : State} (h : s.Inv) (he : s.eng = .idle) : s.regs.busy = false := by
  simpa [he] using h.busy

/-- An undisturbed operation, running or finished, reaches its finish within the steps it has left. -/
theorem runSteps_to_finish {s : State} (hs : s.Inv) (hagenda : s.env.agenda = [])
    (hdone : s.eng = .idle → s.regs.done = true) :
    ∃ n t, n ≤ s.stepsLeft ∧ runSteps n s = .next t ∧ t.eng = .idle ∧ t.regs.done = true ∧ t.regs.busy = false := by
  induction hm : s.stepsLeft using Nat.strong_induction_on generalizing s with
  | _ m ih =>
    subst hm
    by_cases he : s.eng = .idle
    · exact ⟨0, s, Nat.zero_le _, rfl, he, hdone he, hs.not_busy_of_idle he⟩
    · obtain ⟨t, hstep⟩ := stepNeverStops s hs
      have ht := stepKeepsInv s t hs hstep
      have hon := step_stepsOn hs hagenda he hstep
      have hlt := hon.stepsLeft_lt hs ht he
      obtain ⟨n, u, hn, hrun, hend⟩ := ih _ hlt ht (step_keeps_busyerr hagenda hstep).2 hon.done_of_idle rfl
      exact ⟨n + 1, u, by omega, (runSteps_succ hstep n).trans hrun, hend⟩

/-- Settles O52: it holds; every undisturbed step lowers `State.stepsLeft` (`StepsOn.stepsLeft_lt`), which is within the
bound from the start (`State.Inv.stepsLeft_le`). -/
theorem operationsEnd : Obligations.OperationsEnd := by
  intro s hs hagenda
  by_cases he : s.eng = .idle
  · exact ⟨0, s, Nat.zero_le _, rfl, he, fun hne => absurd he hne⟩
  · obtain ⟨n, t, hn, hrun, hidle, hend⟩ := runSteps_to_finish hs hagenda fun h => absurd h he
    exact ⟨n, t, hn.trans hs.stepsLeft_le, hrun, hidle, fun _ => hend⟩

end Sys2Proof.Machine
